-- ==== Sys2Proof/Word.lean ====
section
/-! DEFINITION. The plain bit types of the midi-to-usb core (00_scope.md R13, 30_encoding.md R60). -/

namespace Sys2Proof

/-- One byte: a MIDI byte, a filter mask, the operand of a word (R61, R65, R71). -/
abbrev Byte := BitVec 8

/-- One transaction word (R60: every word has a single length, 16 bits). -/
abbrev Word := BitVec 16

end Sys2Proof
end

