-- ==== Sys2Proof/Config.lean ====
section
/-! DEFINITION. The implementation parameters of 00_scope.md R7 to R11 and their default values. What is legal (R12) is
`Config.legal` in Machine/Params.lean. -/

namespace Sys2Proof

/-- TOP_CONFIG (R11): the three units' ports exposed, or the bridge sequencer driving them. -/
inductive TopConfig where
  | unit
  | integrated
deriving DecidableEq, Repr

/-- One value of SYS_LEN (R9, 30_encoding.md R69): REJECT, 2 or 3. -/
inductive SysLen where
  | reject
  | two
  | three
deriving DecidableEq, Repr

/-- The parameters. Legal values are checked by `Config.legal`, but for those a field's type already bounds:
NOTE_CHANNEL 0..15, NOTE_PITCH and NOTE_VELOCITY 0..127, FILTER_CFG any byte, and TICK_PERIOD > 0, held as its
predecessor (log 1). -/
structure Config where
  /-- N, the number of slots (R7). -/
  n : Nat
  /-- CTR_W, the width of each pointer register (R7). -/
  ctrW : Nat
  /-- DATA_W, the width of one slot (R7). -/
  dataW : Nat
  /-- ASYNC (R8). -/
  async : Bool
  /-- SYNC_STAGES (R8). -/
  syncStages : Nat
  /-- SYS_LEN(0xF0 + i) at index i (R9). -/
  sysLen : Vector SysLen 16
  /-- FILTER_CFG (R9). -/
  filterCfg : Byte
  /-- W, the width of the debounce register (R10). -/
  w : Nat
  /-- K, its significant low bits (R10). -/
  k : Nat
  /-- DC_VALUE (R10). -/
  dcValue : Nat
  /-- PRESS_PATTERN (R10). -/
  pressPattern : Nat
  /-- RELEASE_PATTERN (R10). -/
  releasePattern : Nat
  /-- NOTE_CHANNEL (R11). -/
  noteChannel : BitVec 4
  /-- NOTE_PITCH (R11). -/
  notePitch : BitVec 7
  /-- NOTE_VELOCITY (R11). -/
  noteVelocity : BitVec 7
  /-- TICK_PERIOD - 1 (R11); only the host's duty (a) of 70_reset_and_hazards.md R153 reads the period (logs 1, 30). -/
  tickPeriodPred : Nat
  /-- TOP_CONFIG (R11). -/
  top : TopConfig
deriving DecidableEq, Repr

/-- FILTER_CFG of this hardware: OPEN in the spec (R9), so nothing is known of it (log 1). -/
opaque Config.openFilterCfg : Byte

/-- NOTE_CHANNEL of this hardware: OPEN in the spec (R11, log 1). -/
opaque Config.openNoteChannel : BitVec 4

/-- NOTE_PITCH of this hardware: OPEN in the spec (R11, log 1). -/
opaque Config.openNotePitch : BitVec 7

/-- NOTE_VELOCITY of this hardware: OPEN in the spec (R11, log 1). -/
opaque Config.openNoteVelocity : BitVec 7

/-- TICK_PERIOD - 1 of this hardware: OPEN in the spec (R11, log 1). -/
opaque Config.openTickPeriodPred : Nat

/-- The byte the parser is fed when the sequencer pops an item that no byte equals, by DATA_W and the item: a free value, since
no rule says which of its bits `pb_data` takes (log 28). -/
opaque Config.openWideItemByte : Nat → Nat → Byte

/-- The parameter values of R7 to R11: the defaults, and the opaque constants where the spec says OPEN. -/
def Config.standard : Config where
  n := 128
  ctrW := 7
  dataW := 8
  async := true
  syncStages := 2
  sysLen := Vector.replicate 16 SysLen.reject
  filterCfg := Config.openFilterCfg
  w := 16
  k := 13
  dcValue := 0xE000
  pressPattern := 0xEFFF
  releasePattern := 0xF000
  noteChannel := Config.openNoteChannel
  notePitch := Config.openNotePitch
  noteVelocity := Config.openNoteVelocity
  tickPeriodPred := Config.openTickPeriodPred
  top := .integrated

end Sys2Proof
end

