-- ==== Sys2Proof/Syntax.lean ====
section
/-! DEFINITION. The transactions of the block: one constructor per row of spec/opcode_table.json (30_encoding.md R62), the
agents that issue them (00_scope.md R6), and the pseudo-instructions of the trace syntax (R78). -/

namespace Sys2Proof

/-- The fifteen operations of R62, with the operand R63 gives each. -/
inductive Instr where
  /-- PUSH imm (R83). -/
  | push (v : Byte)
  /-- POP (R85). -/
  | pop
  /-- SIZE (R87). -/
  | size
  /-- EMPTY (R88). -/
  | empty
  /-- CAPACITY (R89). -/
  | capacity
  /-- WLEVEL (R90). -/
  | wlevel
  /-- SYNCW (R91). -/
  | syncw
  /-- SYNCR (R92). -/
  | syncr
  /-- PARSE imm (R99). -/
  | parse (b : Byte)
  /-- SETMASK imm (R108). -/
  | setmask (m : Byte)
  /-- SAMPLE raw_active (R112). -/
  | sample (r : Bool)
  /-- TAKEP (R114). -/
  | takep
  /-- TAKER (R115). -/
  | taker
  /-- BSTEP raw_active (R122 to R124). -/
  | bstep (r : Bool)
  /-- TICK (R121). -/
  | tick
deriving DecidableEq, Repr

/-- The sources of steps (R6). -/
inductive Agent where
  | producer
  | consumer
  | syncW
  | syncR
  | host
deriving DecidableEq, Repr

/-- The two clock domains (60_exceptions.md R144). -/
inductive Domain where
  | write
  | read
deriving DecidableEq, Repr

/-- The pseudo-instructions of R78. -/
inductive Pseudo where
  | enq (b : Byte)
  | sync
  | xfer (b : Byte)
  | parses (bs : List Byte)
  | samples (ss : List Bool)
  | take
  | sampleTimes (k : Nat) (s : Bool)
deriving DecidableEq, Repr

end Sys2Proof
end

