-- ==== Sys2Proof/Machine/Params.lean ====
section
/-! DEFINITION. What the parameters derive (00_scope.md R7 to R12) and which words a configuration has a port for
(43_bridge.md R132). -/

namespace Sys2Proof

/-- LOG2N (R7). -/
def Config.log2n (c : Config) : Nat := Nat.log2 c.n

/-- `2 ^ CTR_W`, the modulus of all pointer arithmetic (R14). -/
def Config.ptrMod (c : Config) : Nat := 2 ^ c.ctrW

/-- The update mask KEEP = 2^K - 1 of the debounce register (30_encoding.md R75). -/
def Config.keep (c : Config) : Nat := 2 ^ c.k - 1

/-- TICK_PERIOD (R11), always > 0. -/
def Config.tickPeriod (c : Config) : Nat := c.tickPeriodPred + 1

/-- The exact configuration (40_fifo.md R98): ASYNC false and SYNC_STAGES = 0. -/
def Config.exact (c : Config) : Bool := !c.async && c.syncStages == 0

/-- N is a power of two, at least 2 (R7, R12). -/
def Config.legalCapacity (c : Config) : Bool := decide (c.n = 2 ^ c.log2n) && decide (2 ≤ c.n)

/-- CTR_W >= LOG2N and DATA_W >= 1 (R7, R12). -/
def Config.legalWidths (c : Config) : Bool := decide (c.log2n ≤ c.ctrW) && decide (1 ≤ c.dataW)

/-- SYNC_STAGES >= 2 when ASYNC, any number otherwise (R8, R12). -/
def Config.legalStages (c : Config) : Bool := !c.async || decide (2 ≤ c.syncStages)

/-- 2 <= K <= W (R10, R12); W >= 2 follows. -/
def Config.legalDebounceWidths (c : Config) : Bool := decide (2 ≤ c.k) && decide (c.k ≤ c.w)

/-- DC_VALUE is a W-bit value with bits [K-1:0] zero (R10, R12). -/
def Config.legalDcValue (c : Config) : Bool := decide (c.dcValue < 2 ^ c.w) && decide (c.dcValue % 2 ^ c.k = 0)

/-- PRESS_PATTERN and RELEASE_PATTERN are two different W-bit values (R10, R12). -/
def Config.legalPatterns (c : Config) : Bool :=
  decide (c.pressPattern < 2 ^ c.w) && decide (c.releasePattern < 2 ^ c.w) && decide (c.pressPattern ≠ c.releasePattern)

/-- R12: the configuration meets every "legal values" column of R7 to R11. -/
def Config.legal (c : Config) : Bool :=
  c.legalCapacity && c.legalWidths && c.legalStages && c.legalDebounceWidths && c.legalDcValue && c.legalPatterns

/-- R132: whether the top has a port for the operation. PUSH, WLEVEL, SYNCW, SYNCR and SETMASK are admitted in both. -/
def Instr.admitted (top : TopConfig) (i : Instr) : Bool :=
  match i with
  | .push _ => true
  | .pop => top == .unit
  | .size => top == .unit
  | .empty => top == .unit
  | .capacity => top == .unit
  | .wlevel => true
  | .syncw => true
  | .syncr => true
  | .parse _ => top == .unit
  | .setmask _ => true
  | .sample _ => top == .unit
  | .takep => top == .unit
  | .taker => top == .unit
  | .bstep _ => top == .integrated
  | .tick => top == .integrated

/-- R63, R64 (e): the word form of PUSH exists only for DATA_W = 8. -/
def Instr.widthOk (c : Config) (i : Instr) : Bool :=
  match i with
  | .push _ => c.dataW == 8
  | _ => true

/-- The agent that issues the operation (R6, R62). -/
def Instr.agent (i : Instr) : Agent :=
  match i with
  | .push _ => .producer
  | .pop => .consumer
  | .size => .consumer
  | .empty => .consumer
  | .capacity => .consumer
  | .wlevel => .producer
  | .syncw => .syncW
  | .syncr => .syncR
  | .parse _ => .consumer
  | .setmask _ => .consumer
  | .sample _ => .consumer
  | .takep => .consumer
  | .taker => .consumer
  | .bstep _ => .consumer
  | .tick => .host

/-- The clock domain whose registers the operation drives: the pointer copy `wq_rptr` is the write domain's (R23), `rq_wptr`
the read domain's (R22), and `tick` is a port relative to rclk (30_encoding.md R82). -/
def Instr.domain (i : Instr) : Domain :=
  match i.agent with
  | .producer => .write
  | .consumer => .read
  | .syncW => .read
  | .syncR => .write
  | .host => .read

/-- The expansion of a pseudo-instruction into transactions, in order (R78). -/
def Pseudo.expand (p : Pseudo) : List Instr :=
  match p with
  | .enq b => [.push b]
  | .sync => [.syncw, .syncr]
  | .xfer b => [.push b, .syncw]
  | .parses bs => bs.map Instr.parse
  | .samples ss => ss.map Instr.sample
  | .take => [.takep, .taker]
  | .sampleTimes k s => List.replicate k (.sample s)

end Sys2Proof
end

