-- ==== Sys2Proof/WellFormed.lean ====
section
/-! DEFINITION. When a transaction is well formed for a configuration: the configuration is legal (00_scope.md R12), it has a
port for the operation (43_bridge.md R132), and the operand's width is the slot's (30_encoding.md R64 (e)). Everything else a
word must satisfy (R64 (a) to (d)) is the decoder's, and no term of `Instr` can break it. -/

namespace Sys2Proof

/-- A transaction the configuration gives a meaning to. -/
def Instr.wellFormed (c : Config) (i : Instr) : Bool := c.legal && i.admitted c.top && i.widthOk c

end Sys2Proof
end

