-- ==== Sys2Proof/Decode.lean ====
section
/-! DEFINITION. The transaction word (30_encoding.md R60 to R64): fields, decoder, encoder, and the opcode table. -/

namespace Sys2Proof

/-- Why a word is illegal: the cases (a) to (d) of R64. Case (e) depends on DATA_W and is the machine's. -/
inductive IllegalReason where
  /-- R64 (a): op = 0x0. -/
  | reservedOp
  /-- R64 (b): z != 0. -/
  | reservedBits
  /-- R64 (c): imm != 0 for an operation without an operand. -/
  | operandPresent
  /-- R64 (d): imm[7:1] != 0 for SAMPLE or BSTEP. -/
  | levelBits
deriving DecidableEq, Repr

/-- Field `op`, bits [15:12] (R61). -/
def wordOp (w : Word) : BitVec 4 := w.extractLsb' 12 4

/-- Field `z`, bits [11:8] (R61). -/
def wordZ (w : Word) : BitVec 4 := w.extractLsb' 8 4

/-- Field `imm`, bits [7:0] (R61). -/
def wordImm (w : Word) : Byte := w.extractLsb' 0 8

/-- The word `{op[3:0], 0b0000, imm[7:0]}` (R77). -/
def mkWord (op : BitVec 4) (imm : Byte) : Word := (op ++ (0 : BitVec 4)) ++ imm

/-- An operation without an operand: imm must be 0x00 (R61, R64 (c)). -/
def decodeBare (imm : Byte) (i : Instr) : Except IllegalReason Instr :=
  if imm = 0 then .ok i else .error .operandPresent

/-- A raw_active operand: imm[0], with imm[7:1] = 0 (R63, R64 (d)). -/
def decodeLevel (imm : Byte) (f : Bool → Instr) : Except IllegalReason Instr :=
  if imm.extractLsb' 1 7 = 0 then .ok (f (imm.getLsbD 0)) else .error .levelBits

/-- The operation assignment of R62 on the fields `op` and `imm` (R63). -/
def decodeOp (op : BitVec 4) (imm : Byte) : Except IllegalReason Instr :=
  match op.toNat with
  | 1 => .ok (.push imm)
  | 2 => decodeBare imm .pop
  | 3 => decodeBare imm .size
  | 4 => decodeBare imm .empty
  | 5 => decodeBare imm .capacity
  | 6 => decodeBare imm .wlevel
  | 7 => decodeBare imm .syncw
  | 8 => decodeBare imm .syncr
  | 9 => .ok (.parse imm)
  | 10 => .ok (.setmask imm)
  | 11 => decodeLevel imm .sample
  | 12 => decodeBare imm .takep
  | 13 => decodeBare imm .taker
  | 14 => decodeLevel imm .bstep
  | 15 => decodeBare imm .tick
  | _ => .error .reservedOp

/-- The decoder: total on every word, refusing by name (R62 to R64). -/
def decodeWord (w : Word) : Except IllegalReason Instr :=
  if wordZ w = 0 then decodeOp (wordOp w) (wordImm w)
  else if wordOp w = 0 then .error .reservedOp else .error .reservedBits

/-- Field `op` of the operation (R62). -/
def Instr.op (i : Instr) : BitVec 4 :=
  match i with
  | .push _ => 0x1
  | .pop => 0x2
  | .size => 0x3
  | .empty => 0x4
  | .capacity => 0x5
  | .wlevel => 0x6
  | .syncw => 0x7
  | .syncr => 0x8
  | .parse _ => 0x9
  | .setmask _ => 0xA
  | .sample _ => 0xB
  | .takep => 0xC
  | .taker => 0xD
  | .bstep _ => 0xE
  | .tick => 0xF

/-- A raw_active level as the operand byte `{0b0000000, r}` (R63). -/
def levelImm (r : Bool) : Byte := if r then 1 else 0

/-- Field `imm` of the operation (R63). -/
def Instr.imm (i : Instr) : Byte :=
  match i with
  | .push v => v
  | .parse b => b
  | .setmask m => m
  | .sample r => levelImm r
  | .bstep r => levelImm r
  | _ => 0

/-- The encoder: the word of an instruction (R61, R77). -/
def encode (i : Instr) : Word := mkWord i.op i.imm

/-- The mnemonic of the operation (R62). -/
def Instr.mnemonic (i : Instr) : String :=
  match i with
  | .push _ => "PUSH"
  | .pop => "POP"
  | .size => "SIZE"
  | .empty => "EMPTY"
  | .capacity => "CAPACITY"
  | .wlevel => "WLEVEL"
  | .syncw => "SYNCW"
  | .syncr => "SYNCR"
  | .parse _ => "PARSE"
  | .setmask _ => "SETMASK"
  | .sample _ => "SAMPLE"
  | .takep => "TAKEP"
  | .taker => "TAKER"
  | .bstep _ => "BSTEP"
  | .tick => "TICK"

/-- One row of spec/opcode_table.json. -/
structure OpcodeRow where
  mnemonic : String
  value : Word
  mask : Word
deriving DecidableEq, Repr

/-- The opcode table, copied row by row from spec/opcode_table.json ("mnemonic", "match", "mask"); the decoder does not read
it, so that agreement of the two is a fact to prove. -/
def opcodeTable : List OpcodeRow :=
  [⟨"PUSH", 0x1000, 0xFF00⟩, ⟨"POP", 0x2000, 0xFFFF⟩, ⟨"SIZE", 0x3000, 0xFFFF⟩, ⟨"EMPTY", 0x4000, 0xFFFF⟩,
    ⟨"CAPACITY", 0x5000, 0xFFFF⟩, ⟨"WLEVEL", 0x6000, 0xFFFF⟩, ⟨"SYNCW", 0x7000, 0xFFFF⟩, ⟨"SYNCR", 0x8000, 0xFFFF⟩,
    ⟨"PARSE", 0x9000, 0xFF00⟩, ⟨"SETMASK", 0xA000, 0xFF00⟩, ⟨"SAMPLE", 0xB000, 0xFFFE⟩, ⟨"TAKEP", 0xC000, 0xFFFF⟩,
    ⟨"TAKER", 0xD000, 0xFFFF⟩, ⟨"BSTEP", 0xE000, 0xFFFE⟩, ⟨"TICK", 0xF000, 0xFFFF⟩]

/-- A word belongs to a row when its masked bits are the row's match value. -/
def OpcodeRow.covers (r : OpcodeRow) (w : Word) : Bool := w &&& r.mask == r.value

/-- The decoder on an instruction given as the opcode table numbers its bits: 16 bits, bit 0 the least significant (R13, R60).
Nothing longer than one word exists, so a value outside 16 bits is no instruction. -/
def decodeTableWord (nbits w : Nat) : Option Instr :=
  if nbits ≤ 16 ∧ w < 2 ^ 16 then (decodeWord (BitVec.ofNat 16 w)).toOption else none

end Sys2Proof
end

