-- ==== Sys2Proof/Machine/State.lean ====
section
/-! DEFINITION. The state of the block (10_state.md R18 to R41), the host steps it is driven by (00_scope.md R17), the reasons a
step can stop, and the state after reset (R39). All plain data. -/

namespace Sys2Proof.Machine

open Sys2Proof

/-- A completed MIDI message (30_encoding.md R72). -/
structure Message where
  len : BitVec 2
  b0 : Byte
  b1 : Byte
  b2 : Byte
  group : BitVec 4
deriving DecidableEq, Repr

/-- A transport event (R35): one `send(message)` or one `flush()`. -/
inductive TxEvent where
  | send (m : Message)
  | flush
deriving DecidableEq, Repr

/-- The sequencer's phase (R33), 2 bits; encoding 3 is unused. -/
inductive Phase where
  | wait
  | drain
  | sample
  | unused3
deriving DecidableEq, Repr

/-- The cycle-level sub-state of the sequencer (R40), 2 bits. -/
inductive Sub where
  | idle
  | send
  | flush
  | take
deriving DecidableEq, Repr

/-- The label of a PARSE step (41_parser.md R99); a spec-level observation no port carries. -/
inductive ParseOutcome where
  | accept
  | abortAccept
  | filter
  | abortFilter
  | discardIdle
  | partialData
  | message
deriving DecidableEq, Repr

/-- The sub-codes 3.1 to 3.4 of cause 3 (60_exceptions.md R136), in order. -/
inductive DiscardKind where
  | filter
  | abortFilter
  | abortAccept
  | discardIdle
deriving DecidableEq, Repr

/-- The causes 1 to 4 (60_exceptions.md R134 to R137), in order. -/
inductive Cause where
  | queueFull
  | queueEmpty
  | parseDiscard (k : DiscardKind)
  | transportFailure
deriving DecidableEq, Repr

/-- The value a transaction returns to its caller (R15, `result <- v`). -/
inductive Result where
  /-- No value: SETMASK, SYNCW, SYNCR, SAMPLE, TICK, a BSTEP that moves. -/
  | unit
  /-- A BSTEP that holds in WAIT (43_bridge.md R122). -/
  | held
  /-- PUSH, EMPTY, TAKEP, TAKER. -/
  | bool (b : Bool)
  /-- POP: None, or Some item of DATA_W bits. -/
  | item (o : Option Nat)
  /-- SIZE, CAPACITY. -/
  | count (n : Nat)
  /-- WLEVEL: the write-domain level and full. -/
  | level (wl : Nat) (full : Bool)
  /-- PARSE: None, or Some message. -/
  | message (o : Option Message)
deriving DecidableEq, Repr

/-- What the last transaction showed its caller and the model: the model's own observation (log 4), no register. -/
structure Obs where
  result : Result := .unit
  outcome : Option ParseOutcome := none
  cause : Option Cause := none
deriving DecidableEq, Repr

/-- The slot array as the slots written since reset with the DATA_W-bit item each holds, in rising order (R19, 20_memory.md R42,
R58; logs 8, 9). -/
abbrev Memory := List (Nat × Nat)

/-- The ghost counters of R24 with the items they count: W# is the length of `pushed`, R# the length of `popped` (log 10). -/
structure Ghost where
  pushed : List Nat
  popped : List Nat
  /-- RQW#. -/
  rqw : Nat
  /-- WQR#. -/
  wqr : Nat
deriving DecidableEq, Repr

/-- The FIFO's state (R19 to R25). Pointers and their Gray codes are CTR_W-bit values, kept below 2^CTR_W by every operation
(log 9). Stage k of a synchroniser chain is at index k - 1. -/
structure Fifo where
  mem : Memory
  wptr : Nat
  rptr : Nat
  rqWptr : Nat
  wqRptr : Nat
  wgray : Nat
  rgray : Nat
  w2r : List Nat
  r2w : List Nat
  ghost : Ghost
deriving DecidableEq, Repr

/-- The parser's state (R26 to R29). -/
structure Parser where
  mask : Byte
  buf0 : Byte
  buf1 : Byte
  buf2 : Byte
  len : BitVec 2
  rem : BitVec 2
deriving DecidableEq, Repr

/-- The debounce filter's state (R30 to R32); `dreg` is a W-bit value (log 9). -/
structure Debounce where
  dreg : Nat
  pressed : Bool
  released : Bool
deriving DecidableEq, Repr

/-- The bridge sequencer's state (R33, R34) and its cycle-level registers (R40). -/
structure Sequencer where
  phase : Phase
  tickPending : Bool
  sub : Sub
  /-- `out`, 26 bits: {len[1:0], b0[7:0], b1[7:0], b2[7:0]}. -/
  out : BitVec 26
  relPend : Bool
deriving DecidableEq, Repr

/-- The input ports of the write domain in one wclk cycle (30_encoding.md R80). -/
structure WriteIn where
  pushReq : Bool := false
  /-- DATA_W bits; `WriteIn.item` is what the port carries. -/
  pushData : Nat := 0
deriving DecidableEq, Repr

/-- The input ports of the read domain in one rclk cycle, TOP_CONFIG = UNIT (30_encoding.md R81). -/
structure UnitIn where
  popReq : Bool := false
  pbValid : Bool := false
  pbData : Byte := 0
  cfgWe : Bool := false
  cfgMask : Byte := 0
  dbSample : Bool := false
  rawActive : Bool := false
  takeP : Bool := false
  takeR : Bool := false
deriving DecidableEq, Repr

/-- The input ports of the read domain in one rclk cycle, TOP_CONFIG = INTEGRATED (30_encoding.md R79, R81, R82). -/
structure TopIn where
  cfgWe : Bool := false
  cfgMask : Byte := 0
  rawActive : Bool := false
  tick : Bool := false
  msgReady : Bool := false
  msgErr : Bool := false
  flushReady : Bool := false
  flushErr : Bool := false
deriving DecidableEq, Repr

/-- The input ports of one rclk cycle, of either top. -/
inductive ReadIn where
  | unit (u : UnitIn)
  | integrated (t : TopIn)
deriving DecidableEq, Repr

/-- One step of the outside world on the block (R6, R17, R36; log 2). -/
inductive HostStep where
  /-- A transaction, spelled as its word (R60). -/
  | word (w : Word)
  /-- The reset event (70_reset_and_hazards.md R148). -/
  | reset
  /-- A reset of one domain alone (R149). -/
  | resetOne (d : Domain)
  /-- The assertion of rst_n, held until released (R150). -/
  | resetAssert
  /-- The release of rst_n in one domain (R150). -/
  | resetRelease (d : Domain)
  /-- SYNCW in its range form, to the ghost count v (40_fifo.md R94). -/
  | crossW (v : Nat)
  /-- SYNCR in its range form, to the ghost count v (40_fifo.md R94). -/
  | crossR (v : Nat)
  /-- A rising edge of wclk alone, ASYNC (R84, R93). -/
  | wclk (i : WriteIn)
  /-- A rising edge of rclk alone, ASYNC (R86, R93, R128). -/
  | rclk (i : ReadIn)
  /-- Rising edges of both clocks in the same instant: the one clock when not ASYNC (R79). -/
  | clk (w : WriteIn) (r : ReadIn)
deriving DecidableEq, Repr

/-- The state of the machine: one group per unit (R18), the transport log (R35), the parameters and the trace (R36), the
port-level reset of each domain (R150), the host's tick source (R153) and the model's observation. -/
structure State where
  /-- The parameters, which no step changes (log 1). -/
  cfg : Config
  /-- The host steps still to come (log 2). -/
  trace : List HostStep
  /-- rst_n is still asserted in the write domain (R150, log 12). -/
  wHeld : Bool
  /-- rst_n is still asserted in the read domain (R150, log 12). -/
  rHeld : Bool
  /-- The host's tick source, no register: the coming rclk cycle is the k-th after its last tick, or the host has not begun to tick
  (R152, R153 (a), log 30). -/
  sinceTick : Option Nat
  fifo : Fifo
  parser : Parser
  debounce : Debounce
  seq : Sequencer
  txLog : List TxEvent
  obs : Obs
deriving DecidableEq, Repr

/-- Why the machine stops with a fault. Each is safe: it stops a run no rule of the spec allows. -/
inductive Fault where
  /-- Raised where POP, a draining BSTEP or an rclk edge would read a slot no push has written since reset (20_memory.md R58);
  unreachable; safe. -/
  | unwrittenSlot
  /-- Raised by BSTEP or an rclk edge at `phase` encoding 3 (93_implementation_defined.md, R33); unreachable; safe. -/
  | phaseUnused
  /-- Raised by an rclk edge in a (phase, sub) pair that the table of 43_bridge.md R128 has no row for; unreachable; safe
  (log 15). -/
  | noSequencerRow
  /-- Raised by a data byte whose index `len - rem` is 3, where no buffer register stands (R27); unreachable; safe (log 14). -/
  | noBufferRegister
deriving DecidableEq, Repr

/-- Why the model gives a step no meaning. Each is safe: a run that carries one satisfies no claim (60_exceptions.md R138). -/
inductive Refusal where
  /-- An instruction whose arm of `exec` has no meaning yet; raised by `exec`; safe. -/
  | notModelled (mnemonic : String)
  /-- An illegal word, or PUSH with DATA_W other than 8 (30_encoding.md R64); raised by the trace step and by PUSH; safe. -/
  | illegalWord
  /-- A word or an edge the configuration has no port for (43_bridge.md R132, 30_encoding.md R79); safe. -/
  | notInConfig
  /-- A parameter set outside 00_scope.md R7 to R11 (R12); raised by `step`; safe. -/
  | badConfig
  /-- A reset of one domain alone (70_reset_and_hazards.md R149); safe. -/
  | partialReset
  /-- A BSTEP word while the cycle-level sequencer is inside a handshake or a take (log 7); safe. -/
  | midHandshake
  /-- A range-form crossing to a count outside the range of 40_fifo.md R94 (log 17); safe. -/
  | crossingOutOfRange
  /-- An rclk edge of the integrated top whose `tick` breaks the host's duty (70_reset_and_hazards.md R153 (a); log 30); safe. -/
  | hostDuty
deriving DecidableEq, Repr

/-- The reset values of the FIFO (R39): nothing written, every pointer, copy and Gray register 0. -/
def Fifo.atReset (c : Config) : Fifo where
  mem := []
  wptr := 0
  rptr := 0
  rqWptr := 0
  wqRptr := 0
  wgray := 0
  rgray := 0
  w2r := List.replicate c.syncStages 0
  r2w := List.replicate c.syncStages 0
  ghost := ⟨[], [], 0, 0⟩

/-- The reset values of the parser (R39). -/
def Parser.atReset : Parser where
  mask := 0
  buf0 := 0
  buf1 := 0
  buf2 := 0
  len := 0
  rem := 0

/-- The reset values of the debounce filter (R39): every significant sample released. -/
def Debounce.atReset (c : Config) : Debounce where
  dreg := c.dcValue
  pressed := false
  released := false

/-- The reset values of the sequencer (R39). -/
def Sequencer.atReset : Sequencer where
  phase := .wait
  tickPending := false
  sub := .idle
  out := 0
  relPend := false

/-- Every state element at its value of R39, under a configuration and with a trace still to come. -/
def State.atReset (c : Config) (trace : List HostStep) : State where
  cfg := c
  trace := trace
  wHeld := false
  rHeld := false
  sinceTick := none
  fifo := Fifo.atReset c
  parser := Parser.atReset
  debounce := Debounce.atReset c
  seq := Sequencer.atReset
  txLog := []
  obs := ⟨.unit, none, none⟩

/-- The machine right after reset, with the parameters of R7 to R11 and no trace loaded. -/
def State.reset : State := State.atReset Config.standard []

end Sys2Proof.Machine
end

