-- ==== Sys2Proof/Machine/Ops.lean ====
section
/-! DEFINITION. The named operations over state: group updates, the slot array (20_memory.md R42 to R46), pointer arithmetic
(00_scope.md R14), Gray code (R16), the transport log (R35, 43_bridge.md R125), admission (R132) and the reporting of a result.
The block has no exception entry and no return (60_exceptions.md R133, R141): `State.report` is the one operation by which a
transaction shows its result and its cause (R134 to R136). -/

namespace Sys2Proof.Machine

open Sys2Proof

/-- What a transaction answers. -/
abbrev StepResult := Host.Outcome State Fault Refusal

def State.withFifo (s : State) (f : Fifo) : State := { s with fifo := f }

def State.withParser (s : State) (p : Parser) : State := { s with parser := p }

def State.withDebounce (s : State) (d : Debounce) : State := { s with debounce := d }

def State.withSeq (s : State) (q : Sequencer) : State := { s with seq := q }

def State.withTrace (s : State) (t : List HostStep) : State := { s with trace := t }

def State.withHeld (s : State) (w r : Bool) : State := { s with wHeld := w, rHeld := r }

def State.withSinceTick (s : State) (k : Option Nat) : State := { s with sinceTick := k }

/-- The result, the parser outcome and the cause of one transaction (R15, R99, R134 to R136). A single transaction reports at
most one cause (R140 (d)). -/
def State.report (s : State) (r : Result) (o : Option ParseOutcome := none) (k : Option Cause := none) : State :=
  { s with obs := ⟨r, o, k⟩ }

/-- Appends an event to the transport log (R35). -/
def State.logTx (s : State) (e : TxEvent) : State := { s with txLog := s.txLog ++ [e] }

/-- An operation of a unit that may meet a fault, as the answer of a step. -/
def orFault {α : Type} (x : Except Fault α) (k : α → StepResult) : StepResult :=
  match x with
  | .ok a => k a
  | .error r => .fault r

/-- R132: the meaning of a word that only TOP_CONFIG = UNIT has a port for. -/
def unitOnly (s : State) (k : StepResult) : StepResult :=
  match s.cfg.top with
  | .unit => k
  | .integrated => .refused .notInConfig

/-- R132: the meaning of a word that only TOP_CONFIG = INTEGRATED has a port for. -/
def integratedOnly (s : State) (k : StepResult) : StepResult :=
  match s.cfg.top with
  | .unit => .refused .notInConfig
  | .integrated => k

/-- `MemRead(i, 1)` (R15, R46): the slot's value, or none where no push has written it since reset (R58). -/
def Memory.read (m : Memory) (i : Nat) : Option Nat :=
  match m with
  | [] => none
  | (a, v) :: rest => if a = i then some v else Memory.read rest i

/-- `MemWrite(i, 1, v)` (R15, R46): one whole slot, kept in rising order. -/
def Memory.write (m : Memory) (i : Nat) (v : Nat) : Memory :=
  match m with
  | [] => [(i, v)]
  | (a, u) :: rest =>
    if i < a then (i, v) :: (a, u) :: rest
    else if i = a then (i, v) :: rest
    else (a, u) :: Memory.write rest i v

/-- The canonical form: slot indexes strictly rising. An unlisted slot has no value, so no entry can equal it. -/
def Memory.wf (m : Memory) : Bool :=
  match m with
  | [] => true
  | [_] => true
  | (a, _) :: (b, v) :: rest => decide (a < b) && Memory.wf ((b, v) :: rest)

/-- Every listed slot is one of the N slots (R42). -/
def Memory.inRange (n : Nat) (m : Memory) : Bool := m.all fun c => decide (c.1 < n)

/-- Every listed slot holds a value of DATA_W bits (R19, R46). -/
def Memory.inWidth (dataW : Nat) (m : Memory) : Bool := m.all fun c => decide (c.2 < 2 ^ dataW)

/-- idx(p) = p mod N (20_memory.md R43). -/
def slotIdx (c : Config) (p : Nat) : Nat := p % c.n

/-- p + d mod 2^CTR_W (R14). -/
def ptrAdd (c : Config) (p d : Nat) : Nat := (p + d) % c.ptrMod

/-- p - q mod 2^CTR_W (R14, unsigned wraparound). -/
def ptrSub (c : Config) (p q : Nat) : Nat := (p + (c.ptrMod - q % c.ptrMod)) % c.ptrMod

/-- bin2gray(b) = b ^ (b >> 1) (R16). -/
def bin2gray (b : Nat) : Nat := b ^^^ (b >>> 1)

/-- gray2bin(g) = g ^ (g >> 1) ^ ... ^ (g >> (width - 1)) (R16). -/
def gray2bin (width g : Nat) : Nat :=
  match width with
  | 0 => 0
  | k + 1 => (g >>> k) ^^^ gray2bin k g

/-- W# (R24): the number of successful pushes since reset. -/
def Ghost.w (g : Ghost) : Nat := g.pushed.length

/-- R# (R24): the number of successful pops since reset. -/
def Ghost.r (g : Ghost) : Nat := g.popped.length

end Sys2Proof.Machine
end

