-- ==== Sys2Proof/Machine/Operands.lean ====
section
/-! DEFINITION. The operand forms: the items of DATA_W bits (00_scope.md R7, 30_encoding.md R80), the MIDI byte classes, categories
and lengths (R65 to R71), the message format and its 26-bit register form (R72, R73, 10_state.md R40), and the synthesised button
messages (R74). -/

namespace Sys2Proof.Machine

open Sys2Proof

/-- The item `push_data` offers: DATA_W bits of it are wired (R80). -/
def WriteIn.item (c : Config) (i : WriteIn) : Nat := i.pushData % 2 ^ c.dataW

/-- The byte the sequencer feeds the parser from a popped item, `pb_data = pop_data` (43_bridge.md R123, R128): the byte of the
same value where there is one, which is always so for DATA_W up to 8, and a free value for a wider item (log 28). -/
def itemByte (c : Config) (v : Nat) : Byte :=
  if v < 256 then BitVec.ofNat 8 v else Config.openWideItemByte c.dataW v

/-- R65: a status byte has its high bit set. -/
def isStatus (b : Byte) : Bool := b.getLsbD 7

/-- R66: category(b) = b[6:4]. -/
def category (b : Byte) : BitVec 3 := b.extractLsb' 4 3

/-- R66: channel(b) = b[3:0]; carried through in `b0`, decoded no further (R68). -/
def channel (b : Byte) : BitVec 4 := b.extractLsb' 0 4

/-- The length a SYS_LEN value gives, none for REJECT (R69). -/
def sysLenLength (l : SysLen) : Option (BitVec 2) :=
  match l with
  | .reject => none
  | .two => some 2
  | .three => some 3

/-- SYS_LEN(b) for a system status byte, at index b[3:0] (R9, R69). -/
def sysLenOf (c : Config) (b : Byte) : SysLen := c.sysLen[(channel b).toFin]

/-- The length column of R67, with category 7 left to SYS_LEN (R69, R70); none is REJECT. -/
def msgLen (c : Config) (b : Byte) : Option (BitVec 2) :=
  match (category b).toNat with
  | 4 => some 2
  | 5 => some 2
  | 7 => sysLenLength (sysLenOf c b)
  | _ => some 3

/-- R71: mask[c] = 1 accepts status bytes of category c. -/
def accepts (mask : Byte) (b : Byte) : Bool := mask.getLsbD (category b).toNat

/-- The length of an accepted status byte: its category bit is set in the mask and its length is not REJECT (41_parser.md
R100); none for a filtered one (R101). -/
def acceptedLen (c : Config) (mask b : Byte) : Option (BitVec 2) :=
  if accepts mask b then msgLen c b else none

/-- The register `out`: {len[1:0], b0[7:0], b1[7:0], b2[7:0]} (R40). The group is always 0 and is not held (R73). -/
def Message.pack (m : Message) : BitVec 26 := ((m.len ++ m.b0) ++ m.b1) ++ m.b2

/-- The message the register `out` offers to the transport, group 0 (R40, R73, R82). -/
def Message.unpack (o : BitVec 26) : Message where
  len := o.extractLsb' 24 2
  b0 := o.extractLsb' 16 8
  b1 := o.extractLsb' 8 8
  b2 := o.extractLsb' 0 8
  group := 0

/-- NOTE_ON_MSG = [0x90 | NOTE_CHANNEL, NOTE_PITCH, NOTE_VELOCITY], len 3, group 0 (R74). -/
def noteOnMsg (c : Config) : Message where
  len := 3
  b0 := 0x90 ||| c.noteChannel.setWidth 8
  b1 := c.notePitch.setWidth 8
  b2 := c.noteVelocity.setWidth 8
  group := 0

/-- NOTE_OFF_MSG = [0x80 | NOTE_CHANNEL, NOTE_PITCH, NOTE_VELOCITY], len 3, group 0 (R74). -/
def noteOffMsg (c : Config) : Message where
  len := 3
  b0 := 0x80 ||| c.noteChannel.setWidth 8
  b1 := c.notePitch.setWidth 8
  b2 := c.noteVelocity.setWidth 8
  group := 0

end Sys2Proof.Machine
end

