-- ==== Sys2Proof/Machine/Flags.lean ====
section
/-! DEFINITION. The status values, which are derived and not stored (10_state.md R38), the pattern matches of the debounce filter
(42_debounce.md R113), the cause a parser outcome reports (60_exceptions.md R136) and the encodings of the small registers. -/

namespace Sys2Proof.Machine

open Sys2Proof

/-- rempty = (rptr = rq_wptr) (R38): the read domain's own view. -/
def rempty (f : Fifo) : Bool := f.rptr == f.rqWptr

/-- rlevel = rq_wptr - rptr mod 2^CTR_W (R38). -/
def rlevel (c : Config) (f : Fifo) : Nat := ptrSub c f.rqWptr f.rptr

/-- wlevel = wptr - wq_rptr mod 2^CTR_W (R38): the write domain's own view. -/
def wlevel (c : Config) (f : Fifo) : Nat := ptrSub c f.wptr f.wqRptr

/-- wfull = (wlevel = N - 1) (R38). -/
def wfull (c : Config) (f : Fifo) : Bool := wlevel c f == c.n - 1

/-- capacity = N, the number of slots (R38, R89). -/
def capacityOf (c : Config) : Nat := c.n

/-- The whole register equals PRESS_PATTERN (R113). -/
def pressMatch (c : Config) (dreg : Nat) : Bool := dreg == c.pressPattern

/-- The whole register equals RELEASE_PATTERN (R113). -/
def releaseMatch (c : Config) (dreg : Nat) : Bool := dreg == c.releasePattern

/-- The cause a PARSE outcome reports (R136); ACCEPT, PARTIAL and MESSAGE report none. -/
def outcomeCause (o : ParseOutcome) : Option Cause :=
  match o with
  | .accept => none
  | .abortAccept => some (.parseDiscard .abortAccept)
  | .filter => some (.parseDiscard .filter)
  | .abortFilter => some (.parseDiscard .abortFilter)
  | .discardIdle => some (.parseDiscard .discardIdle)
  | .partialData => none
  | .message => none

/-- The cause code of R134 to R137. -/
def Cause.code (k : Cause) : Nat :=
  match k with
  | .queueFull => 1
  | .queueEmpty => 2
  | .parseDiscard _ => 3
  | .transportFailure => 4

/-- The sub-code of cause 3 (R136). -/
def DiscardKind.subCode (k : DiscardKind) : Nat :=
  match k with
  | .filter => 1
  | .abortFilter => 2
  | .abortAccept => 3
  | .discardIdle => 4

/-- The 2-bit encoding of `phase` (R33). -/
def Phase.encoding (p : Phase) : BitVec 2 :=
  match p with
  | .wait => 0
  | .drain => 1
  | .sample => 2
  | .unused3 => 3

/-- The 2-bit encoding of `sub` (R40). -/
def Sub.encoding (u : Sub) : BitVec 2 :=
  match u with
  | .idle => 0
  | .send => 1
  | .flush => 2
  | .take => 3

end Sys2Proof.Machine
end

