-- ==== Sys2Proof/Machine/Debounce.lean ====
section
/-! DEFINITION. The debounce family (42_debounce.md): SAMPLE, TAKEP and TAKER, over the debounce unit, which the bridge and the
clock edges share. -/

namespace Sys2Proof.Machine

open Sys2Proof

/-- R112: the register after one sample: the newest sample into bit 0, bits from K up forced to DC_VALUE. -/
def shiftSample (c : Config) (r : Bool) (dreg : Nat) : Nat :=
  (((dreg <<< 1) ||| r.toNat) &&& c.keep) ||| c.dcValue

/-- R112: one sample; a match sets its flag, and no sample clears one. -/
def Debounce.sample (c : Config) (r : Bool) (d : Debounce) : Debounce where
  dreg := shiftSample c r d.dreg
  pressed := d.pressed || pressMatch c (shiftSample c r d.dreg)
  released := d.released || releaseMatch c (shiftSample c r d.dreg)

/-- R114: `pressed` is cleared. -/
def Debounce.takePressed (d : Debounce) : Debounce := { d with pressed := false }

/-- R115: `released` is cleared. -/
def Debounce.takeReleased (d : Debounce) : Debounce := { d with released := false }

/-- SAMPLE (R112). -/
def execSample (r : Bool) (s : State) : StepResult :=
  unitOnly s <| .next ((s.withDebounce (s.debounce.sample s.cfg r)).report .unit)

/-- TAKEP (R114): the flag before it was cleared. -/
def execTakep (s : State) : StepResult :=
  unitOnly s <| .next ((s.withDebounce s.debounce.takePressed).report (.bool s.debounce.pressed))

/-- TAKER (R115): the flag before it was cleared. -/
def execTaker (s : State) : StepResult :=
  unitOnly s <| .next ((s.withDebounce s.debounce.takeReleased).report (.bool s.debounce.released))

end Sys2Proof.Machine
end

