-- ==== Sys2Proof/Machine/Fifo.lean ====
section
/-! DEFINITION. The FIFO family (40_fifo.md): PUSH, POP, SIZE, EMPTY, CAPACITY, WLEVEL, SYNCW, SYNCR, over the operations of the
FIFO unit, which the clock edges of Machine/Cycle.lean and the bridge share. -/

namespace Sys2Proof.Machine

open Sys2Proof

/-- R91: the read domain's copy takes the pointer's value, and every stage of the chain its Gray code (log 6). -/
def Fifo.crossW (c : Config) (f : Fifo) : Fifo :=
  { f with
    rqWptr := f.wptr
    w2r := List.replicate c.syncStages (bin2gray f.wptr)
    ghost := { f.ghost with rqw := f.ghost.w } }

/-- R92: the write domain's copy takes the pointer's value, and every stage of the chain its Gray code (log 6). -/
def Fifo.crossR (c : Config) (f : Fifo) : Fifo :=
  { f with
    wqRptr := f.rptr
    r2w := List.replicate c.syncStages (bin2gray f.rptr)
    ghost := { f.ghost with wqr := f.ghost.r } }

/-- R98: in the exact configuration a PUSH performs SYNCW in the same step. -/
def Fifo.foldW (c : Config) (f : Fifo) : Fifo := if c.exact then f.crossW c else f

/-- R98: in the exact configuration a POP performs SYNCR in the same step. -/
def Fifo.foldR (c : Config) (f : Fifo) : Fifo := if c.exact then f.crossR c else f

/-- The write of R83 and R84: the slot, the write cursor and its Gray register in one step. -/
def Fifo.store (c : Config) (v : Nat) (f : Fifo) : Fifo :=
  { f with
    mem := Memory.write f.mem (slotIdx c f.wptr) v
    wptr := ptrAdd c f.wptr 1
    wgray := bin2gray (ptrAdd c f.wptr 1)
    ghost := { f.ghost with pushed := f.ghost.pushed ++ [v] } }

/-- A push that the write domain sees as meeting a full buffer or not (R83, R134): a full buffer drops the item. -/
def Fifo.pushIf (c : Config) (full : Bool) (v : Nat) (f : Fifo) : Fifo :=
  if full then f else (f.store c v).foldW c

/-- The read cursor's advance of R85 and R86, with the value it read. -/
def Fifo.take (c : Config) (v : Nat) (f : Fifo) : Fifo :=
  { f with
    rptr := ptrAdd c f.rptr 1
    rgray := bin2gray (ptrAdd c f.rptr 1)
    ghost := { f.ghost with popped := f.ghost.popped ++ [v] } }

/-- R85: `pop`. None leaves the state unchanged; a slot no push has written faults (R58). -/
def Fifo.pop (c : Config) (f : Fifo) : Except Fault (Fifo × Option Nat) :=
  if rempty f then .ok (f, none)
  else
    match Memory.read f.mem (slotIdx c f.rptr) with
    | none => .error .unwrittenSlot
    | some v => .ok ((f.take c v).foldR c, some v)

/-- R94: SYNCW in its range form: RQW# <- v and rq_wptr <- v mod 2^CTR_W. -/
def Fifo.crossWTo (c : Config) (v : Nat) (f : Fifo) : Fifo :=
  { f with
    rqWptr := v % c.ptrMod
    w2r := List.replicate c.syncStages (bin2gray (v % c.ptrMod))
    ghost := { f.ghost with rqw := v } }

/-- R94: SYNCR in its range form: WQR# <- v and wq_rptr <- v mod 2^CTR_W. -/
def Fifo.crossRTo (c : Config) (v : Nat) (f : Fifo) : Fifo :=
  { f with
    wqRptr := v % c.ptrMod
    r2w := List.replicate c.syncStages (bin2gray (v % c.ptrMod))
    ghost := { f.ghost with wqr := v } }

/-- R93: on an rclk edge the chain `w2r` shifts in the Gray value sampled from the write domain, and the copy shows the last
stage; RQW# advances by as much as the copy does (log 11). With SYNC_STAGES = 0 there is no chain (R25). -/
def Fifo.shiftW (c : Config) (sampled : Nat) (f : Fifo) : Fifo :=
  if c.syncStages = 0 then f
  else
    let chain := (sampled :: f.w2r).take c.syncStages
    let copy := gray2bin c.ctrW (chain.getLastD 0)
    { f with
      w2r := chain
      rqWptr := copy
      ghost := { f.ghost with rqw := f.ghost.rqw + ptrSub c copy f.rqWptr } }

/-- R93: on a wclk edge the chain `r2w` shifts in the Gray value sampled from the read domain; as `Fifo.shiftW`. -/
def Fifo.shiftR (c : Config) (sampled : Nat) (f : Fifo) : Fifo :=
  if c.syncStages = 0 then f
  else
    let chain := (sampled :: f.r2w).take c.syncStages
    let copy := gray2bin c.ctrW (chain.getLastD 0)
    { f with
      r2w := chain
      wqRptr := copy
      ghost := { f.ghost with wqr := f.ghost.wqr + ptrSub c copy f.wqRptr } }

/-- `push(item)` of a DATA_W-bit item (R83): false and the state unchanged when the write domain sees the buffer full (cause 1,
R134), true and the item stored otherwise. -/
def pushItem (v : Nat) (s : State) : StepResult :=
  let full := wfull s.cfg s.fifo
  .next ((s.withFifo (s.fifo.pushIf s.cfg full v)).report (.bool !full) none (if full then some .queueFull else none))

/-- PUSH (R83) as a word: the item is zext_DATA_W(imm), and the word exists for DATA_W = 8 only (30_encoding.md R63, R64 (e)). -/
def execPush (v : Byte) (s : State) : StepResult :=
  if s.cfg.dataW = 8 then pushItem v.toNat s else .refused .illegalWord

/-- POP (R85): None when the read domain sees the buffer empty (cause 2, R135), the oldest unread item otherwise. -/
def execPop (s : State) : StepResult :=
  unitOnly s <| orFault (s.fifo.pop s.cfg) fun r =>
    .next ((s.withFifo r.1).report (.item r.2) none (if r.2.isNone then some .queueEmpty else none))

/-- SIZE (R87): the read domain's level. -/
def execSize (s : State) : StepResult := unitOnly s <| .next (s.report (.count (rlevel s.cfg s.fifo)))

/-- EMPTY (R88): whether the read domain sees the buffer empty. -/
def execEmpty (s : State) : StepResult := unitOnly s <| .next (s.report (.bool (rempty s.fifo)))

/-- CAPACITY (R89): the number of slots. -/
def execCapacity (s : State) : StepResult := unitOnly s <| .next (s.report (.count (capacityOf s.cfg)))

/-- WLEVEL (R90): the write domain's level and full. -/
def execWlevel (s : State) : StepResult :=
  .next (s.report (.level (wlevel s.cfg s.fifo) (wfull s.cfg s.fifo)))

/-- SYNCW (R91): the write pointer crosses; a no-op in the exact configuration (R98), where the copy is the pointer. -/
def execSyncw (s : State) : StepResult :=
  .next ((s.withFifo (if s.cfg.exact then s.fifo else s.fifo.crossW s.cfg)).report .unit)

/-- SYNCR (R92): the read pointer crosses; a no-op in the exact configuration (R98), where the copy is the pointer. -/
def execSyncr (s : State) : StepResult :=
  .next ((s.withFifo (if s.cfg.exact then s.fifo else s.fifo.crossR s.cfg)).report .unit)

end Sys2Proof.Machine
end

