-- ==== Sys2Proof/Machine/Parser.lean ====
section
/-! DEFINITION. The parser family (41_parser.md): PARSE and SETMASK, over the parser unit, which the bridge and the clock edges
share. -/

namespace Sys2Proof.Machine

open Sys2Proof

/-- What one parse of the unit gives: the parser after it, the message if one completed, and the label of R99. -/
structure Parsed where
  parser : Parser
  message : Option Message
  outcome : ParseOutcome
deriving DecidableEq, Repr

/-- R99, status byte: accepted (R100) or filtered (R101); a message in flight is abandoned (R105). -/
def Parser.status (c : Config) (b : Byte) (p : Parser) : Parsed :=
  match acceptedLen c p.mask b with
  | some l => ⟨{ p with buf0 := b, len := l, rem := l - 1 }, none, if p.rem = 0 then .accept else .abortAccept⟩
  | none => ⟨{ p with rem := 0 }, none, if p.rem = 0 then .filter else .abortFilter⟩

/-- `buf[i] <- b` (R102): index 0, 1 or 2; there is no fourth register (R27). -/
def Parser.store (i : BitVec 2) (b : Byte) (p : Parser) : Except Fault Parser :=
  match i.toNat with
  | 0 => .ok { p with buf0 := b }
  | 1 => .ok { p with buf1 := b }
  | 2 => .ok { p with buf2 := b }
  | _ => .error .noBufferRegister

/-- The completed message of R103: b2 is 0x00 unless len = 3, and the group is 0 (30_encoding.md R72, R73). -/
def Parser.completed (p : Parser) : Message where
  len := p.len
  b0 := p.buf0
  b1 := p.buf1
  b2 := if p.len = 3 then p.buf2 else 0
  group := 0

/-- R102, R103: a data byte while collecting is stored and counted, and the last one completes the message. -/
def Parser.collect (b : Byte) (p : Parser) : Except Fault Parsed :=
  match p.store (p.len - p.rem) b with
  | .error r => .error r
  | .ok q =>
    let q := { q with rem := p.rem - 1 }
    if q.rem = 0 then .ok ⟨q, some q.completed, .message⟩ else .ok ⟨q, none, .partialData⟩

/-- R99: one byte through the parser. -/
def Parser.parse (c : Config) (b : Byte) (p : Parser) : Except Fault Parsed :=
  if isStatus b then .ok (p.status c b)
  else if p.rem = 0 then .ok ⟨p, none, .discardIdle⟩
  else p.collect b

/-- PARSE (R99): None, or Some message with its last byte; a discard reports cause 3 (60_exceptions.md R136). -/
def execParse (b : Byte) (s : State) : StepResult :=
  unitOnly s <| orFault (s.parser.parse s.cfg b) fun r =>
    .next ((s.withParser r.parser).report (.message r.message) (some r.outcome) (outcomeCause r.outcome))

/-- SETMASK (R108): the mask alone changes; the accumulator is untouched (R109). -/
def execSetmask (m : Byte) (s : State) : StepResult :=
  .next ((s.withParser { s.parser with mask := m }).report .unit)

end Sys2Proof.Machine
end

