-- ==== Sys2Proof/Machine/Bridge.lean ====
section
/-! DEFINITION. The bridge family (43_bridge.md): TICK and BSTEP. -/

namespace Sys2Proof.Machine

open Sys2Proof

/-- R121: ticks that arrive while one is pending merge into it. -/
def Sequencer.setTick (q : Sequencer) : Sequencer := { q with tickPending := true }

/-- `phase <- p` (R15, R33). -/
def State.toPhase (s : State) (p : Phase) : State := s.withSeq { s.seq with phase := p }

/-- R125: one message sent and flushed. The register `out` is left with the message it handed over, as the FSM of R128 leaves
it (log 6). -/
def State.emit (s : State) (m : Message) : State :=
  ((s.withSeq { s.seq with out := m.pack }).logTx (.send m)).logTx .flush

/-- `emit` where there is a message. -/
def State.emitIf (s : State) (b : Bool) (m : Message) : State := if b then s.emit m else s

/-- R122: in WAIT, a pending tick starts an iteration; without one the sequencer holds. -/
def bstepWait (s : State) : StepResult :=
  if s.seq.tickPending then .next ((s.withSeq { s.seq with tickPending := false, phase := .drain }).report .unit)
  else .next (s.report .held)

/-- The parse of R123: a completed message is sent and flushed. -/
def bstepParsed (s : State) (r : Parsed) : StepResult :=
  let t := (s.withParser r.parser).report .unit (some r.outcome) (outcomeCause r.outcome)
  match r.message with
  | none => .next t
  | some m => .next (t.emit m)

/-- R123: in DRAIN, one item goes from the FIFO through the parser; an empty FIFO ends the drain (cause 2, R135). -/
def bstepDrain (s : State) : StepResult :=
  orFault (s.fifo.pop s.cfg) fun r =>
    match r.2 with
    | none => .next ((s.toPhase .sample).report .unit none (some .queueEmpty))
    | some v => orFault (s.parser.parse s.cfg (itemByte s.cfg v)) fun q => bstepParsed (s.withFifo r.1) q

/-- R124: in SAMPLE, one sample, then the press and the release event taken and sent, in that order. -/
def bstepSample (r : Bool) (s : State) : StepResult :=
  let d := s.debounce.sample s.cfg r
  let t := s.withDebounce d.takePressed.takeReleased
  let t := t.emitIf d.pressed (noteOnMsg s.cfg)
  let t := t.emitIf d.released (noteOffMsg s.cfg)
  .next ((t.toPhase .wait).report .unit)

/-- BSTEP (R122 to R124), by phase; the level is read in phase SAMPLE only (30_encoding.md R63). A transaction word has no
meaning while the cycle-level sequencer is inside a handshake or a take (log 7). -/
def execBstep (r : Bool) (s : State) : StepResult :=
  integratedOnly s <|
    match s.seq.sub with
    | .idle =>
      match s.seq.phase with
      | .wait => bstepWait s
      | .drain => bstepDrain s
      | .sample => bstepSample r s
      | .unused3 => .fault .phaseUnused
    | _ => .refused .midHandshake

/-- TICK (R121). -/
def execTick (s : State) : StepResult :=
  integratedOnly s <| .next ((s.withSeq s.seq.setTick).report .unit)

end Sys2Proof.Machine
end

