-- ==== Sys2Proof/Machine/Reset.lean ====
section
/-! DEFINITION. The reset event and the port-level reset (70_reset_and_hazards.md R148 to R150), and the boot order of R152. -/

namespace Sys2Proof.Machine

open Sys2Proof

/-- R148: every state element takes its value of 10_state.md R39, in both domains at once. The parameters and the host steps
still to come are no state elements (R18) and stay. -/
def resetEvent (s : State) : State := State.atReset s.cfg s.trace

/-- R150: rst_n asserted: the reset event, with both domains held until released. -/
def resetAssert (s : State) : State := (resetEvent s).withHeld true true

/-- R150: rst_n released in one domain. -/
def resetRelease (d : Domain) (s : State) : State :=
  match d with
  | .write => s.withHeld false s.rHeld
  | .read => s.withHeld s.wHeld false

/-- Whether rst_n is asserted in a domain (R150). -/
def State.held (s : State) (d : Domain) : Bool :=
  match d with
  | .write => s.wHeld
  | .read => s.rHeld

/-- R152: the boot order (1) reset event, (2) SETMASK FILTER_CFG. -/
def bootTrace (c : Config) : List HostStep := [.reset, .word (encode (.setmask c.filterCfg))]

end Sys2Proof.Machine
end

