-- ==== Sys2Proof/Machine/Ports.lean ====
section
/-! DEFINITION. The output ports of one clock cycle (30_encoding.md R80 to R82) as functions of the state before the edge and the
inputs of the cycle, and the unit ports the bridge sequencer drives (43_bridge.md R128). A data output has a value only while its
valid output is 1 (R81, R82; log 13). -/

namespace Sys2Proof.Machine

open Sys2Proof

/-- The write-domain outputs (R80). -/
structure WriteOut where
  pushOk : Bool
  wfull : Bool
  wlevel : Nat
deriving DecidableEq, Repr

/-- The read-domain unit outputs (R81). -/
structure UnitOut where
  popValid : Bool
  popData : Option Nat
  rempty : Bool
  rlevel : Nat
  capacity : Nat
  pmValid : Bool
  pm : Option Message
  maskQ : Byte
  pressedQ : Bool
  releasedQ : Bool
deriving DecidableEq, Repr

/-- The bridge and transport outputs of the integrated top (R82) and the mask port that stays external (R79). -/
structure TopOut where
  maskQ : Byte
  msgValid : Bool
  msg : Option Message
  flushValid : Bool
  hkSlot : Bool
deriving DecidableEq, Repr

/-- R80: push_ok = push_req & ~wfull, 0 while the domain is held in reset (R150). -/
def writeOut (i : WriteIn) (s : State) : WriteOut where
  pushOk := !s.wHeld && (i.pushReq && !wfull s.cfg s.fifo)
  wfull := wfull s.cfg s.fifo
  wlevel := wlevel s.cfg s.fifo

/-- R110: the message this cycle's PARSE completes. -/
def cycleMessage (u : UnitIn) (s : State) : Option Message :=
  if u.pbValid then
    match s.parser.parse s.cfg u.pbData with
    | .ok r => r.message
    | .error _ => none
  else none

/-- R81, with the valid outputs 0 while the domain is held in reset (R150). -/
def unitOut (u : UnitIn) (s : State) : UnitOut :=
  let valid := !s.rHeld && !rempty s.fifo
  let pm := if s.rHeld then none else cycleMessage u s
  { popValid := valid
    popData := if valid then Memory.read s.fifo.mem (slotIdx s.cfg s.fifo.rptr) else none
    rempty := rempty s.fifo
    rlevel := rlevel s.cfg s.fifo
    capacity := capacityOf s.cfg
    pmValid := pm.isSome
    pm := pm
    maskQ := s.parser.mask
    pressedQ := s.debounce.pressed
    releasedQ := s.debounce.released }

/-- R82, R128, R130, with the valid outputs and the housekeeping slot 0 while the domain is held in reset (R150). -/
def topOut (s : State) : TopOut :=
  let valid := !s.rHeld && s.seq.sub == .send
  { maskQ := s.parser.mask
    msgValid := valid
    msg := if valid then some (Message.unpack s.seq.out) else none
    flushValid := !s.rHeld && s.seq.sub == .flush
    hkSlot := !s.rHeld && s.seq.phase == .wait }

/-- The inputs of the unit ports that the sequencer drives this cycle (the outputs column of R128), with `raw_active`, `cfg_we`
and `cfg_mask` from outside (R79). Outputs not listed are 0. -/
def seqDrive (i : TopIn) (s : State) : UnitIn :=
  let base : UnitIn := { cfgWe := i.cfgWe, cfgMask := i.cfgMask, rawActive := i.rawActive }
  match s.seq.phase, s.seq.sub with
  | .drain, .idle =>
    if rempty s.fifo then base
    else
      { base with
        popReq := true
        pbValid := true
        pbData := itemByte s.cfg ((Memory.read s.fifo.mem (slotIdx s.cfg s.fifo.rptr)).getD 0) }
  | .sample, .idle => { base with dbSample := true }
  | .sample, .take => { base with takeP := true, takeR := true }
  | _, _ => base

/-- R137: cause 4 on the handshake cycle of a send or a flush whose result is an error; nothing records it (R126). -/
def edgeCauses (i : TopIn) (s : State) : List Cause :=
  let o := topOut s
  (if o.msgValid && i.msgReady && i.msgErr then [Cause.transportFailure] else [])
    ++ (if o.flushValid && i.flushReady && i.flushErr then [Cause.transportFailure] else [])

end Sys2Proof.Machine
end

