-- ==== Sys2Proof/Machine/Cycle.lean ====
section
/-! DEFINITION. The cycle-level mapping: the clock edges of the write and the read domain (40_fifo.md R84, R86, R93; 41_parser.md
R110, R111; 42_debounce.md R116, R118) and the bridge sequencer's FSM (43_bridge.md R128, R129), over the unit operations the
transactions use. -/

namespace Sys2Proof.Machine

open Sys2Proof

/-- The FIFO's part of a read-domain edge (R86): at most one POP. -/
def popEdge (u : UnitIn) (s : State) : Except Fault Fifo :=
  if u.popReq then
    match s.fifo.pop s.cfg with
    | .ok r => .ok r.1
    | .error r => .error r
  else .ok s.fifo

/-- The parser's part of a read-domain edge: PARSE (R110), then SETMASK (R111). -/
def parserEdge (u : UnitIn) (s : State) : Except Fault Parser :=
  let after : Except Fault Parser :=
    if u.pbValid then
      match s.parser.parse s.cfg u.pbData with
      | .ok r => .ok r.parser
      | .error r => .error r
    else .ok s.parser
  match after with
  | .ok p => .ok (if u.cfgWe then { p with mask := u.cfgMask } else p)
  | .error r => .error r

/-- The debounce filter's part of a read-domain edge: TAKEP and TAKER, then SAMPLE (R116, R118). -/
def debounceEdge (u : UnitIn) (s : State) : Debounce :=
  let d := if u.takeP then s.debounce.takePressed else s.debounce
  let d := if u.takeR then d.takeReleased else d
  if u.dbSample then d.sample s.cfg u.rawActive else d

/-- The three units on one read-domain edge (R140 (a)), from the unit port inputs. -/
def unitEdge (u : UnitIn) (s : State) : Except Fault State :=
  match popEdge u s, parserEdge u s with
  | .ok f, .ok p => .ok (((s.withFifo f).withParser p).withDebounce (debounceEdge u s))
  | .error r, _ => .error r
  | .ok _, .error r => .error r

/-- What the sequencer's registers become and the events of the edge. -/
structure SeqNext where
  seq : Sequencer
  events : List TxEvent
deriving DecidableEq, Repr

/-- R128, DRAIN/IDLE. -/
def fsmDrain (i : TopIn) (s : State) : SeqNext :=
  if rempty s.fifo then ⟨{ s.seq with phase := .sample }, []⟩
  else
    match cycleMessage (seqDrive i s) s with
    | some m => ⟨{ s.seq with sub := .send, out := m.pack }, []⟩
    | none => ⟨s.seq, []⟩

/-- R128, SAMPLE/TAKE. -/
def fsmTake (s : State) : SeqNext :=
  if s.debounce.pressed then
    ⟨{ s.seq with sub := .send, out := (noteOnMsg s.cfg).pack, relPend := s.debounce.released }, []⟩
  else if s.debounce.released then ⟨{ s.seq with sub := .send, out := (noteOffMsg s.cfg).pack }, []⟩
  else ⟨{ s.seq with phase := .wait, sub := .idle }, []⟩

/-- R128, R129: any/SEND; without msg_ready the offer is held. -/
def fsmSend (i : TopIn) (s : State) : SeqNext :=
  if i.msgReady then ⟨{ s.seq with sub := .flush }, [.send (Message.unpack s.seq.out)]⟩ else ⟨s.seq, []⟩

/-- R128, SAMPLE/FLUSH with flush_ready. -/
def fsmSampleFlushed (s : State) : SeqNext :=
  if s.seq.relPend then
    ⟨{ s.seq with sub := .send, out := (noteOffMsg s.cfg).pack, relPend := false }, [.flush]⟩
  else ⟨{ s.seq with phase := .wait, sub := .idle }, [.flush]⟩

/-- The table of R128, but for `tick_pending`. A pair with no row has no meaning (log 15). -/
def fsmNext (i : TopIn) (s : State) : Except Fault SeqNext :=
  match s.seq.phase, s.seq.sub with
  | .unused3, _ => .error .phaseUnused
  | .wait, .idle => .ok ⟨if s.seq.tickPending then { s.seq with phase := .drain } else s.seq, []⟩
  | .drain, .idle => .ok (fsmDrain i s)
  | .sample, .idle => .ok ⟨{ s.seq with sub := .take }, []⟩
  | .sample, .take => .ok (fsmTake s)
  | _, .send => .ok (fsmSend i s)
  | .drain, .flush => .ok (if i.flushReady then ⟨{ s.seq with sub := .idle }, [.flush]⟩ else ⟨s.seq, []⟩)
  | .sample, .flush => .ok (if i.flushReady then fsmSampleFlushed s else ⟨s.seq, []⟩)
  | .wait, .flush => if i.flushReady then .error .noSequencerRow else .ok ⟨s.seq, []⟩
  | .wait, .take => .error .noSequencerRow
  | .drain, .take => .error .noSequencerRow

/-- The WAIT/IDLE transition of R128 that starts an iteration. -/
def seqStart (s : State) : Bool := s.seq.phase == .wait && s.seq.sub == .idle && s.seq.tickPending

/-- R128: tick_pending_next = tick | (tick_pending & ~start). -/
def tickNext (i : TopIn) (s : State) : Bool := i.tick || (s.seq.tickPending && !seqStart s)

/-- The integrated top on one rclk edge, but for the synchroniser (R128): the sequencer's registers and events, and the units on
the ports the sequencer drives. -/
def seqEdge (i : TopIn) (s : State) : Except Fault State :=
  match fsmNext i s, unitEdge (seqDrive i s) s with
  | .ok n, .ok t =>
    .ok { t with seq := { n.seq with tickPending := tickNext i s }, txLog := t.txLog ++ n.events }
  | .error r, _ => .error r
  | .ok _, .error r => .error r

/-- The write domain on one wclk edge (R84, R93): `full` is `wfull` before the edge, `sampled` the Gray value `rgray` shows the
first stage. A domain held in reset does nothing (R150). -/
def writeEdge (full : Bool) (sampled : Nat) (i : WriteIn) (s : State) : StepResult :=
  if s.wHeld then .next s
  else
    let f := if i.pushReq then s.fifo.pushIf s.cfg full (i.item s.cfg) else s.fifo
    .next (s.withFifo (f.shiftR s.cfg sampled))

/-- The synchroniser of the read domain on the edge whose other effects gave `t` (R93). -/
def readSync (sampled : Nat) (t : State) : StepResult := .next (t.withFifo (t.fifo.shiftW t.cfg sampled))

/-- The read domain on one rclk edge, with the Gray value `wgray` shows the first stage. A domain held in reset does nothing
(R150); the inputs must be those of the configured top (R79). -/
def readEdge (sampled : Nat) (i : ReadIn) (s : State) : StepResult :=
  if s.rHeld then .next s
  else
    match s.cfg.top, i with
    | .unit, .unit u => orFault (unitEdge u s) (readSync sampled)
    | .integrated, .integrated t => orFault (seqEdge t s) (readSync sampled)
    | .unit, .integrated _ => .refused .notInConfig
    | .integrated, .unit _ => .refused .notInConfig

/-- Both domains on one instant: each samples what the other showed before the edge (R140 (b); the one clock when not ASYNC). -/
def bothEdges (w : WriteIn) (r : ReadIn) (s : State) : StepResult :=
  match readEdge s.fifo.wgray r s with
  | .next t => writeEdge (wfull s.cfg s.fifo) s.fifo.rgray w t
  | .fault e => .fault e
  | .refused e => .refused e

/-- An edge of one clock alone exists only when the clocks are asynchronous (R79). -/
def asyncOnly (s : State) (k : StepResult) : StepResult := if s.cfg.async then k else .refused .notInConfig

end Sys2Proof.Machine
end

