-- ==== Sys2Proof/Machine/Dispatch.lean ====
section
/-! DEFINITION. The meaning of every transaction: one arm per constructor of `Instr`. -/

namespace Sys2Proof.Machine

open Sys2Proof

def exec (i : Instr) (s : State) : Host.Outcome State Fault Refusal :=
  match i with
  | .push v => Sys2Proof.Machine.execPush v s
  | .pop => Sys2Proof.Machine.execPop s
  | .size => Sys2Proof.Machine.execSize s
  | .empty => Sys2Proof.Machine.execEmpty s
  | .capacity => Sys2Proof.Machine.execCapacity s
  | .wlevel => Sys2Proof.Machine.execWlevel s
  | .syncw => Sys2Proof.Machine.execSyncw s
  | .syncr => Sys2Proof.Machine.execSyncr s
  | .parse b => Sys2Proof.Machine.execParse b s
  | .setmask m => Sys2Proof.Machine.execSetmask m s
  | .sample r => Sys2Proof.Machine.execSample r s
  | .takep => Sys2Proof.Machine.execTakep s
  | .taker => Sys2Proof.Machine.execTaker s
  | .bstep r => Sys2Proof.Machine.execBstep r s
  | .tick => Sys2Proof.Machine.execTick s

end Sys2Proof.Machine
end

