-- ==== Sys2Proof/Machine/Duties.lean ====
section
/-! DEFINITION. The host's duties of 70_reset_and_hazards.md R153. Duty (a) is kept by the machine, which refuses an rclk edge that
breaks it; duty (b), that something happens in the end, is a predicate for claims; (c) and (d) no host step can break, and a reset of one
domain alone, against (e), is refused (log 23). -/

namespace Sys2Proof.Machine

open Sys2Proof

/-- Duty (a), R82: whether `tick` is what it has to be in the coming rclk cycle of the integrated top: 1 in the TICK_PERIOD-th cycle
after the last tick and 0 in those between. Before the host has begun to tick (R152 (3)) both are; a held domain ignores `tick`
(R150). The period in rclk cycles is the model's reading (log 30). -/
def State.tickOnTime (i : ReadIn) (s : State) : Bool :=
  match s.cfg.top, i, s.sinceTick with
  | .integrated, .integrated j, some k => s.rHeld || j.tick == decide (s.cfg.tickPeriod ≤ k)
  | .integrated, .integrated _, none => true
  | .integrated, .unit _, _ => true
  | .unit, _, _ => true

/-- How many rclk cycles the host's next one is after its last tick, counted over this one (log 30). -/
def State.sinceTickAfter (i : ReadIn) (s : State) : Option Nat :=
  match s.cfg.top, i with
  | .integrated, .integrated j =>
    if s.rHeld then s.sinceTick else if j.tick then some 1 else s.sinceTick.map fun k => k + 1
  | .integrated, .unit _ => s.sinceTick
  | .unit, _ => s.sinceTick

/-- R153: an rclk edge at which the host keeps duty (a), counted; the host is given no edge that breaks it. -/
def onTime (i : ReadIn) (s : State) (k : State → StepResult) : StepResult :=
  if s.tickOnTime i then k (s.withSinceTick (s.sinceTickAfter i)) else .refused .hostDuty

/-- The transport accepts the offer of a sub-state in this cycle (43_bridge.md R129). -/
def TopIn.accepts (u : Sub) (i : TopIn) : Bool :=
  match u with
  | .send => i.msgReady
  | .flush => i.flushReady
  | .idle => false
  | .take => false

/-- Duty (b) for one offer: a run of rclk cycles in which the transport accepts it in the end. -/
def transportAnswers (u : Sub) (run : List TopIn) : Bool := run.any (TopIn.accepts u)

end Sys2Proof.Machine
end

