-- ==== Sys2Proof/Machine/HostSteps.lean ====
section
/-! DEFINITION. What each step of the host does (00_scope.md R6, R17): the transaction words through the decoder, the reset
events, the range form of the crossings (40_fifo.md R94) and the clock edges, at which
the host keeps its duties (70_reset_and_hazards.md R153). -/

namespace Sys2Proof.Machine

open Sys2Proof

/-- What a transaction returns in a domain held in reset (R150; log 12): a request is ignored while `push_ok`, `pop_valid` and
`pm_valid` are 0, the flags and levels show what the registers hold, and the sequencer holds (43_bridge.md R122). -/
def ignoredResult (i : Instr) (s : State) : Result :=
  match i with
  | .push _ => .bool false
  | .pop => .item none
  | .size => .count (rlevel s.cfg s.fifo)
  | .empty => .bool (rempty s.fifo)
  | .capacity => .count (capacityOf s.cfg)
  | .wlevel => .level (wlevel s.cfg s.fifo) (wfull s.cfg s.fifo)
  | .syncw => .unit
  | .syncr => .unit
  | .parse _ => .message none
  | .setmask _ => .unit
  | .sample _ => .unit
  | .takep => .bool s.debounce.pressed
  | .taker => .bool s.debounce.released
  | .bstep _ => .held
  | .tick => .unit

/-- R150: a transaction in a domain held in reset is ignored: no state element changes, and no cause is raised. A word without a
port (43_bridge.md R132) and a PUSH of another width (30_encoding.md R64 (e)) are refused there as anywhere. -/
def ignoreInstr (i : Instr) (s : State) : StepResult :=
  if i.admitted s.cfg.top then
    if i.widthOk s.cfg then .next (s.report (ignoredResult i s)) else .refused .illegalWord
  else .refused .notInConfig

/-- One decoded transaction, ignored where its domain is held in reset (R150; log 12). -/
def runInstr (i : Instr) (s : State) : StepResult :=
  if s.held i.domain then ignoreInstr i s else exec i s

/-- One transaction word (R60): an illegal one is refused (R64). -/
def runWord (w : Word) (s : State) : StepResult :=
  match decodeWord w with
  | .error _ => .refused .illegalWord
  | .ok i => runInstr i s

/-- R94: SYNCW to any count v with RQW# <= v <= W#. A read domain held in reset keeps its chain (R150; log 12). -/
def rangeW (v : Nat) (s : State) : StepResult :=
  if s.fifo.ghost.rqw ≤ v ∧ v ≤ s.fifo.ghost.w then
    if s.rHeld then .next (s.report .unit) else .next ((s.withFifo (s.fifo.crossWTo s.cfg v)).report .unit)
  else .refused .crossingOutOfRange

/-- R94: SYNCR to any count v with WQR# <= v <= R#. A write domain held in reset keeps its chain (R150; log 12). -/
def rangeR (v : Nat) (s : State) : StepResult :=
  if s.fifo.ghost.wqr ≤ v ∧ v ≤ s.fifo.ghost.r then
    if s.wHeld then .next (s.report .unit) else .next ((s.withFifo (s.fifo.crossRTo s.cfg v)).report .unit)
  else .refused .crossingOutOfRange

/-- One step of the host. -/
def runHostStep (e : HostStep) (s : State) : StepResult :=
  match e with
  | .word w => runWord w s
  | .reset => .next (resetEvent s)
  | .resetOne _ => .refused .partialReset
  | .resetAssert => .next (resetAssert s)
  | .resetRelease d => .next (resetRelease d s)
  | .crossW v => rangeW v s
  | .crossR v => rangeR v s
  | .wclk i => asyncOnly s (writeEdge (wfull s.cfg s.fifo) s.fifo.rgray i (s.report .unit))
  | .rclk i => asyncOnly s (onTime i s fun u => readEdge u.fifo.wgray i (u.report .unit))
  | .clk w r => onTime r s fun u => bothEdges w r (u.report .unit)

/-- The next host step of the trace, taken off it; with none left no agent steps and nothing changes (log 2). A configuration
outside R7 to R11 is given no step (R12). -/
def nextStep (s : State) : StepResult :=
  if s.cfg.legal then
    match s.trace with
    | [] => .next s
    | e :: rest => runHostStep e (s.withTrace rest)
  else .refused .badConfig

/-- The top configuration a trace that begins with the operation must be read under: the state's own where it has a port for
the operation, the other one otherwise (R132; log 3). -/
def topFor (t : TopConfig) (i : Instr) : TopConfig :=
  if i.admitted t then t
  else
    match t with
    | .unit => .integrated
    | .integrated => .unit

/-- A trace that begins with the word, read under a top configuration that has a port for it (log 3). -/
def State.loadWord (s : State) (nbits w : Nat) : State :=
  let top :=
    match decodeTableWord nbits w with
    | some i => topFor s.cfg.top i
    | none => s.cfg.top
  { s with cfg := { s.cfg with top := top }, trace := .word (BitVec.ofNat 16 w) :: s.trace }

end Sys2Proof.Machine
end

