-- ==== Sys2Proof/Machine/Step.lean ====
section
/-! DEFINITION. One step of the machine: the next host step of the trace (00_scope.md R17). -/

namespace Sys2Proof.Machine

open Sys2Proof

/-- One step: see `nextStep`. -/
def step (s : State) : Host.Outcome State Fault Refusal := nextStep s

/-- The state with one word placed where `step` takes its next transaction: at the front of the trace, under a top
configuration that has a port for it (log 3). -/
def State.withFetchWord (s : State) (nbits w : Nat) : State := s.loadWord nbits w

end Sys2Proof.Machine
end

