-- ==== Sys2Proof/Machine/Assembler.lean ====
section
/-! DEFINITION. The trace syntax (30_encoding.md R77): one transaction a line, `MNEMONIC` or `MNEMONIC operand`, text after `;`
a comment; and the pseudo-instructions (R78). Lines are lists of characters. What R77 and R78 leave open of the text (letter case,
blanks, empty lines, empty operand lists, the base of a count) is log 29's choice. -/

namespace Sys2Proof

/-- The text before a `;` (R77). -/
def stripComment (l : List Char) : List Char := l.takeWhile fun ch => ch != ';'

/-- The blank-separated words of a line, any number of blanks between them (log 29); `acc` holds the word being read, backwards. -/
def tokensFrom (acc : List Char) (l : List Char) : List (List Char) :=
  match l with
  | [] => if acc.isEmpty then [] else [acc.reverse]
  | ch :: rest =>
    if ch == ' ' then (if acc.isEmpty then tokensFrom [] rest else acc.reverse :: tokensFrom [] rest)
    else tokensFrom (ch :: acc) rest

/-- The value of a hexadecimal digit (R77, which writes capitals only). That small letters are read as well is the model's choice
(log 29). -/
def hexDigit (ch : Char) : Option Nat :=
  let n := ch.toNat
  if 48 ≤ n ∧ n ≤ 57 then some (n - 48)
  else if 65 ≤ n ∧ n ≤ 70 then some (n - 55)
  else if 97 ≤ n ∧ n ≤ 102 then some (n - 87)
  else none

/-- A byte operand `0xHH` (R77). -/
def byteOperand (t : List Char) : Option Byte :=
  match t with
  | ['0', 'x', h, l] =>
    match hexDigit h, hexDigit l with
    | some a, some b => some (BitVec.ofNat 8 (16 * a + b))
    | _, _ => none
  | _ => none

/-- A level operand `0` or `1` (R77). -/
def levelOperand (t : List Char) : Option Bool :=
  match t with
  | ['0'] => some false
  | ['1'] => some true
  | _ => none

/-- An operation without an operand, by its mnemonic (R62). -/
def bareMnemonic (t : List Char) : Option Instr :=
  match t with
  | ['P', 'O', 'P'] => some .pop
  | ['S', 'I', 'Z', 'E'] => some .size
  | ['E', 'M', 'P', 'T', 'Y'] => some .empty
  | ['C', 'A', 'P', 'A', 'C', 'I', 'T', 'Y'] => some .capacity
  | ['W', 'L', 'E', 'V', 'E', 'L'] => some .wlevel
  | ['S', 'Y', 'N', 'C', 'W'] => some .syncw
  | ['S', 'Y', 'N', 'C', 'R'] => some .syncr
  | ['T', 'A', 'K', 'E', 'P'] => some .takep
  | ['T', 'A', 'K', 'E', 'R'] => some .taker
  | ['T', 'I', 'C', 'K'] => some .tick
  | _ => none

/-- An operation with an operand, by its mnemonic (R62, R77). -/
def operandMnemonic (t o : List Char) : Option Instr :=
  match t with
  | ['P', 'U', 'S', 'H'] => (byteOperand o).map Instr.push
  | ['P', 'A', 'R', 'S', 'E'] => (byteOperand o).map Instr.parse
  | ['S', 'E', 'T', 'M', 'A', 'S', 'K'] => (byteOperand o).map Instr.setmask
  | ['S', 'A', 'M', 'P', 'L', 'E'] => (levelOperand o).map Instr.sample
  | ['B', 'S', 'T', 'E', 'P'] => (levelOperand o).map Instr.bstep
  | _ => none

/-- One line of a trace (R77). -/
def assembleLine (l : List Char) : Option Instr :=
  match tokensFrom [] (stripComment l) with
  | [t] => bareMnemonic t
  | [t, o] => operandMnemonic t o
  | _ => none

/-- The word a line assembles to (R77). -/
def assembleWord (l : List Char) : Option Word := (assembleLine l).map encode

/-- Every token of a list through one reading, or none. -/
def readAll {α : Type} (f : List Char → Option α) (ts : List (List Char)) : Option (List α) :=
  match ts with
  | [] => some []
  | t :: rest =>
    match f t, readAll f rest with
    | some a, some as => some (a :: as)
    | _, _ => none

/-- A decimal number, its digits from the most significant; that a count is decimal is the model's choice (log 29). -/
def decimalFrom (acc : Nat) (ds : List Char) : Option Nat :=
  match ds with
  | [] => some acc
  | ch :: rest => if 48 ≤ ch.toNat ∧ ch.toNat ≤ 57 then decimalFrom (10 * acc + (ch.toNat - 48)) rest else none

/-- A pseudo-instruction with its operands, each written as R77 writes a transaction's (R78). R78 gives `b1 ... bn` and n copies no
lower bound on n: that PARSES and SAMPLES without an operand and `SAMPLE*0` are read, and expand to nothing, is the model's choice
(log 29). -/
def pseudoTokens (t : List Char) (os : List (List Char)) : Option Pseudo :=
  match t, os with
  | ['E', 'N', 'Q'], [o] => (byteOperand o).map Pseudo.enq
  | ['S', 'Y', 'N', 'C'], [] => some .sync
  | ['X', 'F', 'E', 'R'], [o] => (byteOperand o).map Pseudo.xfer
  | ['P', 'A', 'R', 'S', 'E', 'S'], os => (readAll byteOperand os).map Pseudo.parses
  | ['S', 'A', 'M', 'P', 'L', 'E', 'S'], os => (readAll levelOperand os).map Pseudo.samples
  | ['T', 'A', 'K', 'E'], [] => some .take
  | 'S' :: 'A' :: 'M' :: 'P' :: 'L' :: 'E' :: '*' :: d :: ds, [o] =>
    match decimalFrom 0 (d :: ds), levelOperand o with
    | some k, some r => some (.sampleTimes k r)
    | _, _ => none
  | _, _ => none

/-- A pseudo-instruction's line (R78). -/
def pseudoLine (l : List Char) : Option Pseudo :=
  match tokensFrom [] (stripComment l) with
  | [] => none
  | t :: os => pseudoTokens t os

/-- The transactions of one line of a trace: one for a transaction, its expansion for a pseudo-instruction, none for a line that
holds only a comment (R77) or nothing (log 29). -/
def lineInstrs (l : List Char) : Option (List Instr) :=
  match tokensFrom [] (stripComment l) with
  | [] => some []
  | _ =>
    match assembleLine l with
    | some i => some [i]
    | none => (pseudoLine l).map Pseudo.expand

/-- The words of a trace, line by line (R17, R77, R78). -/
def assembleTrace (ls : List (List Char)) : Option (List Word) :=
  (readAll lineInstrs ls).map fun is => is.flatten.map encode

/-- A hexadecimal digit, as R77 writes it. -/
def hexChar (n : Nat) : Char := if n < 10 then Char.ofNat (48 + n) else Char.ofNat (55 + n)

/-- A byte as `0xHH` (R77). -/
def byteText (b : Byte) : List Char := ['0', 'x', hexChar (b.toNat / 16), hexChar (b.toNat % 16)]

/-- A level as `0` or `1` (R77). -/
def levelText (r : Bool) : List Char := if r then ['1'] else ['0']

/-- The line of a transaction (R77). -/
def Instr.text (i : Instr) : List Char :=
  match i with
  | .push v => ['P', 'U', 'S', 'H', ' '] ++ byteText v
  | .pop => ['P', 'O', 'P']
  | .size => ['S', 'I', 'Z', 'E']
  | .empty => ['E', 'M', 'P', 'T', 'Y']
  | .capacity => ['C', 'A', 'P', 'A', 'C', 'I', 'T', 'Y']
  | .wlevel => ['W', 'L', 'E', 'V', 'E', 'L']
  | .syncw => ['S', 'Y', 'N', 'C', 'W']
  | .syncr => ['S', 'Y', 'N', 'C', 'R']
  | .parse b => ['P', 'A', 'R', 'S', 'E', ' '] ++ byteText b
  | .setmask m => ['S', 'E', 'T', 'M', 'A', 'S', 'K', ' '] ++ byteText m
  | .sample r => ['S', 'A', 'M', 'P', 'L', 'E', ' '] ++ levelText r
  | .takep => ['T', 'A', 'K', 'E', 'P']
  | .taker => ['T', 'A', 'K', 'E', 'R']
  | .bstep r => ['B', 'S', 'T', 'E', 'P', ' '] ++ levelText r
  | .tick => ['T', 'I', 'C', 'K']

end Sys2Proof
end

