-- ==== Sys2Proof/Safety.lean ====
section
/-! DEFINITION. What counts as a good state, in the terms claims use: the invariants of every reachable state (10_state.md R41)
with what the model adds to them (Gray registers and synchroniser chains, R25, R93; slot contents, 20_memory.md R50, R58; flushed
messages, 43_bridge.md R125), and sequences of transactions. -/

namespace Sys2Proof.Machine

open Sys2Proof

/-- A synchroniser chain holds the Gray codes of past counts of the pointer, newest first, and the pointer copy shows the last
one (R25, R93). `now` is the pointer's ghost count, `copy` the copy's; with no stages the copy is the pointer. -/
def ChainInv (c : Config) (chain : List Nat) (now copy : Nat) : Prop :=
  ∃ counts : List Nat,
    counts.length = c.syncStages ∧ chain = counts.map (fun k => bin2gray (k % c.ptrMod)) ∧
      List.Pairwise (fun a b => b ≤ a) (now :: counts) ∧ counts.getLastD now = copy

/-- The FIFO's invariant: R24, R41 (a) and (b), the Gray registers and chains (R25), the slot contents (R50, R58). -/
structure FifoInv (c : Config) (f : Fifo) : Prop where
  memWf : Memory.wf f.mem = true
  memRange : Memory.inRange c.n f.mem = true
  memWidth : Memory.inWidth c.dataW f.mem = true
  wptr : f.wptr = f.ghost.w % c.ptrMod
  rptr : f.rptr = f.ghost.r % c.ptrMod
  rqWptr : f.rqWptr = f.ghost.rqw % c.ptrMod
  wqRptr : f.wqRptr = f.ghost.wqr % c.ptrMod
  wgray : f.wgray = bin2gray f.wptr
  rgray : f.rgray = bin2gray f.rptr
  wchain : ChainInv c f.w2r f.ghost.w f.ghost.rqw
  rchain : ChainInv c f.r2w f.ghost.r f.ghost.wqr
  /-- R41 (a): WQR# <= R#. -/
  wqr_le_r : f.ghost.wqr ≤ f.ghost.r
  /-- R41 (a): R# <= RQW#. -/
  r_le_rqw : f.ghost.r ≤ f.ghost.rqw
  /-- R41 (a): RQW# <= W#. -/
  rqw_le_w : f.ghost.rqw ≤ f.ghost.w
  /-- R41 (b): W# - WQR# <= N - 1. -/
  room : f.ghost.w ≤ f.ghost.wqr + (c.n - 1)
  /-- R50: what was popped is what was pushed first, in order. -/
  fifoOrder : f.ghost.popped = f.ghost.pushed.take f.ghost.r
  /-- R52, R58: every unread element stands in its slot. -/
  unread : ∀ k, f.ghost.r ≤ k → k < f.ghost.w → Memory.read f.mem (k % c.n) = f.ghost.pushed[k]?

/-- R41 (d). -/
structure ParserInv (p : Parser) : Prop where
  len : p.len = 0 ∨ p.len = 2 ∨ p.len = 3
  collecting : p.rem ≠ 0 → (p.len = 2 ∨ p.len = 3) ∧ p.rem ≤ p.len - 1

/-- R41 (e), and `dreg` is a W-bit value. -/
structure DebounceInv (c : Config) (d : Debounce) : Prop where
  bound : d.dreg < 2 ^ c.w
  forced : d.dreg >>> c.k = c.dcValue >>> c.k

/-- Reads a transport log: none if a SEND is not followed at once by a FLUSH or a FLUSH has no SEND before it, and otherwise
whether the last SEND still awaits its FLUSH (43_bridge.md R125). -/
def flushOwed (owed : Bool) (log : List TxEvent) : Option Bool :=
  match log with
  | [] => some owed
  | .send _ :: rest => if owed then none else flushOwed true rest
  | .flush :: rest => if owed then flushOwed false rest else none

/-- The sequencer's invariant: R41 (f), only (phase, sub) pairs with a row in R128, the flags of R124 (ii), and R125. -/
structure SeqInv (s : State) : Prop where
  phaseUsed : s.seq.phase ≠ .unused3
  takeInSample : s.seq.sub = .take → s.seq.phase = .sample
  busyNotWait : s.seq.sub = .send ∨ s.seq.sub = .flush → s.seq.phase ≠ .wait
  noRelPend : s.seq.relPend = false
  flagsTaken : s.cfg.top = .integrated → s.seq.sub ≠ .take → s.debounce.pressed = false ∧ s.debounce.released = false
  oneFlag : s.cfg.top = .integrated → ¬ (s.debounce.pressed = true ∧ s.debounce.released = true)
  flushed : flushOwed false s.txLog = some (s.seq.sub == .flush)
  /-- With TOP_CONFIG = UNIT no sequencer exists (R11). -/
  unitIdle : s.cfg.top = .unit → s.seq = Sequencer.atReset ∧ s.txLog = []

/-- 70_reset_and_hazards.md R153 (a): no tick is overdue; the coming rclk cycle is at most the TICK_PERIOD-th after the last tick
(log 30). -/
def TickInv (c : Config) (since : Option Nat) : Prop := ∀ k, since = some k → 1 ≤ k ∧ k ≤ c.tickPeriod

/-- The invariant of every reachable state, under a legal configuration (R12). -/
structure Inv (s : State) : Prop where
  legal : s.cfg.legal = true
  fifo : FifoInv s.cfg s.fifo
  parser : ParserInv s.parser
  debounce : DebounceInv s.cfg s.debounce
  seq : SeqInv s
  ticks : TickInv s.cfg s.sinceTick

/-- Every state element at its reset value (10_state.md R39), with the model's own fields: no slot has a value (log 8), the
observation is empty (log 4), and the host has not begun to tick (log 30). -/
structure ResetValues (c : Config) (t : State) : Prop where
  wptr : t.fifo.wptr = 0
  rptr : t.fifo.rptr = 0
  rqWptr : t.fifo.rqWptr = 0
  wqRptr : t.fifo.wqRptr = 0
  wgray : t.fifo.wgray = 0
  rgray : t.fifo.rgray = 0
  w2r : t.fifo.w2r = List.replicate c.syncStages 0
  r2w : t.fifo.r2w = List.replicate c.syncStages 0
  ghost : t.fifo.ghost = ⟨[], [], 0, 0⟩
  slots : ∀ a, Memory.read t.fifo.mem a = none
  parser : t.parser = ⟨0, 0, 0, 0, 0, 0⟩
  debounce : t.debounce = ⟨c.dcValue, false, false⟩
  seq : t.seq = ⟨.wait, false, .idle, 0, false⟩
  txLog : t.txLog = []
  obs : t.obs = ⟨.unit, none, none⟩
  sinceTick : t.sinceTick = none

/-- A sequence of transactions, one after another (00_scope.md R17), stopping at the first fault or refusal. -/
def execAll (is : List Instr) (s : State) : StepResult :=
  match is with
  | [] => .next s
  | i :: rest =>
    match exec i s with
    | .next t => execAll rest t
    | .fault r => .fault r
    | .refused r => .refused r

/-- A run of rclk edges of the integrated top, but for the synchroniser (43_bridge.md R128). -/
def seqEdges (is : List TopIn) (s : State) : Except Fault State :=
  match is with
  | [] => .ok s
  | i :: rest =>
    match seqEdge i s with
    | .ok t => seqEdges rest t
    | .error r => .error r

/-- Over a run of edges the event is logged once, on one of them, and nothing is logged on those before it (43_bridge.md R129). -/
def completesIn (run : List TopIn) (s : State) (e : TxEvent) : Prop :=
  ∃ n a b, n < run.length ∧ seqEdges (run.take n) s = .ok a ∧ a.txLog = s.txLog ∧ seqEdges (run.take (n + 1)) s = .ok b ∧
    b.txLog = s.txLog ++ [e]

/-- The FIFO without the registers of R25, which are not visible at transaction level. -/
def Fifo.visible (f : Fifo) : Fifo := { f with wgray := 0, rgray := 0, w2r := [], r2w := [] }

/-- R93: one shift of a synchroniser chain, the first stage taking the sampled Gray value and every other stage what the one before
it held, and R25: the copy is the pointer value of the last stage's code. -/
structure ChainShifted (c : Config) (sampled : Nat) (old new : List Nat) (copy : Nat) : Prop where
  length : new.length = c.syncStages
  first : new[0]? = some sampled
  next : ∀ k, k + 1 < c.syncStages → new[k + 1]? = old[k]?
  copy : new[c.syncStages - 1]?.map (gray2bin c.ctrW) = some copy

/-- A read-domain edge faults, whether of rclk alone or of both clocks. -/
def edgeFaults (i : ReadIn) (s : State) (e : Fault) : Prop :=
  (s.cfg.async = true → runHostStep (.rclk i) s = .fault e) ∧ ∀ w, runHostStep (.clk w i) s = .fault e

/-- A host step that is an edge of the write domain with these inputs, of wclk alone or of both clocks. -/
def HostStep.writesWith (e : HostStep) (i : WriteIn) : Prop := e = .wclk i ∨ ∃ r, e = .clk i r

/-- A host step that is an edge of the read domain with these inputs, of rclk alone or of both clocks. -/
def HostStep.readsWith (e : HostStep) (i : ReadIn) : Prop := e = .rclk i ∨ ∃ w, e = .clk w i

/-- The same read domain of the FIFO as seen at transaction level, and its Gray register. -/
structure SameReadSide (f g : Fifo) : Prop where
  rptr : f.rptr = g.rptr
  rgray : f.rgray = g.rgray
  rqWptr : f.rqWptr = g.rqWptr
  popped : f.ghost.popped = g.ghost.popped
  rqw : f.ghost.rqw = g.ghost.rqw

/-- The same write domain of the FIFO as seen at transaction level, the slots included, and its Gray register. -/
structure SameWriteSide (f g : Fifo) : Prop where
  mem : f.mem = g.mem
  wptr : f.wptr = g.wptr
  wgray : f.wgray = g.wgray
  wqRptr : f.wqRptr = g.wqRptr
  pushed : f.ghost.pushed = g.ghost.pushed
  wqr : f.ghost.wqr = g.ghost.wqr

/-- The state with the unit ports exposed (00_scope.md R11): what the sequencer's own POP, PARSE, SAMPLE and TAKE see (43_bridge.md
R123, R124). -/
def State.unitView (s : State) : State := { s with cfg := { s.cfg with top := .unit } }

/-- The transactions of one rclk cycle of the unit top, in the order they take effect (60_exceptions.md R140 (a)). -/
def edgeWords (u : UnitIn) : List Instr :=
  (if u.popReq then [.pop] else []) ++ (if u.pbValid then [.parse u.pbData] else []) ++
    (if u.cfgWe then [.setmask u.cfgMask] else []) ++ (if u.takeP then [.takep] else []) ++
    (if u.takeR then [.taker] else []) ++ (if u.dbSample then [.sample u.rawActive] else [])

/-- A cycle with the level `r` in which the transport accepts every offer (43_bridge.md R129); the other inputs are free. -/
def TopIn.acceptsAll (r : Bool) (i : TopIn) : Bool := i.rawActive == r && i.msgReady && i.flushReady

/-- What `cfg_we` and `cfg_mask` make of a mask over a run of cycles (41_parser.md R111). -/
def maskAfter (run : List TopIn) (mask : Byte) : Byte := run.foldl (fun m i => if i.cfgWe then i.cfgMask else m) mask

/-- The unit top's outputs of one rclk cycle are the results of the transactions of that cycle's inputs, on the state before the
edge, and of the queries (30_encoding.md R81, 40_fifo.md R86, 41_parser.md R110, R111, 42_debounce.md R116). -/
structure UnitOutputsAreResults (u : UnitIn) (s : State) : Prop where
  /-- R86: `pop_valid` and `pop_data` show what a POP returns. -/
  pop : ∃ t, exec .pop s = .next t ∧ t.obs.result = .item (unitOut u s).popData
  popValid : (unitOut u s).popValid = (unitOut u s).popData.isSome
  /-- R110: `pm_valid` and the `pm` fields show what the cycle's PARSE returns, and nothing without one. -/
  parse : u.pbValid = true → ∃ t, exec (.parse u.pbData) s = .next t ∧ t.obs.result = .message (unitOut u s).pm
  noParse : u.pbValid = false → (unitOut u s).pm = none
  pmValid : (unitOut u s).pmValid = (unitOut u s).pm.isSome
  size : exec .size s = .next (s.report (.count (unitOut u s).rlevel))
  empty : exec .empty s = .next (s.report (.bool (unitOut u s).rempty))
  capacity : exec .capacity s = .next (s.report (.count (unitOut u s).capacity))
  /-- R111: `mask_q` shows the mask. -/
  maskQ : (unitOut u s).maskQ = s.parser.mask
  takep : ∃ t, exec .takep s = .next t ∧ t.obs.result = .bool (unitOut u s).pressedQ
  taker : ∃ t, exec .taker s = .next t ∧ t.obs.result = .bool (unitOut u s).releasedQ

/-- The integrated top's outputs of one rclk cycle (30_encoding.md R82, 43_bridge.md R128, R130, 41_parser.md R111). -/
structure TopOutputsFollow (s : State) : Prop where
  maskQ : (topOut s).maskQ = s.parser.mask
  msgValid : (topOut s).msgValid = true ↔ s.seq.sub = .send
  /-- The offered message is `out`, and the port has no value without an offer (log 13). -/
  msg : (topOut s).msg = if s.seq.sub = .send then some (Message.unpack s.seq.out) else none
  flushValid : (topOut s).flushValid = true ↔ s.seq.sub = .flush
  hkSlot : (topOut s).hkSlot = true ↔ s.seq.phase = .wait

/-- What an edge of the read domain does but for the synchroniser, and shows in its cycle. Unit top: the transactions of its inputs,
whose results the outputs are. Integrated top: the edge of the sequencer; `tick_pending_next = tick | (tick_pending & ~start)`
(43_bridge.md R128), and the mask is written where `cfg_we` is 1 (41_parser.md R111). -/
def readEdgeDoes (i : ReadIn) (s a : State) : Prop :=
  match i with
  | .unit u => execAll (edgeWords u) s = .next a ∧ UnitOutputsAreResults u s
  | .integrated j => seqEdge j s = .ok a ∧ TopOutputsFollow s ∧
      a.seq.tickPending = (j.tick || (s.seq.tickPending && !decide (s.seq.phase = .wait ∧ s.seq.sub = .idle))) ∧
      a.parser.mask = if j.cfgWe then j.cfgMask else s.parser.mask

/-- The inputs are those of the top (30_encoding.md R79). -/
def ReadIn.fits (i : ReadIn) (top : TopConfig) : Bool :=
  match i, top with
  | .unit _, .unit => true
  | .integrated _, .integrated => true
  | .unit _, .integrated => false
  | .integrated _, .unit => false

/-- The host is given an rclk edge with these inputs: they are those of the top and keep duty (a) of 70_reset_and_hazards.md R153
(log 30); a held domain ignores them (R150). -/
def ReadIn.offered (i : ReadIn) (s : State) : Bool := s.rHeld || (i.fits s.cfg.top && s.tickOnTime i)

/-- The host is given this step: a legal word with a port (43_bridge.md R132), a BSTEP between the sequencer's handshakes (log 7), a
reset of both domains (R149), a count within a crossing's range (40_fifo.md R94), an edge of a clock there is (30_encoding.md R79). -/
def HostStep.offered (e : HostStep) (s : State) : Bool :=
  match e with
  | .word w =>
    match decodeWord w with
    | .error _ => false
    | .ok i => i.wellFormed s.cfg && (s.held i.domain || s.seq.sub == .idle || i != .bstep false && i != .bstep true)
  | .reset => true
  | .resetOne _ => false
  | .resetAssert => true
  | .resetRelease _ => true
  | .crossW v => decide (s.fifo.ghost.rqw ≤ v ∧ v ≤ s.fifo.ghost.w)
  | .crossR v => decide (s.fifo.ghost.wqr ≤ v ∧ v ≤ s.fifo.ghost.r)
  | .wclk _ => s.cfg.async
  | .rclk r => s.cfg.async && r.offered s
  | .clk _ r => r.offered s

/-- Whether the newest twelve of the samples, the newest first, are all `v` and the one before them is not; samples before reset
count as released (42_debounce.md R119). -/
def twelveAfterOpposite (v : Bool) (newestFirst : List Bool) : Bool :=
  let ext := newestFirst ++ List.replicate 13 false
  (ext.take 12).all (fun x => x == v) && (ext[12]?.getD v == !v)

/-- Two states that differ in CTR_W alone: the same parameters but for it, the same ghost counters, slots and registers
otherwise (40_fifo.md R97). -/
structure SameButCtrW (s t : State) : Prop where
  cfg : t.cfg = { s.cfg with ctrW := t.cfg.ctrW }
  mem : t.fifo.mem = s.fifo.mem
  ghost : t.fifo.ghost = s.fifo.ghost
  trace : t.trace = s.trace
  held : t.wHeld = s.wHeld ∧ t.rHeld = s.rHeld
  sinceTick : t.sinceTick = s.sinceTick
  parser : t.parser = s.parser
  debounce : t.debounce = s.debounce
  seq : t.seq = s.seq
  txLog : t.txLog = s.txLog
  obs : t.obs = s.obs

end Sys2Proof.Machine
end

