-- ==== Sys2Proof/Certificates/Slice0/Obligations.lean ====
section
/-! DEFINITION. The statements for the provers. Rule numbers R<n> are those of spec/, "log <n>" is notes/assumptions/<n>.md. A
statement about one transaction gives the whole next state, so that its frame is part of it. -/

open Sys2Proof Sys2Proof.Machine

/-! Encoding -/

/-- 95_test_vectors.md L2.1, R77: words written out from the spec's encoding decode as the spec says. -/
def Obligations.DecodesSpecWords : Prop :=
  decodeWord 0x1090 = .ok (.push 0x90) ∧ decodeWord 0x2000 = .ok .pop ∧ decodeWord 0x3000 = .ok .size ∧
    decodeWord 0x6000 = .ok .wlevel ∧ decodeWord 0x7000 = .ok .syncw ∧ decodeWord 0x90F8 = .ok (.parse 0xF8) ∧
    decodeWord 0xA07F = .ok (.setmask 0x7F) ∧ decodeWord 0xB001 = .ok (.sample true) ∧ decodeWord 0xD000 = .ok .taker ∧
    decodeWord 0xE000 = .ok (.bstep false) ∧ decodeWord 0xF000 = .ok .tick ∧
    decodeWord 0x00FF = .error .reservedOp ∧ decodeWord 0x1190 = .error .reservedBits ∧
    decodeWord 0x7080 = .error .operandPresent ∧ decodeWord 0xE080 = .error .levelBits

/-- R61 to R63: decoding an encoded transaction gives it back, with every operand at every value. -/
def Obligations.DecodeOfEncode : Prop := ∀ i : Instr, decodeWord (encode i) = .ok i

/-- R61 to R64: a word that decodes is the encoding of what it decodes to, so every transaction has one word. -/
def Obligations.EncodeOfDecode : Prop := ∀ (w : Word) (i : Instr), decodeWord w = .ok i → w = encode i

/-- R64: the decoder refuses a word in cases (a) to (d) and in no other, the machine refuses a refused word by name, and PUSH is
refused where DATA_W is not 8 (e). -/
def Obligations.IllegalWordsRefused : Prop :=
  (∀ w : Word, (∃ r, decodeWord w = .error r) ↔
    (w.toNat / 4096 = 0 ∨ w.toNat / 256 % 16 ≠ 0 ∨
      (w.toNat % 256 ≠ 0 ∧ w.toNat / 4096 ∈ [2, 3, 4, 5, 6, 7, 8, 12, 13, 15]) ∨
      (w.toNat % 256 / 2 ≠ 0 ∧ w.toNat / 4096 ∈ [11, 14]))) ∧
  (∀ (w : Word) (r : IllegalReason) (s : State) (rest : List HostStep), decodeWord w = .error r → s.cfg.legal = true →
    s.trace = .word w :: rest → step s = .refused .illegalWord) ∧
  (∀ (v : Byte) (s : State), s.cfg.dataW ≠ 8 → exec (.push v) s = .refused .illegalWord)

/-- R62, spec/opcode_table.json: a word that decodes belongs to exactly one row of the opcode table, that of its mnemonic, and a
word that is refused belongs to none. -/
def Obligations.OpcodeTableAgrees : Prop :=
  ∀ w : Word, ((opcodeTable.filter fun r => r.covers w).map OpcodeRow.mnemonic) =
    match decodeWord w with
    | .ok i => [i.mnemonic]
    | .error _ => []

/-- R77: the line of every transaction assembles to it. -/
def Obligations.TraceTextAssembles : Prop := ∀ i : Instr, assembleLine i.text = some i

/-! The step -/

/-- R17, R60: where the trace begins with a word that decodes to i, step is exec of i on the state without that word (log 2). Where
i's domain is held in reset (R150), it is `ignoreInstr`, of which `HeldDomainIgnoresEdges` says what it does (log 12). -/
def Obligations.StepRunsDecodedInstr : Prop :=
  ∀ (s : State) (w : Word) (i : Instr) (rest : List HostStep), s.cfg.legal = true → s.trace = .word w :: rest →
    decodeWord w = .ok i → (s.held i.domain = false → step s = exec i (s.withTrace rest)) ∧
      (s.held i.domain = true → step s = ignoreInstr i (s.withTrace rest))

/-- R12, R7, R8, R10: a configuration is refused exactly where it misses a "legal values" column: N no power of two or < 2, CTR_W <
LOG2N, DATA_W = 0, ASYNC with fewer than two stages, K < 2, K > W, DC_VALUE or a pattern wider than W bits, DC_VALUE with a
significant bit set, equal patterns. What the fields' types bound (SYS_LEN, FILTER_CFG, the note constants, TICK_PERIOD) cannot be
illegal (log 1). -/
def Obligations.StepRefusesBadConfig : Prop :=
  ∀ s : State, step s = .refused .badConfig ↔
    (s.cfg.n ≠ 2 ^ Nat.log2 s.cfg.n ∨ s.cfg.n < 2 ∨ s.cfg.ctrW < Nat.log2 s.cfg.n ∨ s.cfg.dataW = 0 ∨
      (s.cfg.async = true ∧ s.cfg.syncStages < 2) ∨ s.cfg.k < 2 ∨ s.cfg.w < s.cfg.k ∨ 2 ^ s.cfg.w ≤ s.cfg.dcValue ∨
      s.cfg.dcValue % 2 ^ s.cfg.k ≠ 0 ∨ 2 ^ s.cfg.w ≤ s.cfg.pressPattern ∨ 2 ^ s.cfg.w ≤ s.cfg.releasePattern ∨
      s.cfg.pressPattern = s.cfg.releasePattern)

/-- R132: with TOP_CONFIG = INTEGRATED the words of the units' own ports are refused, with UNIT those of the sequencer, and PUSH,
WLEVEL, SYNCW, SYNCR and SETMASK are refused for want of a port in neither. -/
def Obligations.WordsWithoutPortRefused : Prop :=
  ∀ s : State,
    (s.cfg.top = .integrated → exec .pop s = .refused .notInConfig ∧ exec .size s = .refused .notInConfig ∧
      exec .empty s = .refused .notInConfig ∧ exec .capacity s = .refused .notInConfig ∧
      (∀ b, exec (.parse b) s = .refused .notInConfig) ∧ (∀ r, exec (.sample r) s = .refused .notInConfig) ∧
      exec .takep s = .refused .notInConfig ∧ exec .taker s = .refused .notInConfig) ∧
    (s.cfg.top = .unit → (∀ r, exec (.bstep r) s = .refused .notInConfig) ∧ exec .tick s = .refused .notInConfig) ∧
    (∀ v m, exec (.push v) s ≠ .refused .notInConfig ∧ exec .wlevel s ≠ .refused .notInConfig ∧
      exec .syncw s ≠ .refused .notInConfig ∧ exec .syncr s ≠ .refused .notInConfig ∧
      exec (.setmask m) s ≠ .refused .notInConfig)

/-- R138, R64: a trace with an illegal word, a word that is not well formed for the configuration (no port, PUSH at another width)
or a reset of one domain alone reaches no state past it, and the run keeps the mark it met, at that host step or before it. That
the mark is the outcome of the step is the model's form (log 5). -/
def Obligations.RefusalEndsRun : Prop :=
  ∀ (s : State) (before rest : List HostStep) (bad : HostStep) (k : Nat),
    ((∃ w r, bad = .word w ∧ decodeWord w = .error r) ∨
      (∃ w i, bad = .word w ∧ decodeWord w = .ok i ∧ i.wellFormed s.cfg = false) ∨ (∃ d, bad = .resetOne d)) →
    s.trace = before ++ bad :: rest → before.length < k →
    (∀ t, Host.Core.run Sys2Proof.core k s ≠ .next t) ∧
      Host.Core.run Sys2Proof.core k s = Host.Core.run Sys2Proof.core (before.length + 1) s

/-- R148, R39, R150: the reset event gives every state element its reset value, whatever the state before it, and so does the
assertion of rst_n, which is the event at the ports; the release of rst_n in a domain changes nothing but that it is no longer
asserted there. The model's choices: no slot has a value (log 8), the observation is empty (log 4), rst_n counts as released in both
domains after the event and as asserted in both after the assertion (log 12), the parameters and the host steps to come stay
(log 20), and the host has to begin its ticking anew (log 30). R152: the boot order's reset event and SETMASK leave the reset state
with FILTER_CFG as the mask. -/
def Obligations.ResetEventValues : Prop :=
  ∀ (s : State) (rest : List HostStep), s.cfg.legal = true →
    (∀ e held, (e = HostStep.reset ∧ held = false ∨ e = HostStep.resetAssert ∧ held = true) → s.trace = e :: rest →
      ∃ t, step s = .next t ∧ ResetValues s.cfg t ∧ t.wHeld = held ∧ t.rHeld = held ∧ t.cfg = s.cfg ∧ t.trace = rest) ∧
    (s.trace = .resetRelease .write :: rest → step s = .next { s with trace := rest, wHeld := false }) ∧
    (s.trace = .resetRelease .read :: rest → step s = .next { s with trace := rest, rHeld := false }) ∧
    (s.trace = bootTrace s.cfg ++ rest → Host.Core.run Sys2Proof.core 2 s =
      .next ((State.atReset s.cfg rest).withParser ⟨s.cfg.filterCfg, 0, 0, 0, 0, 0⟩))

/-- R149: a reset of one domain alone is refused. -/
def Obligations.ResetOneDomainRefused : Prop :=
  ∀ (s : State) (d : Domain) (rest : List HostStep), s.cfg.legal = true → s.trace = .resetOne d :: rest →
    step s = .refused .partialReset

/-- R150: while rst_n is asserted in a domain, that domain ignores its inputs and drives its valid outputs to 0: at the ports, and in
a transaction of that domain, which changes no state element and returns what the ports show. The model's choices: that the
registers, the synchroniser chain included, stay, so that a crossing is ignored too, and what a BSTEP shows (log 12); the
observation after an edge (log 24). -/
def Obligations.HeldDomainIgnoresEdges : Prop :=
  ∀ (s : State) (w w' : WriteIn) (r r' : ReadIn) (u : UnitIn) (v : Nat),
    (∀ (x : Word) (i : Instr), decodeWord x = .ok i → i.wellFormed s.cfg = true → s.held i.domain = true →
      ∃ q, runHostStep (.word x) s = .next { s with obs := ⟨q, none, none⟩ } ∧
        match i with
        | .push _ => q = .bool (writeOut w s).pushOk
        | .pop => q = .item (unitOut u s).popData
        | .size => q = .count (unitOut u s).rlevel
        | .empty => q = .bool (unitOut u s).rempty
        | .capacity => q = .count (unitOut u s).capacity
        | .wlevel => q = .level (writeOut w s).wlevel (writeOut w s).wfull
        | .parse _ => q = .message (unitOut u s).pm
        | .takep => q = .bool (unitOut u s).pressedQ
        | .taker => q = .bool (unitOut u s).releasedQ
        | .bstep _ => q = .held
        | .syncw | .syncr | .setmask _ | .sample _ | .tick => q = .unit) ∧
    (s.rHeld = true → s.fifo.ghost.rqw ≤ v → v ≤ s.fifo.ghost.w → runHostStep (.crossW v) s = .next (s.report .unit)) ∧
    (s.wHeld = true → s.fifo.ghost.wqr ≤ v → v ≤ s.fifo.ghost.r → runHostStep (.crossR v) s = .next (s.report .unit)) ∧
    (s.wHeld = true → (writeOut w s).pushOk = false ∧ runHostStep (.wclk w) s = runHostStep (.wclk w') s ∧
      runHostStep (.clk w r) s = runHostStep (.clk w' r) s ∧
      (s.cfg.async = true → runHostStep (.wclk w) s = .next (s.report .unit)) ∧
      (∀ t, runHostStep (.clk w r) s = .next t → t.fifo.mem = s.fifo.mem ∧ t.fifo.wptr = s.fifo.wptr ∧
        t.fifo.wgray = s.fifo.wgray ∧ t.fifo.ghost.pushed = s.fifo.ghost.pushed ∧
        (s.cfg.exact = false → t.fifo.wqRptr = s.fifo.wqRptr ∧ t.fifo.r2w = s.fifo.r2w))) ∧
    (s.rHeld = true → (unitOut u s).popValid = false ∧ (unitOut u s).pmValid = false ∧ (topOut s).msgValid = false ∧
      (topOut s).flushValid = false ∧ (topOut s).hkSlot = false ∧
      runHostStep (.rclk r) s = runHostStep (.rclk r') s ∧ runHostStep (.clk w r) s = runHostStep (.clk w r') s ∧
      (s.cfg.async = true → runHostStep (.rclk r) s = .next (s.report .unit)) ∧
      (∃ t, runHostStep (.clk w r) s = .next t ∧ t.parser = s.parser ∧ t.debounce = s.debounce ∧ t.seq = s.seq ∧
        t.txLog = s.txLog ∧ t.fifo.rptr = s.fifo.rptr ∧ t.fifo.rgray = s.fifo.rgray ∧
        t.fifo.ghost.popped = s.fifo.ghost.popped ∧
        (s.cfg.exact = false → t.fifo.rqWptr = s.fifo.rqWptr ∧ t.fifo.w2r = s.fifo.w2r))) ∧
    (s.wHeld = true → s.rHeld = true → runHostStep (.clk w r) s = .next (s.report .unit))

/-! The FIFO -/

/-- R83, R98: a PUSH the write domain does not see as meeting a full buffer stores the item in the slot of `wptr`, advances `wptr`
and returns true; in the exact configuration the read domain's copy follows in the same step; nothing else changes. -/
def Obligations.PushStoresItem : Prop :=
  ∀ (v : Byte) (s : State), s.cfg.dataW = 8 → wlevel s.cfg s.fifo ≠ s.cfg.n - 1 →
    ∃ t, exec (.push v) s = .next t ∧ t.obs = ⟨.bool true, none, none⟩ ∧
      t.fifo.wptr = (s.fifo.wptr + 1) % 2 ^ s.cfg.ctrW ∧
      (∀ a, Memory.read t.fifo.mem a = if a = s.fifo.wptr % s.cfg.n then some v.toNat else Memory.read s.fifo.mem a) ∧
      t.fifo.wgray = t.fifo.wptr ^^^ (t.fifo.wptr >>> 1) ∧ t.fifo.ghost.pushed = s.fifo.ghost.pushed ++ [v.toNat] ∧
      (s.cfg.exact = false → t.fifo.rqWptr = s.fifo.rqWptr ∧ t.fifo.w2r = s.fifo.w2r ∧
        t.fifo.ghost.rqw = s.fifo.ghost.rqw) ∧
      (s.cfg.exact = true → t.fifo.rqWptr = t.fifo.wptr ∧ t.fifo.ghost.rqw = t.fifo.ghost.w) ∧
      t.fifo.rptr = s.fifo.rptr ∧ t.fifo.wqRptr = s.fifo.wqRptr ∧ t.fifo.rgray = s.fifo.rgray ∧ t.fifo.r2w = s.fifo.r2w ∧
      t.fifo.ghost.popped = s.fifo.ghost.popped ∧ t.fifo.ghost.wqr = s.fifo.ghost.wqr ∧
      t = { s with fifo := t.fifo, obs := t.obs }

/-- R134, R83: a PUSH into a buffer the write domain sees as full returns false, cause 1, and changes no state; at the ports
`push_ok` is 0, whatever DATA_W is. The cause in the observation is the spec's own code for the model (60_exceptions.md section 1,
log 4). -/
def Obligations.PushFullDropsItem : Prop :=
  ∀ (v : Byte) (i : WriteIn) (s : State), wlevel s.cfg s.fifo = s.cfg.n - 1 →
    (s.cfg.dataW = 8 → exec (.push v) s = .next { s with obs := ⟨.bool false, none, some .queueFull⟩ }) ∧
    (writeOut i s).pushOk = false

/-- R85, R98: a POP of a buffer the read domain sees as holding an element returns the slot of `rptr` and advances `rptr`; in the
exact configuration the write domain's copy follows in the same step; nothing else changes, and no slot does. -/
def Obligations.PopTakesOldest : Prop :=
  ∀ (v : Nat) (s : State), s.cfg.top = .unit → s.fifo.rptr ≠ s.fifo.rqWptr →
    Memory.read s.fifo.mem (s.fifo.rptr % s.cfg.n) = some v →
    ∃ t, exec .pop s = .next t ∧ t.obs = ⟨.item (some v), none, none⟩ ∧
      t.fifo.rptr = (s.fifo.rptr + 1) % 2 ^ s.cfg.ctrW ∧ t.fifo.rgray = t.fifo.rptr ^^^ (t.fifo.rptr >>> 1) ∧
      t.fifo.ghost.popped = s.fifo.ghost.popped ++ [v] ∧
      (s.cfg.exact = false → t.fifo.wqRptr = s.fifo.wqRptr ∧ t.fifo.r2w = s.fifo.r2w ∧
        t.fifo.ghost.wqr = s.fifo.ghost.wqr) ∧
      (s.cfg.exact = true → t.fifo.wqRptr = t.fifo.rptr ∧ t.fifo.ghost.wqr = t.fifo.ghost.r) ∧
      t.fifo.mem = s.fifo.mem ∧ t.fifo.wptr = s.fifo.wptr ∧ t.fifo.rqWptr = s.fifo.rqWptr ∧
      t.fifo.wgray = s.fifo.wgray ∧ t.fifo.w2r = s.fifo.w2r ∧ t.fifo.ghost.pushed = s.fifo.ghost.pushed ∧
      t.fifo.ghost.rqw = s.fifo.ghost.rqw ∧ t = { s with fifo := t.fifo, obs := t.obs }

/-- R85, R135: a POP of a buffer the read domain sees as empty returns None, cause 2, and changes no state; at the ports
`pop_valid` is 0. -/
def Obligations.PopEmptyUnchanged : Prop :=
  ∀ (s : State) (u : UnitIn), s.cfg.top = .unit → s.fifo.rptr = s.fifo.rqWptr →
    exec .pop s = .next { s with obs := ⟨.item none, none, some .queueEmpty⟩ } ∧ (unitOut u s).popValid = false

/-- The stops on some paths, each by its name. For states no run reaches: R58, a POP, a draining BSTEP or an edge at a slot no push
has written; log 14, a data byte with no buffer register to go to; R33, phase encoding 3; log 15, a (phase, sub) pair without a row
in R128. For steps the rules give no meaning: a BSTEP word inside a handshake or a take, which runs that mix words and edges reach
(log 7); a word without a port, or a PUSH of another width, in a domain held in reset as elsewhere (R132, R64 (e)); a crossing outside its range (R94, log 17); an edge of one
clock alone when not ASYNC, and an edge with the other top's inputs (R79, log 22); an rclk edge of the integrated top whose `tick`
comes before the TICK_PERIOD-th cycle after the last one, or is missing there (R153 (a), log 30). -/
def Obligations.StopsByName : Prop :=
  ∀ (s : State) (b : Byte) (r : Bool) (u : UnitIn) (i : TopIn) (w : WriteIn) (v : Nat),
    (s.fifo.rptr ≠ s.fifo.rqWptr → Memory.read s.fifo.mem (s.fifo.rptr % s.cfg.n) = none →
      (s.cfg.top = .unit → exec .pop s = .fault .unwrittenSlot) ∧
      (s.cfg.top = .integrated → s.seq.sub = .idle → s.seq.phase = .drain → exec (.bstep r) s = .fault .unwrittenSlot) ∧
      (s.cfg.top = .unit → s.rHeld = false → u.popReq = true → edgeFaults (.unit u) s .unwrittenSlot) ∧
      (s.cfg.top = .integrated → s.rHeld = false → s.tickOnTime (.integrated i) = true → s.seq.sub = .idle →
        s.seq.phase = .drain → edgeFaults (.integrated i) s .unwrittenSlot)) ∧
    (b.toNat < 128 → s.parser.rem ≠ 0 → s.parser.len - s.parser.rem = 3 →
      (s.cfg.top = .unit → exec (.parse b) s = .fault .noBufferRegister) ∧
      (s.cfg.top = .unit → s.rHeld = false → u.popReq = false → u.pbValid = true → u.pbData = b →
        edgeFaults (.unit u) s .noBufferRegister) ∧
      (s.cfg.top = .integrated → s.seq.sub = .idle → s.seq.phase = .drain → s.fifo.rptr ≠ s.fifo.rqWptr →
        Memory.read s.fifo.mem (s.fifo.rptr % s.cfg.n) = some b.toNat →
        exec (.bstep r) s = .fault .noBufferRegister ∧
          (s.rHeld = false → s.tickOnTime (.integrated i) = true → edgeFaults (.integrated i) s .noBufferRegister))) ∧
    (s.cfg.top = .integrated → s.seq.phase = .unused3 →
      (s.seq.sub = .idle → exec (.bstep r) s = .fault .phaseUnused) ∧
      (s.rHeld = false → s.tickOnTime (.integrated i) = true → edgeFaults (.integrated i) s .phaseUnused)) ∧
    (s.cfg.top = .integrated → s.rHeld = false → s.tickOnTime (.integrated i) = true →
      (s.seq.sub = .take ∧ (s.seq.phase = .wait ∨ s.seq.phase = .drain) ∨
        s.seq.sub = .flush ∧ s.seq.phase = .wait ∧ i.flushReady = true) → edgeFaults (.integrated i) s .noSequencerRow) ∧
    (s.cfg.top = .integrated → s.seq.sub ≠ .idle → exec (.bstep r) s = .refused .midHandshake) ∧
    (∀ (x : Word) (j : Instr), decodeWord x = .ok j → s.held j.domain = true →
      (j.admitted s.cfg.top = false → runHostStep (.word x) s = .refused .notInConfig) ∧
      (j.admitted s.cfg.top = true → j.widthOk s.cfg = false → runHostStep (.word x) s = .refused .illegalWord)) ∧
    ((v < s.fifo.ghost.rqw ∨ s.fifo.ghost.w < v) →
      runHostStep (.crossW v) s = .refused .crossingOutOfRange) ∧
    ((v < s.fifo.ghost.wqr ∨ s.fifo.ghost.r < v) →
      runHostStep (.crossR v) s = .refused .crossingOutOfRange) ∧
    (s.cfg.async = false → runHostStep (.wclk w) s = .refused .notInConfig ∧
      runHostStep (.rclk (.unit u)) s = .refused .notInConfig ∧
      runHostStep (.rclk (.integrated i)) s = .refused .notInConfig) ∧
    (s.rHeld = false →
      (s.cfg.top = .unit → runHostStep (.rclk (.integrated i)) s = .refused .notInConfig ∧
        runHostStep (.clk w (.integrated i)) s = .refused .notInConfig) ∧
      (s.cfg.top = .integrated → runHostStep (.rclk (.unit u)) s = .refused .notInConfig ∧
        runHostStep (.clk w (.unit u)) s = .refused .notInConfig)) ∧
    (∀ k, s.cfg.top = .integrated → s.rHeld = false → s.sinceTick = some k →
      (i.tick = true ∧ k ≤ s.cfg.tickPeriodPred ∨ i.tick = false ∧ s.cfg.tickPeriodPred < k) →
      (s.cfg.async = true → runHostStep (.rclk (.integrated i)) s = .refused .hostDuty) ∧
        runHostStep (.clk w (.integrated i)) s = .refused .hostDuty)

/-- R87 to R90, R38: SIZE, EMPTY, CAPACITY and WLEVEL return the levels of their own domain and change no state. -/
def Obligations.QueriesReadOnly : Prop :=
  ∀ s : State,
    (s.cfg.top = .unit →
      exec .size s = .next { s with obs := ⟨.count ((s.fifo.rqWptr + (2 ^ s.cfg.ctrW - s.fifo.rptr % 2 ^ s.cfg.ctrW)) % 2 ^ s.cfg.ctrW), none, none⟩ } ∧
      exec .empty s = .next { s with obs := ⟨.bool (decide (s.fifo.rptr = s.fifo.rqWptr)), none, none⟩ } ∧
      exec .capacity s = .next { s with obs := ⟨.count s.cfg.n, none, none⟩ }) ∧
    (∀ wl, wl = (s.fifo.wptr + (2 ^ s.cfg.ctrW - s.fifo.wqRptr % 2 ^ s.cfg.ctrW)) % 2 ^ s.cfg.ctrW →
      exec .wlevel s = .next { s with obs := ⟨.level wl (decide (wl = s.cfg.n - 1)), none, none⟩ })

/-- R91, R92, R98: SYNCW and SYNCR copy their pointer into the other domain and change nothing else that is visible at transaction
level; in the exact configuration they are no-ops. -/
def Obligations.SyncCopiesPointer : Prop :=
  ∀ s : State,
    (s.cfg.exact = false →
      (∃ t, exec .syncw s = .next t ∧ t = { s with fifo := t.fifo, obs := ⟨.unit, none, none⟩ } ∧
        t.fifo.visible = { s.fifo.visible with rqWptr := s.fifo.wptr, ghost := { s.fifo.ghost with rqw := s.fifo.ghost.w } } ∧
        t.fifo.wgray = s.fifo.wgray ∧ t.fifo.rgray = s.fifo.rgray ∧ t.fifo.r2w = s.fifo.r2w) ∧
      (∃ t, exec .syncr s = .next t ∧ t = { s with fifo := t.fifo, obs := ⟨.unit, none, none⟩ } ∧
        t.fifo.visible = { s.fifo.visible with wqRptr := s.fifo.rptr, ghost := { s.fifo.ghost with wqr := s.fifo.ghost.r } } ∧
        t.fifo.wgray = s.fifo.wgray ∧ t.fifo.rgray = s.fifo.rgray ∧ t.fifo.w2r = s.fifo.w2r)) ∧
    (s.cfg.exact = true → exec .syncw s = .next { s with obs := ⟨.unit, none, none⟩ } ∧
      exec .syncr s = .next { s with obs := ⟨.unit, none, none⟩ })

/-! The parser -/

/-- R65 to R67, R69: status and data bytes, the category of a status byte, and the length table with SYS_LEN for 0xF0 to 0xFF. -/
def Obligations.CategoryLengthTable : Prop :=
  ∀ (c : Config) (b : Byte),
    isStatus b = decide (128 ≤ b.toNat) ∧ (category b).toNat = b.toNat / 16 % 8 ∧
    (128 ≤ b.toNat → b.toNat < 192 → msgLen c b = some 3) ∧
    (192 ≤ b.toNat → b.toNat < 224 → msgLen c b = some 2) ∧
    (224 ≤ b.toNat → b.toNat < 240 → msgLen c b = some 3) ∧
    (240 ≤ b.toNat → msgLen c b = match c.sysLen[b.toNat % 16]'(Nat.mod_lt _ (by decide)) with
      | .reject => none
      | .two => some 2
      | .three => some 3)

/-- R100: a status byte whose category bit is set in the mask and whose length is not REJECT is accepted, idle or collecting. -/
def Obligations.ParseAcceptsStatus : Prop :=
  ∀ (b : Byte) (l : BitVec 2) (s : State), s.cfg.top = .unit → 128 ≤ b.toNat →
    s.parser.mask.getLsbD (b.toNat / 16 % 8) = true → msgLen s.cfg b = some l →
    exec (.parse b) s = .next { s with
      parser := { s.parser with buf0 := b, len := l, rem := l - 1 }
      obs := if s.parser.rem = 0 then ⟨.message none, some .accept, none⟩
        else ⟨.message none, some .abortAccept, some (.parseDiscard .abortAccept)⟩ }

/-- R101: a status byte whose category bit is clear in the mask, or whose length is REJECT, is discarded and leaves the parser
idle; `len` and `buf` are not written. -/
def Obligations.ParseFiltersStatus : Prop :=
  ∀ (b : Byte) (s : State), s.cfg.top = .unit → 128 ≤ b.toNat →
    (s.parser.mask.getLsbD (b.toNat / 16 % 8) = false ∨ msgLen s.cfg b = none) →
    exec (.parse b) s = .next { s with
      parser := { s.parser with rem := 0 }
      obs := if s.parser.rem = 0 then ⟨.message none, some .filter, some (.parseDiscard .filter)⟩
        else ⟨.message none, some .abortFilter, some (.parseDiscard .abortFilter)⟩ }

/-- R102, R103: a data byte while collecting is stored at `buf[len - rem]` and counted; the last one completes the message. Index
3 names no register (`StopsByName`). -/
def Obligations.ParseCollectsAndCompletes : Prop :=
  ∀ (b : Byte) (s : State) (q : Parser), s.cfg.top = .unit → b.toNat < 128 → s.parser.rem ≠ 0 →
    s.parser.len - s.parser.rem ≠ 3 →
    q = { s.parser with
      buf0 := if s.parser.len - s.parser.rem = 0 then b else s.parser.buf0
      buf1 := if s.parser.len - s.parser.rem = 1 then b else s.parser.buf1
      buf2 := if s.parser.len - s.parser.rem = 2 then b else s.parser.buf2
      rem := s.parser.rem - 1 } →
    exec (.parse b) s = .next { s with
      parser := q
      obs := if s.parser.rem = 1 then
          ⟨.message (some ⟨q.len, q.buf0, q.buf1, if q.len = 3 then q.buf2 else 0, 0⟩), some .message, none⟩
        else ⟨.message none, some .partialData, none⟩ }

/-- R104: a data byte while idle is discarded and the state is unchanged. -/
def Obligations.ParseDiscardsIdleData : Prop :=
  ∀ (b : Byte) (s : State), s.cfg.top = .unit → b.toNat < 128 → s.parser.rem = 0 →
    exec (.parse b) s = .next { s with obs := ⟨.message none, some .discardIdle, some (.parseDiscard .discardIdle)⟩ }

/-- R103, R70: from any parser state, an accepted status byte and its data bytes give the message of exactly those bytes. -/
def Obligations.MessageBytesAreTheParsedBytes : Prop :=
  ∀ (b d1 d2 : Byte) (s : State), s.cfg.top = .unit → 128 ≤ b.toNat → d1.toNat < 128 → d2.toNat < 128 →
    s.parser.mask.getLsbD (b.toNat / 16 % 8) = true →
    (msgLen s.cfg b = some 2 → ∃ t, execAll [.parse b, .parse d1] s = .next t ∧
      t.obs.result = .message (some ⟨2, b, d1, 0, 0⟩) ∧ t.parser.rem = 0) ∧
    (msgLen s.cfg b = some 3 → ∃ t u, execAll [.parse b, .parse d1] s = .next t ∧ t.obs.result = .message none ∧
      exec (.parse d2) t = .next u ∧ u.obs.result = .message (some ⟨3, b, d1, d2, 0⟩) ∧ u.parser.rem = 0)

/-- R105: a status byte while collecting is processed as it would be while idle, and gives no message either way. -/
def Obligations.StatusByteRestartsParser : Prop :=
  ∀ (b : Byte) (s : State), s.cfg.top = .unit → 128 ≤ b.toNat →
    ∃ t u, exec (.parse b) s = .next t ∧ exec (.parse b) { s with parser := { s.parser with rem := 0 } } = .next u ∧
      t.parser = u.parser ∧ t.obs.result = .message none ∧ u.obs.result = .message none

/-- R108, R109, R26: SETMASK loads the mask, in either top, and touches nothing else; the value reads back. -/
def Obligations.SetmaskLoadsMask : Prop :=
  ∀ (m : Byte) (s : State),
    exec (.setmask m) s = .next { s with parser := { s.parser with mask := m }, obs := ⟨.unit, none, none⟩ } ∧
    encode (.setmask m) = 0xA000 ||| m.setWidth 16

/-- R109: SETMASK leaves the accumulator alone, what a data byte does is the same under every mask, and a status byte is judged
under the new one. -/
def Obligations.MaskChangeMidMessage : Prop :=
  ∀ (b m : Byte) (s : State),
    (∃ t, exec (.setmask m) s = .next t ∧ t = { s with parser := { s.parser with mask := m }, obs := t.obs }) ∧
    (b.toNat < 128 → exec (.parse b) { s with parser := { s.parser with mask := m } } =
      match exec (.parse b) s with
      | .next t => .next { t with parser := { t.parser with mask := m } }
      | .fault r => .fault r
      | .refused r => .refused r) ∧
    (128 ≤ b.toNat → s.cfg.top = .unit → ∃ u, exec (.parse b) { s with parser := { s.parser with mask := m } } = .next u ∧
      (u.parser.rem ≠ 0 ↔ m.getLsbD (b.toNat / 16 % 8) = true ∧ msgLen s.cfg b ≠ none))

/-- R106: with a cleared mask an idle parser discards every sequence of bytes and no PARSE returns a message. -/
def Obligations.ClearedMaskDiscardsAll : Prop :=
  ∀ (bs : List Byte) (b : Byte) (s : State), s.cfg.top = .unit → s.parser.mask = 0 → s.parser.rem = 0 →
    ∃ t, execAll ((bs ++ [b]).map Instr.parse) s = .next t ∧ t.obs.result = .message none ∧
      t = { s with obs := t.obs }

/-! The debounce filter -/

/-- R112, R113: SAMPLE shifts the level in below the K significant bits, forces the bits above them to DC_VALUE, and sets a flag
exactly where the whole register then equals its pattern; nothing else changes. -/
def Obligations.SampleShiftsAndMatches : Prop :=
  ∀ (r : Bool) (s : State) (d : Nat), s.cfg.top = .unit →
    d = (2 * s.debounce.dreg + r.toNat) % 2 ^ s.cfg.k ||| s.cfg.dcValue →
    exec (.sample r) s = .next { s with
      debounce := ⟨d, s.debounce.pressed || decide (d = s.cfg.pressPattern),
        s.debounce.released || decide (d = s.cfg.releasePattern)⟩
      obs := ⟨.unit, none, none⟩ }

/-- R114, R115: TAKEP and TAKER return their flag and clear it, and touch nothing else. -/
def Obligations.TakeReturnsAndClears : Prop :=
  encode .takep = 0xC000 ∧ encode .taker = 0xD000 ∧
  ∀ s : State, s.cfg.top = .unit →
    exec .takep s = .next { s with
      debounce := { s.debounce with pressed := false }, obs := ⟨.bool s.debounce.pressed, none, none⟩ } ∧
    exec .taker s = .next { s with
      debounce := { s.debounce with released := false }, obs := ⟨.bool s.debounce.released, none, none⟩ }

/-- R119: with the default patterns, from reset, a SAMPLE sets `pressed` exactly when it and the eleven before it are pressed and
the one before those is released, and `released` symmetrically; samples before reset count as released. -/
def Obligations.DefaultPatternsSeeTwelveSamples : Prop :=
  ∀ (hist : List Bool) (r : Bool) (tr : List HostStep),
    ∃ t u, execAll (hist.map Instr.sample) (State.atReset { Config.standard with top := .unit } tr) = .next t ∧
      exec (.sample r) t = .next u ∧
      u.debounce.pressed = (t.debounce.pressed || twelveAfterOpposite true (r :: hist.reverse)) ∧
      u.debounce.released = (t.debounce.released || twelveAfterOpposite false (r :: hist.reverse))

/-- R120 (f): a pattern that differs from DC_VALUE in a bit from K up never sets its flag. -/
def Obligations.UnreachablePatternNeverMatches : Prop :=
  ∀ (r : Bool) (s : State), s.cfg.top = .unit →
    ∃ t, exec (.sample r) s = .next t ∧
      (s.cfg.pressPattern / 2 ^ s.cfg.k ≠ s.cfg.dcValue / 2 ^ s.cfg.k → t.debounce.pressed = s.debounce.pressed) ∧
      (s.cfg.releasePattern / 2 ^ s.cfg.k ≠ s.cfg.dcValue / 2 ^ s.cfg.k → t.debounce.released = s.debounce.released)

/-! The bridge -/

/-- R121: TICK sets `tick_pending`, pending or not, so that ticks merge, and nothing else. R153 (a): once the host ticks, the rclk
edge that ends a TICK_PERIOD carries a tick, so `tick_pending` is 1 after it; that the period counts rclk cycles is the model's
choice (log 30). -/
def Obligations.TickSetsPending : Prop :=
  encode .tick = 0xF000 ∧ ∀ s : State, s.cfg.top = .integrated →
    exec .tick s = .next { s with seq := { s.seq with tickPending := true }, obs := ⟨.unit, none, none⟩ } ∧
    ∀ (i : ReadIn) (e : HostStep) (t : State), s.rHeld = false → s.sinceTick = some s.cfg.tickPeriod → e.readsWith i →
      runHostStep e s = .next t → t.seq.tickPending = true ∧ t.sinceTick = some 1

/-- R122: BSTEP in WAIT starts an iteration when a tick is pending, and otherwise holds and changes no state. The result `held` is
the model's own label (log 4). R33, R40: the encodings of `phase` and of `sub`. -/
def Obligations.BstepWaitStartsOrHolds : Prop :=
  (∀ (r : Bool) (s : State), s.cfg.top = .integrated → s.seq.sub = .idle → s.seq.phase = .wait →
    (s.seq.tickPending = true → exec (.bstep r) s = .next { s with
      seq := { s.seq with phase := .drain, tickPending := false }, obs := ⟨.unit, none, none⟩ }) ∧
    (s.seq.tickPending = false → exec (.bstep r) s = .next { s with obs := ⟨.held, none, none⟩ })) ∧
  Phase.wait.encoding = 0 ∧ Phase.drain.encoding = 1 ∧ Phase.sample.encoding = 2 ∧ Phase.unused3.encoding = 3 ∧
  Sub.idle.encoding = 0 ∧ Sub.send.encoding = 1 ∧ Sub.flush.encoding = 2 ∧ Sub.take.encoding = 3

/-- R123: BSTEP in DRAIN on a FIFO the read domain sees as empty moves to SAMPLE and changes nothing else. -/
def Obligations.BstepDrainEndsWhenEmpty : Prop :=
  ∀ (r : Bool) (s : State), s.cfg.top = .integrated → s.seq.sub = .idle → s.seq.phase = .drain →
    s.fifo.rptr = s.fifo.rqWptr →
    exec (.bstep r) s = .next { s with
      seq := { s.seq with phase := .sample }, obs := ⟨.unit, none, some .queueEmpty⟩ }

/-- R123, R125: BSTEP in DRAIN otherwise does what POP and a PARSE of the popped item's byte do on the unit ports, logs SEND and
FLUSH for a completed message, and changes nothing else but the register `out` (log 6). An item below 256, as every item is with
DATA_W = 8, is its own byte; the byte of a wider one is a free value (log 28). -/
def Obligations.BstepDrainPopsAndParses : Prop :=
  ∀ (r : Bool) (v : Nat) (s p q : State), s.cfg.top = .integrated → s.seq.sub = .idle → s.seq.phase = .drain →
    exec .pop s.unitView = .next p → p.obs.result = .item (some v) → exec (.parse (itemByte s.cfg v)) p = .next q →
    (v < 256 → (itemByte s.cfg v).toNat = v) ∧
    ∃ t, exec (.bstep r) s = .next t ∧ t.fifo = p.fifo ∧ t.parser = q.parser ∧
      (q.obs.result = .message none → t.txLog = s.txLog ∧ t.seq = s.seq) ∧
      (∀ m, q.obs.result = .message (some m) → t.txLog = s.txLog ++ [.send m, .flush] ∧
        t.seq = { s.seq with out := m.pack }) ∧
      t.obs.outcome = q.obs.outcome ∧ t.obs.cause = q.obs.cause ∧
      t = { s with fifo := t.fifo, parser := t.parser, seq := t.seq, txLog := t.txLog, obs := t.obs }

/-- R124, R125, R127: BSTEP in SAMPLE does what SAMPLE, TAKEP and TAKER do on the unit ports, logs the Note-On message where a
press was taken and then the Note-Off message where a release was, each with its FLUSH, returns to WAIT, and changes nothing else
but the register `out` (log 6): no FIFO and no parser register. -/
def Obligations.BstepSampleTakesEvents : Prop :=
  ∀ (r : Bool) (s : State), s.cfg.top = .integrated → s.seq.sub = .idle → s.seq.phase = .sample →
    ∃ a b c t p q, exec (.sample r) s.unitView = .next a ∧ exec .takep a = .next b ∧ b.obs.result = .bool p ∧
      exec .taker b = .next c ∧ c.obs.result = .bool q ∧ exec (.bstep r) s = .next t ∧ t.debounce = c.debounce ∧
      t.txLog = s.txLog ++ (if p then [.send (noteOnMsg s.cfg), .flush] else []) ++
        (if q then [.send (noteOffMsg s.cfg), .flush] else []) ∧
      t.seq.phase = .wait ∧ t.seq.tickPending = s.seq.tickPending ∧ t.seq.sub = .idle ∧ t.seq.relPend = s.seq.relPend ∧
      t = { s with debounce := t.debounce, seq := t.seq, txLog := t.txLog, obs := ⟨.unit, none, none⟩ }

/-- R74: the bytes of the synthesised messages. -/
def Obligations.ButtonMessageBytes : Prop :=
  ∀ c : Config,
    (noteOnMsg c).len = 3 ∧ (noteOnMsg c).b0.toNat = 0x90 + c.noteChannel.toNat ∧
      (noteOnMsg c).b1.toNat = c.notePitch.toNat ∧ (noteOnMsg c).b2.toNat = c.noteVelocity.toNat ∧ (noteOnMsg c).group = 0 ∧
    (noteOffMsg c).len = 3 ∧ (noteOffMsg c).b0.toNat = 0x80 + c.noteChannel.toNat ∧
      (noteOffMsg c).b1.toNat = c.notePitch.toNat ∧ (noteOffMsg c).b2.toNat = c.noteVelocity.toNat ∧ (noteOffMsg c).group = 0

/-! Whole-machine rules -/

/-- R5, R132, R133, R79: in every state of the invariant, every transaction the configuration has a port for completes, a BSTEP
word being one between the sequencer's handshakes (log 7). A host step, words and clock edges of every configuration among them,
completes exactly where the host is given it (`HostStep.offered`), held domain or not, and no step faults. -/
def Obligations.EveryAdmittedWordCompletes : Prop :=
  (∀ (i : Instr) (s : State), Inv s → i.wellFormed s.cfg = true → (∀ r, i = .bstep r → s.seq.sub = .idle) →
    ∃ t, exec i s = .next t) ∧
  (∀ (e : HostStep) (s : State), Inv s → ((∃ t, runHostStep e s = .next t) ↔ e.offered s = true)) ∧
  (∀ (s : State) (f : Fault), Inv s → step s ≠ .fault f)

/-- R39, R41: the state after reset meets the invariant, and so does the reset state of every legal configuration. -/
def Obligations.ResetMeetsInvariant : Prop :=
  Inv State.reset ∧ ∀ (c : Config) (tr : List HostStep), c.legal = true → Inv (State.atReset c tr)

/-- R41, R25, R50, R52, R58, R93, R125: every step keeps the invariant: transactions, reset events, range crossings and clock edges
of either top. -/
def Obligations.StepKeepsInvariant : Prop := ∀ s t : State, Inv s → step s = .next t → Inv t

/-- R18, R36: no step changes a parameter, and a step takes one host step off the trace. -/
def Obligations.StepKeepsParameters : Prop :=
  ∀ s t : State, step s = .next t → t.cfg = s.cfg ∧ t.trace = s.trace.tail

/-- R50: the k-th successful POP returns the value of the k-th successful PUSH. -/
def Obligations.PopsFollowPushOrder : Prop :=
  ∀ s : State, Inv s → s.cfg.top = .unit →
    ∃ t, exec .pop s = .next t ∧
      ((s.fifo.ghost.r = s.fifo.ghost.rqw ∧ t.obs.result = .item none ∧ t.fifo = s.fifo) ∨
        (∃ v, s.fifo.ghost.pushed[s.fifo.ghost.r]? = some v ∧ t.obs.result = .item (some v) ∧
          t.fifo.ghost.popped = s.fifo.ghost.popped ++ [v] ∧ t.fifo.ghost.pushed = s.fifo.ghost.pushed))

/-- R52: a PUSH overwrites no slot that holds an unread element. -/
def Obligations.PushKeepsUnread : Prop :=
  ∀ (v : Byte) (s t : State), Inv s → exec (.push v) s = .next t →
    ∀ k, s.fifo.ghost.r ≤ k → k < s.fifo.ghost.w →
      Memory.read t.fifo.mem (k % s.cfg.n) = s.fifo.ghost.pushed[k]?

/-- R41 (c), R59: the number of buffered elements is the pointers' difference, empty is equal pointers, and each domain sees its
own bound of it. -/
def Obligations.BufferedCountLaw : Prop :=
  ∀ s : State, Inv s →
    s.fifo.ghost.w - s.fifo.ghost.r = ptrSub s.cfg s.fifo.wptr s.fifo.rptr ∧
    (s.fifo.wptr = s.fifo.rptr ↔ s.fifo.ghost.w = s.fifo.ghost.r) ∧
    rlevel s.cfg s.fifo ≤ s.fifo.ghost.w - s.fifo.ghost.r ∧ s.fifo.ghost.w - s.fifo.ghost.r ≤ wlevel s.cfg s.fifo ∧
    wlevel s.cfg s.fifo ≤ s.cfg.n - 1 ∧ rlevel s.cfg s.fifo = s.fifo.ghost.rqw - s.fifo.ghost.r ∧
    wlevel s.cfg s.fifo = s.fifo.ghost.w - s.fifo.ghost.wqr

/-- R97: CTR_W is unobservable: two good states that differ in CTR_W alone give the same results, and stay alike. -/
def Obligations.CtrWUnobservable : Prop :=
  ∀ (i : Instr) (s t s' : State), Inv s → Inv t → SameButCtrW s t → exec i s = .next s' →
    ∃ t', exec i t = .next t' ∧ SameButCtrW s' t'

/-- R98: in the exact configuration a PUSH fails exactly when N - 1 elements are buffered, a POP is None exactly when none is, and
SYNCW and SYNCR change no state. On an edge of the one clock the top does what `readEdgeDoes` says of its inputs and then, where the
buffer was not full before the edge (R84), the PUSH, each with its own crossing, so that the copies are the pointers afterwards
(log 25); beside that the edge clears the observation (log 24) and counts for the host's ticking (log 30). -/
def Obligations.ExactConfigurationIsExact : Prop :=
  ∀ (v : Byte) (w : WriteIn) (i : ReadIn) (s : State), Inv s → s.cfg.exact = true →
    (s.cfg.dataW = 8 → ∃ t, exec (.push v) s = .next t ∧
      t.obs.result = .bool (decide (s.fifo.ghost.w - s.fifo.ghost.r < s.cfg.n - 1))) ∧
    (s.cfg.top = .unit → ∃ t, exec .pop s = .next t ∧ (t.obs.result = .item none ↔ s.fifo.ghost.w = s.fifo.ghost.r)) ∧
    exec .syncw s = .next { s with obs := ⟨.unit, none, none⟩ } ∧ exec .syncr s = .next { s with obs := ⟨.unit, none, none⟩ } ∧
    (s.wHeld = false → s.rHeld = false → i.fits s.cfg.top = true → s.tickOnTime i = true →
      ∃ t a b, runHostStep (.clk w i) s = .next t ∧ readEdgeDoes i s a ∧
        (if (writeOut w s).pushOk = true then pushItem (w.item s.cfg) a = .next b ∧ b.obs.result = .bool true else b = a) ∧
        t = { b with sinceTick := s.sinceTickAfter i, obs := ⟨.unit, none, none⟩ } ∧
        t.fifo.rqWptr = t.fifo.wptr ∧ t.fifo.wqRptr = t.fifo.rptr)

/-- R140 (b): across the domains PUSH and an enabled POP commute: the same results and the same state but for the observation. -/
def Obligations.PushPopCommute : Prop :=
  ∀ (v : Byte) (s : State), Inv s → s.cfg.top = .unit → s.cfg.dataW = 8 → s.cfg.exact = false →
    s.fifo.rptr ≠ s.fifo.rqWptr →
    ∃ a b c d, exec (.push v) s = .next a ∧ exec .pop a = .next b ∧ exec .pop s = .next c ∧ exec (.push v) c = .next d ∧
      a.obs = d.obs ∧ b.obs = c.obs ∧ d = { b with obs := d.obs }

/-- R54 (iv), R91: after a SYNCW the read domain sees every pushed element. -/
def Obligations.SyncwMakesAllVisible : Prop :=
  ∀ s : State, Inv s → s.cfg.top = .unit →
    ∃ a b, exec .syncw s = .next a ∧ exec .size a = .next b ∧
      b.obs.result = .count (s.fifo.ghost.w - s.fifo.ghost.r)

/-- R94: the range form of the crossings admits what SYNCW and SYNCR do, and exactly the counts between the copy's and the
pointer's; a crossing to such a count v sets the ghost to v and the copy to v mod 2^CTR_W and changes nothing else that is visible at
transaction level, neither Gray register and not the other chain. -/
def Obligations.RangeCrossingAdmitsSync : Prop :=
  ∀ (s : State) (v : Nat), Inv s → s.rHeld = false → s.wHeld = false →
    (∃ t u, exec .syncw s = .next t ∧ runHostStep (.crossW s.fifo.ghost.w) s = .next u ∧
      u = { t with fifo := u.fifo } ∧ t.fifo.visible = u.fifo.visible) ∧
    (∃ t u, exec .syncr s = .next t ∧ runHostStep (.crossR s.fifo.ghost.r) s = .next u ∧
      u = { t with fifo := u.fifo } ∧ t.fifo.visible = u.fifo.visible) ∧
    ((∃ t, runHostStep (.crossW v) s = .next t) ↔ s.fifo.ghost.rqw ≤ v ∧ v ≤ s.fifo.ghost.w) ∧
    ((∃ t, runHostStep (.crossR v) s = .next t) ↔ s.fifo.ghost.wqr ≤ v ∧ v ≤ s.fifo.ghost.r) ∧
    (∀ t, runHostStep (.crossW v) s = .next t → t = { s with fifo := t.fifo, obs := ⟨.unit, none, none⟩ } ∧
      t.fifo.visible = { s.fifo.visible with rqWptr := v % 2 ^ s.cfg.ctrW, ghost := { s.fifo.ghost with rqw := v } } ∧
      t.fifo.wgray = s.fifo.wgray ∧ t.fifo.rgray = s.fifo.rgray ∧ t.fifo.r2w = s.fifo.r2w) ∧
    (∀ t, runHostStep (.crossR v) s = .next t → t = { s with fifo := t.fifo, obs := ⟨.unit, none, none⟩ } ∧
      t.fifo.visible = { s.fifo.visible with wqRptr := v % 2 ^ s.cfg.ctrW, ghost := { s.fifo.ghost with wqr := v } } ∧
      t.fifo.wgray = s.fifo.wgray ∧ t.fifo.rgray = s.fifo.rgray ∧ t.fifo.w2r = s.fifo.w2r)

/-! The cycle level -/

/-- R16: the Gray codes of consecutive CTR_W-bit values, the wrap included, differ in exactly one bit. -/
def Obligations.GrayNeighboursDifferInOneBit : Prop :=
  ∀ w b : Nat, 0 < w → b < 2 ^ w → ∃ i, i < w ∧ bin2gray b ^^^ bin2gray ((b + 1) % 2 ^ w) = 2 ^ i

/-- R5, R80, R84, R93, R79: outside the exact configuration an edge of the write domain, of wclk alone or of both clocks, is a
PUSH of the DATA_W-bit item where one is requested, with push_ok its result, followed by a crossing of the read pointer to a count
between the copy's and the pointer's own; it adds no behaviour. It completes exactly where the host is given it: the clock exists
(R79), and of both clocks the read domain's inputs are those of its top and tick on time, or it is held. `wlevel` and `wfull` show
WLEVEL's result. The chain shifts by one stage; that its first stage takes `rgray` as it was before an edge of both clocks, where
R93 allows the old value or the new one, is the model's choice (log 21). An edge of wclk alone changes nothing else but the
observation (log 24). With DATA_W = 8 that PUSH is the word's. -/
def Obligations.WriteEdgeIsPushThenCrossing : Prop :=
  ∀ (i : WriteIn) (e : HostStep) (s : State), Inv s → s.cfg.exact = false → s.wHeld = false → e.writesWith i →
    ((∃ t, runHostStep e s = .next t) ↔ e.offered s = true) ∧
    (s.cfg.dataW = 8 → exec (.push (BitVec.ofNat 8 i.pushData)) s = pushItem (i.item s.cfg) s) ∧
    exec .wlevel s = .next (s.report (.level (writeOut i s).wlevel (writeOut i s).wfull)) ∧
    ∀ t, runHostStep e s = .next t →
      (∃ u k v, (if i.pushReq then pushItem (i.item s.cfg) s = .next u ∧ u.obs.result = .bool (writeOut i s).pushOk
          else u = s ∧ (writeOut i s).pushOk = false) ∧
        runHostStep (.crossR k) u = .next v ∧ SameWriteSide t.fifo v.fifo ∧
        (e = .wclk i → t.fifo.visible = v.fifo.visible)) ∧
      ChainShifted s.cfg s.fifo.rgray s.fifo.r2w t.fifo.r2w t.fifo.wqRptr ∧
      (e = .wclk i → t = { s with fifo := t.fifo, obs := ⟨.unit, none, none⟩ } ∧ t.fifo.w2r = s.fifo.w2r ∧
        t.fifo.rgray = s.fifo.rgray)

/-- R5, R81, R82, R86, R93, R110, R111, R116, R118, R128, R140 (a), R79: outside the exact configuration an edge of the read
domain, of rclk alone or of both clocks, completes exactly where the host is given it (the clock exists, R79, and the inputs are
those of the top and tick on time), and then does what `readEdgeDoes` says of its inputs: for the unit top its transactions in the
order POP, PARSE, SETMASK, TAKEP, TAKER, SAMPLE (log 27), their results on the output ports; for the integrated top the edge of
the sequencer, with `tick_pending` and the mask from the ports, and its outputs. A crossing of the write pointer follows, to a
count between the copy's and the pointer's own. The chain shifts by one stage; that its first stage takes `wgray` as it was before
an edge of both clocks, where R93 allows the old value or the new one, is the model's choice (log 21). Beside the write domain,
the edge changes nothing else but the observation (log 24) and the host's count of its ticking (log 30). -/
def Obligations.ReadEdgeIsTransactions : Prop :=
  ∀ (i : ReadIn) (e : HostStep) (s : State), Inv s → s.cfg.exact = false → s.rHeld = false → e.readsWith i →
    ((∃ t, runHostStep e s = .next t) ↔ e.offered s = true) ∧
    ∀ t, runHostStep e s = .next t →
      (∃ a k v, readEdgeDoes i s a ∧ runHostStep (.crossW k) a = .next v ∧ SameReadSide t.fifo v.fifo ∧
        t = { a with fifo := t.fifo, sinceTick := s.sinceTickAfter i, obs := ⟨.unit, none, none⟩ } ∧
        (e = .rclk i → t.fifo.visible = v.fifo.visible)) ∧
      ChainShifted s.cfg s.fifo.wgray s.fifo.w2r t.fifo.w2r t.fifo.rqWptr ∧
      (e = .rclk i → t.fifo.r2w = s.fifo.r2w ∧ t.fifo.wgray = s.fifo.wgray)

/-- R128, R5: where the transport accepts every offer, a run of one to six edges of the sequencer's FSM does what one BSTEP does:
the same units, the same registers and the same `tx_log`. The other inputs are free: `tick_pending` is 1 afterwards where BSTEP
leaves it 1 or any of the edges ticks, and the mask is the last one written. `seqEdges` leaves out the synchroniser, whose part of an
edge is `ReadEdgeIsTransactions`. -/
def Obligations.SequencerRunIsBstep : Prop :=
  ∀ (r : Bool) (s t : State), s.cfg.top = .integrated → s.seq.sub = .idle → s.seq.relPend = false →
    exec (.bstep r) s = .next t →
    ∃ k, 1 ≤ k ∧ k ≤ 6 ∧ ∀ run : List TopIn, run.length = k → run.all (TopIn.acceptsAll r) = true →
      seqEdges run s = .ok { t with
        seq := { t.seq with tickPending := t.seq.tickPending || run.any TopIn.tick }
        parser := { t.parser with mask := maskAfter run s.parser.mask }
        obs := s.obs }

/-- R116: when a take and a matching sample fall in one cycle the port shows the flag before the edge, and the flag is set after
it: flag_next = match | (flag & ~take). -/
def Obligations.TakeAndMatchSameCycle : Prop :=
  ∀ (u : UnitIn) (s t : State) (d : Nat), unitEdge u s = .ok t → u.dbSample = true →
    d = ((s.debounce.dreg <<< 1 ||| u.rawActive.toNat) &&& (2 ^ s.cfg.k - 1)) ||| s.cfg.dcValue →
    (unitOut u s).pressedQ = s.debounce.pressed ∧ (unitOut u s).releasedQ = s.debounce.released ∧ t.debounce.dreg = d ∧
      t.debounce.pressed = (decide (d = s.cfg.pressPattern) || (s.debounce.pressed && !u.takeP)) ∧
      t.debounce.released = (decide (d = s.cfg.releasePattern) || (s.debounce.released && !u.takeR))

/-- R129: an offered message, or an offered flush, is held stable while the transport is not ready, with no unit moving, and is
completed, once, on the edge on which it is ready. `readEdge` is the read domain's part of an edge of rclk alone or of both clocks,
whatever Gray value it samples: only the synchroniser moves beside the offer, the mask where it is written, and `tick_pending` where
`tick` is 1. R153 (b): on a run of edges on which the transport accepts the offer in the end, the offer completes. -/
def Obligations.OfferHeldUntilReady : Prop :=
  ∀ (g : Nat) (i : TopIn) (s : State), Inv s → s.cfg.top = .integrated → s.rHeld = false →
    (s.seq.sub = .send ∨ s.seq.sub = .flush) →
    ∃ t, readEdge g (.integrated i) s = .next t ∧ t.debounce = s.debounce ∧
      t.parser = { s.parser with mask := if i.cfgWe then i.cfgMask else s.parser.mask } ∧
      t.seq.tickPending = (i.tick || s.seq.tickPending) ∧
      t.fifo = { s.fifo with
        rqWptr := t.fifo.rqWptr, w2r := t.fifo.w2r, ghost := { s.fifo.ghost with rqw := t.fifo.ghost.rqw } } ∧
      (s.seq.sub = .send → ∃ m, (topOut s).msgValid = true ∧ (topOut s).msg = some m ∧
        (i.msgReady = false → topOut t = { topOut s with maskQ := (topOut t).maskQ } ∧ t.txLog = s.txLog) ∧
        (i.msgReady = true → t.txLog = s.txLog ++ [.send m] ∧ (topOut t).msgValid = false ∧ (topOut t).flushValid = true) ∧
        ∀ run, transportAnswers .send run = true → completesIn run s (.send m)) ∧
      (s.seq.sub = .flush → (topOut s).flushValid = true ∧
        (i.flushReady = false → topOut t = { topOut s with maskQ := (topOut t).maskQ } ∧ t.txLog = s.txLog) ∧
        (i.flushReady = true → t.txLog = s.txLog ++ [.flush] ∧ (topOut t).msgValid = false ∧ (topOut t).flushValid = false) ∧
        ∀ run, transportAnswers .flush run = true → completesIn run s .flush)

/-- R126, R137: the transport's results change no state: an edge does the same whatever `msg_err` and `flush_err` are. An edge has
cause 4, once, exactly where the read domain is not held and an offer is accepted with its error input 1. The codes of the causes and
the sub-codes of cause 3 are those of R134 to R137. -/
def Obligations.TransportErrorsIgnored : Prop :=
  (∀ (w : WriteIn) (i : TopIn) (a b : Bool) (s : State),
    runHostStep (.rclk (.integrated { i with msgErr := a, flushErr := b })) s = runHostStep (.rclk (.integrated i)) s ∧
      runHostStep (.clk w (.integrated { i with msgErr := a, flushErr := b })) s = runHostStep (.clk w (.integrated i)) s ∧
      edgeCauses i s =
        if s.rHeld = false ∧ (s.seq.sub = .send ∧ i.msgReady = true ∧ i.msgErr = true ∨
          s.seq.sub = .flush ∧ i.flushReady = true ∧ i.flushErr = true) then [.transportFailure] else []) ∧
  Cause.queueFull.code = 1 ∧ Cause.queueEmpty.code = 2 ∧ (∀ k, (Cause.parseDiscard k).code = 3) ∧
  Cause.transportFailure.code = 4 ∧
  DiscardKind.filter.subCode = 1 ∧ DiscardKind.abortFilter.subCode = 2 ∧ DiscardKind.abortAccept.subCode = 3 ∧
  DiscardKind.discardIdle.subCode = 4

/-- R123, R158: a drain ends after one BSTEP for each element the read domain sees and one more, having popped exactly those, if
none becomes visible meanwhile. -/
def Obligations.DrainEndsAfterLevelSteps : Prop :=
  ∀ (r : Bool) (s : State), Inv s → s.cfg.top = .integrated → s.seq.sub = .idle → s.seq.phase = .drain →
    ∃ t, execAll (List.replicate (rlevel s.cfg s.fifo + 1) (.bstep r)) s = .next t ∧ t.seq.phase = .sample ∧
      t.fifo.ghost.popped = s.fifo.ghost.pushed.take s.fifo.ghost.rqw ∧ t.debounce = s.debounce
end

