-- ==== Sys2Proof/Laws/Pointer.lean ====
section
/-! SUPPORT. Pointers, levels and slot indexes in terms of the ghost counters (00_scope.md R14, 10_state.md R24, 20_memory.md R43,
40_fifo.md R97), and Gray code (R16). -/

namespace Sys2Proof.Machine

open Sys2Proof

theorem legal_capacity {c : Config} (h : c.legal = true) : c.n = 2 ^ c.log2n ∧ 2 ≤ c.n := by
  simp only [Config.legal, Config.legalCapacity, Bool.and_eq_true, decide_eq_true_eq] at h
  exact h.1.1.1.1.1

theorem legal_ctrW {c : Config} (h : c.legal = true) : c.log2n ≤ c.ctrW := by
  simp only [Config.legal, Config.legalWidths, Bool.and_eq_true, decide_eq_true_eq] at h
  exact h.1.1.1.1.2.1

theorem legal_stages {c : Config} (h : c.legal = true) : c.async = false ∨ 2 ≤ c.syncStages := by
  simp only [Config.legal, Config.legalStages, Bool.and_eq_true, Bool.or_eq_true, Bool.not_eq_true', decide_eq_true_eq] at h
  exact h.1.1.1.2

theorem legal_debounce {c : Config} (h : c.legal = true) : 2 ≤ c.k ∧ c.k ≤ c.w := by
  simp only [Config.legal, Config.legalDebounceWidths, Bool.and_eq_true, decide_eq_true_eq] at h
  exact h.1.1.2

theorem legal_dcValue {c : Config} (h : c.legal = true) : c.dcValue < 2 ^ c.w ∧ c.dcValue % 2 ^ c.k = 0 := by
  simp only [Config.legal, Config.legalDcValue, Bool.and_eq_true, decide_eq_true_eq] at h
  exact h.1.2

theorem legal_patterns {c : Config} (h : c.legal = true) : c.pressPattern ≠ c.releasePattern := by
  simp only [Config.legal, Config.legalPatterns, Bool.and_eq_true, decide_eq_true_eq] at h
  exact h.2.2

theorem ptrMod_pos (c : Config) : 0 < c.ptrMod := Nat.two_pow_pos _

/-- R43: 2^CTR_W is a multiple of N. -/
theorem capacity_dvd_ptrMod {c : Config} (h : c.legal = true) : c.n ∣ c.ptrMod := by
  rw [(legal_capacity h).1]
  exact Nat.pow_dvd_pow 2 (legal_ctrW h)

theorem capacity_le_ptrMod {c : Config} (h : c.legal = true) : c.n ≤ c.ptrMod :=
  Nat.le_of_dvd (ptrMod_pos c) (capacity_dvd_ptrMod h)

/-- R43: the slot of a pointer is its count mod N, whatever CTR_W is. -/
theorem slotIdx_count {c : Config} (h : c.legal = true) (k : Nat) : slotIdx c (k % c.ptrMod) = k % c.n :=
  Nat.mod_mod_of_dvd _ (capacity_dvd_ptrMod h)

/-- A cursor's advance is its count's. -/
theorem ptrAdd_count (c : Config) (k d : Nat) : ptrAdd c (k % c.ptrMod) d = (k + d) % c.ptrMod :=
  Nat.mod_add_mod _ _ _

/-- R97: a level is the difference of the counts, as long as that fits in CTR_W bits. -/
theorem ptrSub_count {c : Config} {p q : Nat} (hle : q ≤ p) (hlt : p - q < c.ptrMod) :
    ptrSub c (p % c.ptrMod) (q % c.ptrMod) = p - q := by
  have hM := ptrMod_pos c
  obtain ⟨d, rfl⟩ := Nat.exists_eq_add_of_le hle
  have hq := Nat.mod_lt q hM
  have hd : q + d - q = d := by omega
  rw [hd] at hlt ⊢
  rw [ptrSub, Nat.mod_mod, Nat.mod_add_mod]
  have e : q + d + (c.ptrMod - q % c.ptrMod) = d + c.ptrMod * (q / c.ptrMod + 1) := by
    have := Nat.div_add_mod q c.ptrMod
    rw [Nat.mul_add]
    omega
  rw [e, Nat.add_mul_mod_self_left, Nat.mod_eq_of_lt hlt]

theorem ptrSub_lt (c : Config) (p q : Nat) : ptrSub c p q < c.ptrMod := Nat.mod_lt _ (ptrMod_pos c)

theorem ptrAdd_lt (c : Config) (p d : Nat) : ptrAdd c p d < c.ptrMod := Nat.mod_lt _ (ptrMod_pos c)

/-- Equal counts modulo 2^CTR_W that lie within one turn of each other are equal. -/
theorem count_eq_of_mod_eq {c : Config} {p q : Nat} (hle : q ≤ p) (hlt : p - q < c.ptrMod)
    (h : q % c.ptrMod = p % c.ptrMod) : q = p := by
  have h0 := ptrSub_count hle hlt
  rw [← h, ptrSub_count (le_refl q) (by simpa using ptrMod_pos c)] at h0
  omega

/-- Folding a Gray code over the low `w` bits leaves the value and its part above them. -/
theorem gray2bin_bin2gray_xor (w b : Nat) : gray2bin w (bin2gray b) = b ^^^ (b >>> w) := by
  induction w with
  | zero => simp [gray2bin]
  | succ w ih =>
    rw [gray2bin, ih, bin2gray, Nat.shiftRight_xor_distrib, ← Nat.shiftRight_add, Nat.add_comm 1 w]
    apply Nat.eq_of_testBit_eq
    intro i
    simp only [Nat.testBit_xor]
    cases Nat.testBit b i <;> cases Nat.testBit (b >>> w) i <;> cases Nat.testBit (b >>> (w + 1)) i <;> rfl

/-- R16: `gray2bin` undoes `bin2gray` on CTR_W-bit values. -/
theorem gray2bin_bin2gray {w b : Nat} (h : b < 2 ^ w) : gray2bin w (bin2gray b) = b := by
  rw [gray2bin_bin2gray_xor, Nat.shiftRight_eq_div_pow, Nat.div_eq_of_lt h, Nat.xor_zero]

/-- The Gray code of a CTR_W-bit value has CTR_W bits. -/
theorem bin2gray_lt {w b : Nat} (h : b < 2 ^ w) : bin2gray b < 2 ^ w :=
  Nat.xor_lt_two_pow h (lt_of_le_of_lt (Nat.shiftRight_le _ _) h)

/-- The copy a chain delivers is the count its last stage codes. -/
theorem gray2bin_count (c : Config) (k : Nat) : gray2bin c.ctrW (bin2gray (k % c.ptrMod)) = k % c.ptrMod :=
  gray2bin_bin2gray (Nat.mod_lt _ (ptrMod_pos c))

end Sys2Proof.Machine
end

