-- ==== Sys2Proof/Laws/Debounce.lean ====
section
/-! SUPPORT. One sample through the debounce register (42_debounce.md R112), and that it keeps R41 (e). -/

namespace Sys2Proof.Machine

open Sys2Proof

theorem keep_lt (c : Config) : c.keep < 2 ^ c.k := by
  have := Nat.two_pow_pos c.k
  rw [Config.keep]
  omega

/-- The masked history has K bits. -/
theorem and_keep_lt (c : Config) (x : Nat) : x &&& c.keep < 2 ^ c.k :=
  lt_of_le_of_lt Nat.and_le_right (keep_lt c)

/-- R41 (e): the bits from K up are DC_VALUE's after every sample. -/
theorem shiftSample_forced (c : Config) (r : Bool) (d : Nat) : shiftSample c r d >>> c.k = c.dcValue >>> c.k := by
  rw [shiftSample, Nat.shiftRight_or_distrib, Nat.shiftRight_eq_div_pow (_ &&& _),
    Nat.div_eq_of_lt (and_keep_lt c _), Nat.zero_or]

theorem shiftSample_lt {c : Config} (h : c.legal = true) (r : Bool) (d : Nat) : shiftSample c r d < 2 ^ c.w := by
  have h1 : 2 ^ c.k ≤ 2 ^ c.w := Nat.pow_le_pow_right (by omega) (legal_debounce h).2
  exact Nat.or_lt_two_pow (lt_of_lt_of_le (and_keep_lt c _) h1) (legal_dcValue h).1

theorem DebounceInv.atReset {c : Config} (h : c.legal = true) : DebounceInv c (Debounce.atReset c) :=
  ⟨(legal_dcValue h).1, rfl⟩

theorem DebounceInv.sample {c : Config} (h : c.legal = true) (r : Bool) (d : Debounce) : DebounceInv c (d.sample c r) :=
  ⟨shiftSample_lt h r _, shiftSample_forced c r _⟩

theorem DebounceInv.takePressed {c : Config} {d : Debounce} (h : DebounceInv c d) : DebounceInv c d.takePressed :=
  ⟨h.bound, h.forced⟩

theorem DebounceInv.takeReleased {c : Config} {d : Debounce} (h : DebounceInv c d) : DebounceInv c d.takeReleased :=
  ⟨h.bound, h.forced⟩

/-- R112: at most one flag is set per SAMPLE, because the patterns differ (R12). -/
theorem one_match {c : Config} (h : c.legal = true) (d : Nat) :
    ¬ (pressMatch c d = true ∧ releaseMatch c d = true) := by
  rintro ⟨h1, h2⟩
  simp only [pressMatch, releaseMatch, beq_iff_eq] at h1 h2
  exact legal_patterns h (h1.symm.trans h2)

end Sys2Proof.Machine
end

