-- ==== Sys2Proof/Laws/Memory.lean ====
section
/-! SUPPORT. The slot array: a read after a write, and that a write keeps the canonical form (20_memory.md R44 to R46). -/

namespace Sys2Proof.Machine

@[simp] theorem Memory.read_nil (i : Nat) : Memory.read [] i = none := rfl

theorem Memory.read_cons (a : Nat) (v : Nat) (m : Memory) (i : Nat) :
    Memory.read ((a, v) :: m) i = if a = i then some v else Memory.read m i := rfl

theorem Memory.wf_cons {a : Nat} {v : Nat} {m : Memory} (h : Memory.wf ((a, v) :: m) = true) : Memory.wf m = true := by
  cases m with
  | nil => rfl
  | cons b t => obtain ⟨b, u⟩ := b; simp [Memory.wf] at h; exact h.2

/-- The canonical form, as an order on the slots. -/
theorem Memory.wf_iff (m : Memory) : Memory.wf m = true ↔ List.Pairwise (fun a b => a.1 < b.1) m := by
  induction m with
  | nil => simp [Memory.wf]
  | cons a t ih =>
    cases t with
    | nil => simp [Memory.wf]
    | cons b t =>
      obtain ⟨a, v⟩ := a
      obtain ⟨b, u⟩ := b
      simp only [Memory.wf, Bool.and_eq_true, decide_eq_true_eq, ih]
      constructor
      · rintro ⟨h, hp⟩
        refine List.pairwise_cons.2 ⟨?_, hp⟩
        intro x hx
        rcases List.mem_cons.1 hx with rfl | hx
        · exact h
        · exact lt_trans h ((List.pairwise_cons.1 hp).1 x hx)
      · intro h
        exact ⟨(List.pairwise_cons.1 h).1 _ (List.mem_cons_self ..), (List.pairwise_cons.1 h).2⟩

/-- A slot below every listed one has no value. -/
theorem Memory.read_below {m : Memory} {i : Nat} (h : ∀ x ∈ m, i < x.1) : Memory.read m i = none := by
  induction m with
  | nil => rfl
  | cons a t ih =>
    obtain ⟨a, v⟩ := a
    have ha : i < a := h (a, v) (List.mem_cons_self ..)
    rw [Memory.read_cons, if_neg (by omega)]
    exact ih fun x hx => h x (List.mem_cons_of_mem _ hx)

/-- A read after a write to the same slot gives the value written. -/
@[simp] theorem Memory.read_write_same (m : Memory) (i : Nat) (v : Nat) :
    Memory.read (Memory.write m i v) i = some v := by
  induction m with
  | nil => simp [Memory.write, Memory.read]
  | cons a t ih =>
    obtain ⟨a, u⟩ := a
    simp only [Memory.write]
    split
    · simp [Memory.read]
    · split
      · simp [Memory.read]
      · rw [Memory.read_cons, if_neg (by omega), ih]

/-- A write leaves every other slot as it was. -/
theorem Memory.read_write_other (m : Memory) {i j : Nat} (v : Nat) (h : i ≠ j) :
    Memory.read (Memory.write m i v) j = Memory.read m j := by
  induction m with
  | nil => simp [Memory.write, Memory.read, h]
  | cons a t ih =>
    obtain ⟨a, u⟩ := a
    simp only [Memory.write]
    split
    · rw [Memory.read_cons, if_neg h]
    · split
      · rename_i h1 h2
        subst h2
        simp [Memory.read, h]
      · simp [Memory.read_cons, ih]

/-- The slots listed after a write are the slots listed before and the slot written. -/
theorem Memory.mem_write {m : Memory} {i : Nat} {v : Nat} {x : Nat × Nat} (h : x ∈ Memory.write m i v) :
    x = (i, v) ∨ x ∈ m := by
  induction m with
  | nil => simpa [Memory.write] using h
  | cons a t ih =>
    obtain ⟨a, u⟩ := a
    simp only [Memory.write] at h
    split at h
    · simpa using h
    · split at h
      · rcases List.mem_cons.1 h with rfl | h
        · exact .inl rfl
        · exact .inr (List.mem_cons_of_mem _ h)
      · rcases List.mem_cons.1 h with rfl | h
        · exact .inr (List.mem_cons_self ..)
        · rcases ih h with rfl | h
          · exact .inl rfl
          · exact .inr (List.mem_cons_of_mem _ h)

/-- A write keeps the canonical form. -/
theorem Memory.write_wf {m : Memory} (i : Nat) (v : Nat) (h : Memory.wf m = true) : Memory.wf (Memory.write m i v) = true := by
  rw [Memory.wf_iff] at h ⊢
  induction m with
  | nil => simp [Memory.write]
  | cons a t ih =>
    obtain ⟨a, u⟩ := a
    obtain ⟨ha, ht⟩ := List.pairwise_cons.1 h
    simp only [Memory.write]
    split
    · rename_i hi
      refine List.pairwise_cons.2 ⟨?_, h⟩
      intro x hx
      rcases List.mem_cons.1 hx with rfl | hx
      · exact hi
      · exact lt_trans hi (ha x hx)
    · split
      · rename_i h1 h2
        subst h2
        exact List.pairwise_cons.2 ⟨ha, ht⟩
      · rename_i h1 h2
        refine List.pairwise_cons.2 ⟨?_, ih ht⟩
        intro x hx
        rcases Memory.mem_write hx with rfl | hx
        · show a < i; omega
        · exact ha x hx

/-- A write to one of the N slots keeps every listed slot one of them. -/
theorem Memory.write_inRange {m : Memory} {n i : Nat} (v : Nat) (hi : i < n) (h : Memory.inRange n m = true) :
    Memory.inRange n (Memory.write m i v) = true := by
  simp only [Memory.inRange, List.all_eq_true, decide_eq_true_eq] at h ⊢
  intro x hx
  rcases Memory.mem_write hx with rfl | hx
  · exact hi
  · exact h x hx

/-- A write of a DATA_W-bit value keeps every listed slot within its width. -/
theorem Memory.write_inWidth {m : Memory} {dataW v : Nat} (i : Nat) (hv : v < 2 ^ dataW) (h : Memory.inWidth dataW m = true) :
    Memory.inWidth dataW (Memory.write m i v) = true := by
  simp only [Memory.inWidth, List.all_eq_true, decide_eq_true_eq] at h ⊢
  intro x hx
  rcases Memory.mem_write hx with rfl | hx
  · exact hv
  · exact h x hx

end Sys2Proof.Machine
end

