-- ==== Sys2Proof/Laws/State.lean ====
section
/-! SUPPORT. One lemma per field of State for each named update, true by definition, so that no proof unfolds an update. -/

namespace Sys2Proof.Machine

open Sys2Proof

@[simp] theorem State.withFifo_cfg (s : State) (f : Fifo) : (s.withFifo f).cfg = s.cfg := rfl

@[simp] theorem State.withFifo_trace (s : State) (f : Fifo) : (s.withFifo f).trace = s.trace := rfl

@[simp] theorem State.withFifo_wHeld (s : State) (f : Fifo) : (s.withFifo f).wHeld = s.wHeld := rfl

@[simp] theorem State.withFifo_rHeld (s : State) (f : Fifo) : (s.withFifo f).rHeld = s.rHeld := rfl

@[simp] theorem State.withFifo_sinceTick (s : State) (f : Fifo) : (s.withFifo f).sinceTick = s.sinceTick := rfl

@[simp] theorem State.withFifo_fifo (s : State) (f : Fifo) : (s.withFifo f).fifo = f := rfl

@[simp] theorem State.withFifo_parser (s : State) (f : Fifo) : (s.withFifo f).parser = s.parser := rfl

@[simp] theorem State.withFifo_debounce (s : State) (f : Fifo) : (s.withFifo f).debounce = s.debounce := rfl

@[simp] theorem State.withFifo_seq (s : State) (f : Fifo) : (s.withFifo f).seq = s.seq := rfl

@[simp] theorem State.withFifo_txLog (s : State) (f : Fifo) : (s.withFifo f).txLog = s.txLog := rfl

@[simp] theorem State.withFifo_obs (s : State) (f : Fifo) : (s.withFifo f).obs = s.obs := rfl

@[simp] theorem State.withParser_cfg (s : State) (p : Parser) : (s.withParser p).cfg = s.cfg := rfl

@[simp] theorem State.withParser_trace (s : State) (p : Parser) : (s.withParser p).trace = s.trace := rfl

@[simp] theorem State.withParser_wHeld (s : State) (p : Parser) : (s.withParser p).wHeld = s.wHeld := rfl

@[simp] theorem State.withParser_rHeld (s : State) (p : Parser) : (s.withParser p).rHeld = s.rHeld := rfl

@[simp] theorem State.withParser_sinceTick (s : State) (p : Parser) : (s.withParser p).sinceTick = s.sinceTick := rfl

@[simp] theorem State.withParser_fifo (s : State) (p : Parser) : (s.withParser p).fifo = s.fifo := rfl

@[simp] theorem State.withParser_parser (s : State) (p : Parser) : (s.withParser p).parser = p := rfl

@[simp] theorem State.withParser_debounce (s : State) (p : Parser) : (s.withParser p).debounce = s.debounce := rfl

@[simp] theorem State.withParser_seq (s : State) (p : Parser) : (s.withParser p).seq = s.seq := rfl

@[simp] theorem State.withParser_txLog (s : State) (p : Parser) : (s.withParser p).txLog = s.txLog := rfl

@[simp] theorem State.withParser_obs (s : State) (p : Parser) : (s.withParser p).obs = s.obs := rfl

@[simp] theorem State.withDebounce_cfg (s : State) (d : Debounce) : (s.withDebounce d).cfg = s.cfg := rfl

@[simp] theorem State.withDebounce_trace (s : State) (d : Debounce) : (s.withDebounce d).trace = s.trace := rfl

@[simp] theorem State.withDebounce_wHeld (s : State) (d : Debounce) : (s.withDebounce d).wHeld = s.wHeld := rfl

@[simp] theorem State.withDebounce_rHeld (s : State) (d : Debounce) : (s.withDebounce d).rHeld = s.rHeld := rfl

@[simp] theorem State.withDebounce_sinceTick (s : State) (d : Debounce) : (s.withDebounce d).sinceTick = s.sinceTick := rfl

@[simp] theorem State.withDebounce_fifo (s : State) (d : Debounce) : (s.withDebounce d).fifo = s.fifo := rfl

@[simp] theorem State.withDebounce_parser (s : State) (d : Debounce) : (s.withDebounce d).parser = s.parser := rfl

@[simp] theorem State.withDebounce_debounce (s : State) (d : Debounce) : (s.withDebounce d).debounce = d := rfl

@[simp] theorem State.withDebounce_seq (s : State) (d : Debounce) : (s.withDebounce d).seq = s.seq := rfl

@[simp] theorem State.withDebounce_txLog (s : State) (d : Debounce) : (s.withDebounce d).txLog = s.txLog := rfl

@[simp] theorem State.withDebounce_obs (s : State) (d : Debounce) : (s.withDebounce d).obs = s.obs := rfl

@[simp] theorem State.withSeq_cfg (s : State) (q : Sequencer) : (s.withSeq q).cfg = s.cfg := rfl

@[simp] theorem State.withSeq_trace (s : State) (q : Sequencer) : (s.withSeq q).trace = s.trace := rfl

@[simp] theorem State.withSeq_wHeld (s : State) (q : Sequencer) : (s.withSeq q).wHeld = s.wHeld := rfl

@[simp] theorem State.withSeq_rHeld (s : State) (q : Sequencer) : (s.withSeq q).rHeld = s.rHeld := rfl

@[simp] theorem State.withSeq_sinceTick (s : State) (q : Sequencer) : (s.withSeq q).sinceTick = s.sinceTick := rfl

@[simp] theorem State.withSeq_fifo (s : State) (q : Sequencer) : (s.withSeq q).fifo = s.fifo := rfl

@[simp] theorem State.withSeq_parser (s : State) (q : Sequencer) : (s.withSeq q).parser = s.parser := rfl

@[simp] theorem State.withSeq_debounce (s : State) (q : Sequencer) : (s.withSeq q).debounce = s.debounce := rfl

@[simp] theorem State.withSeq_seq (s : State) (q : Sequencer) : (s.withSeq q).seq = q := rfl

@[simp] theorem State.withSeq_txLog (s : State) (q : Sequencer) : (s.withSeq q).txLog = s.txLog := rfl

@[simp] theorem State.withSeq_obs (s : State) (q : Sequencer) : (s.withSeq q).obs = s.obs := rfl

@[simp] theorem State.withTrace_cfg (s : State) (t : List HostStep) : (s.withTrace t).cfg = s.cfg := rfl

@[simp] theorem State.withTrace_trace (s : State) (t : List HostStep) : (s.withTrace t).trace = t := rfl

@[simp] theorem State.withTrace_wHeld (s : State) (t : List HostStep) : (s.withTrace t).wHeld = s.wHeld := rfl

@[simp] theorem State.withTrace_rHeld (s : State) (t : List HostStep) : (s.withTrace t).rHeld = s.rHeld := rfl

@[simp] theorem State.withTrace_sinceTick (s : State) (t : List HostStep) : (s.withTrace t).sinceTick = s.sinceTick := rfl

@[simp] theorem State.withTrace_fifo (s : State) (t : List HostStep) : (s.withTrace t).fifo = s.fifo := rfl

@[simp] theorem State.withTrace_parser (s : State) (t : List HostStep) : (s.withTrace t).parser = s.parser := rfl

@[simp] theorem State.withTrace_debounce (s : State) (t : List HostStep) : (s.withTrace t).debounce = s.debounce := rfl

@[simp] theorem State.withTrace_seq (s : State) (t : List HostStep) : (s.withTrace t).seq = s.seq := rfl

@[simp] theorem State.withTrace_txLog (s : State) (t : List HostStep) : (s.withTrace t).txLog = s.txLog := rfl

@[simp] theorem State.withTrace_obs (s : State) (t : List HostStep) : (s.withTrace t).obs = s.obs := rfl

@[simp] theorem State.withHeld_cfg (s : State) (w r : Bool) : (s.withHeld w r).cfg = s.cfg := rfl

@[simp] theorem State.withHeld_trace (s : State) (w r : Bool) : (s.withHeld w r).trace = s.trace := rfl

@[simp] theorem State.withHeld_wHeld (s : State) (w r : Bool) : (s.withHeld w r).wHeld = w := rfl

@[simp] theorem State.withHeld_rHeld (s : State) (w r : Bool) : (s.withHeld w r).rHeld = r := rfl

@[simp] theorem State.withHeld_sinceTick (s : State) (w r : Bool) : (s.withHeld w r).sinceTick = s.sinceTick := rfl

@[simp] theorem State.withHeld_fifo (s : State) (w r : Bool) : (s.withHeld w r).fifo = s.fifo := rfl

@[simp] theorem State.withHeld_parser (s : State) (w r : Bool) : (s.withHeld w r).parser = s.parser := rfl

@[simp] theorem State.withHeld_debounce (s : State) (w r : Bool) : (s.withHeld w r).debounce = s.debounce := rfl

@[simp] theorem State.withHeld_seq (s : State) (w r : Bool) : (s.withHeld w r).seq = s.seq := rfl

@[simp] theorem State.withHeld_txLog (s : State) (w r : Bool) : (s.withHeld w r).txLog = s.txLog := rfl

@[simp] theorem State.withHeld_obs (s : State) (w r : Bool) : (s.withHeld w r).obs = s.obs := rfl

@[simp] theorem State.withSinceTick_cfg (s : State) (k : Option Nat) : (s.withSinceTick k).cfg = s.cfg := rfl

@[simp] theorem State.withSinceTick_trace (s : State) (k : Option Nat) : (s.withSinceTick k).trace = s.trace := rfl

@[simp] theorem State.withSinceTick_wHeld (s : State) (k : Option Nat) : (s.withSinceTick k).wHeld = s.wHeld := rfl

@[simp] theorem State.withSinceTick_rHeld (s : State) (k : Option Nat) : (s.withSinceTick k).rHeld = s.rHeld := rfl

@[simp] theorem State.withSinceTick_sinceTick (s : State) (k : Option Nat) : (s.withSinceTick k).sinceTick = k := rfl

@[simp] theorem State.withSinceTick_fifo (s : State) (k : Option Nat) : (s.withSinceTick k).fifo = s.fifo := rfl

@[simp] theorem State.withSinceTick_parser (s : State) (k : Option Nat) : (s.withSinceTick k).parser = s.parser := rfl

@[simp] theorem State.withSinceTick_debounce (s : State) (k : Option Nat) : (s.withSinceTick k).debounce = s.debounce := rfl

@[simp] theorem State.withSinceTick_seq (s : State) (k : Option Nat) : (s.withSinceTick k).seq = s.seq := rfl

@[simp] theorem State.withSinceTick_txLog (s : State) (k : Option Nat) : (s.withSinceTick k).txLog = s.txLog := rfl

@[simp] theorem State.withSinceTick_obs (s : State) (k : Option Nat) : (s.withSinceTick k).obs = s.obs := rfl

@[simp] theorem State.report_cfg (s : State) (r : Result) (o : Option ParseOutcome) (k : Option Cause) : (s.report r o k).cfg = s.cfg := rfl

@[simp] theorem State.report_trace (s : State) (r : Result) (o : Option ParseOutcome) (k : Option Cause) : (s.report r o k).trace = s.trace := rfl

@[simp] theorem State.report_wHeld (s : State) (r : Result) (o : Option ParseOutcome) (k : Option Cause) : (s.report r o k).wHeld = s.wHeld := rfl

@[simp] theorem State.report_rHeld (s : State) (r : Result) (o : Option ParseOutcome) (k : Option Cause) : (s.report r o k).rHeld = s.rHeld := rfl

@[simp] theorem State.report_sinceTick (s : State) (r : Result) (o : Option ParseOutcome) (k : Option Cause) : (s.report r o k).sinceTick = s.sinceTick := rfl

@[simp] theorem State.report_fifo (s : State) (r : Result) (o : Option ParseOutcome) (k : Option Cause) : (s.report r o k).fifo = s.fifo := rfl

@[simp] theorem State.report_parser (s : State) (r : Result) (o : Option ParseOutcome) (k : Option Cause) : (s.report r o k).parser = s.parser := rfl

@[simp] theorem State.report_debounce (s : State) (r : Result) (o : Option ParseOutcome) (k : Option Cause) : (s.report r o k).debounce = s.debounce := rfl

@[simp] theorem State.report_seq (s : State) (r : Result) (o : Option ParseOutcome) (k : Option Cause) : (s.report r o k).seq = s.seq := rfl

@[simp] theorem State.report_txLog (s : State) (r : Result) (o : Option ParseOutcome) (k : Option Cause) : (s.report r o k).txLog = s.txLog := rfl

@[simp] theorem State.report_obs (s : State) (r : Result) (o : Option ParseOutcome) (k : Option Cause) : (s.report r o k).obs = ⟨r, o, k⟩ := rfl

@[simp] theorem State.logTx_cfg (s : State) (e : TxEvent) : (s.logTx e).cfg = s.cfg := rfl

@[simp] theorem State.logTx_trace (s : State) (e : TxEvent) : (s.logTx e).trace = s.trace := rfl

@[simp] theorem State.logTx_wHeld (s : State) (e : TxEvent) : (s.logTx e).wHeld = s.wHeld := rfl

@[simp] theorem State.logTx_rHeld (s : State) (e : TxEvent) : (s.logTx e).rHeld = s.rHeld := rfl

@[simp] theorem State.logTx_sinceTick (s : State) (e : TxEvent) : (s.logTx e).sinceTick = s.sinceTick := rfl

@[simp] theorem State.logTx_fifo (s : State) (e : TxEvent) : (s.logTx e).fifo = s.fifo := rfl

@[simp] theorem State.logTx_parser (s : State) (e : TxEvent) : (s.logTx e).parser = s.parser := rfl

@[simp] theorem State.logTx_debounce (s : State) (e : TxEvent) : (s.logTx e).debounce = s.debounce := rfl

@[simp] theorem State.logTx_seq (s : State) (e : TxEvent) : (s.logTx e).seq = s.seq := rfl

@[simp] theorem State.logTx_txLog (s : State) (e : TxEvent) : (s.logTx e).txLog = s.txLog ++ [e] := rfl

@[simp] theorem State.logTx_obs (s : State) (e : TxEvent) : (s.logTx e).obs = s.obs := rfl

@[simp] theorem State.toPhase_cfg (s : State) (p : Phase) : (s.toPhase p).cfg = s.cfg := rfl

@[simp] theorem State.toPhase_trace (s : State) (p : Phase) : (s.toPhase p).trace = s.trace := rfl

@[simp] theorem State.toPhase_wHeld (s : State) (p : Phase) : (s.toPhase p).wHeld = s.wHeld := rfl

@[simp] theorem State.toPhase_rHeld (s : State) (p : Phase) : (s.toPhase p).rHeld = s.rHeld := rfl

@[simp] theorem State.toPhase_sinceTick (s : State) (p : Phase) : (s.toPhase p).sinceTick = s.sinceTick := rfl

@[simp] theorem State.toPhase_fifo (s : State) (p : Phase) : (s.toPhase p).fifo = s.fifo := rfl

@[simp] theorem State.toPhase_parser (s : State) (p : Phase) : (s.toPhase p).parser = s.parser := rfl

@[simp] theorem State.toPhase_debounce (s : State) (p : Phase) : (s.toPhase p).debounce = s.debounce := rfl

@[simp] theorem State.toPhase_seq (s : State) (p : Phase) : (s.toPhase p).seq = { s.seq with phase := p } := rfl

@[simp] theorem State.toPhase_txLog (s : State) (p : Phase) : (s.toPhase p).txLog = s.txLog := rfl

@[simp] theorem State.toPhase_obs (s : State) (p : Phase) : (s.toPhase p).obs = s.obs := rfl

@[simp] theorem State.emit_cfg (s : State) (m : Message) : (s.emit m).cfg = s.cfg := rfl

@[simp] theorem State.emit_trace (s : State) (m : Message) : (s.emit m).trace = s.trace := rfl

@[simp] theorem State.emit_wHeld (s : State) (m : Message) : (s.emit m).wHeld = s.wHeld := rfl

@[simp] theorem State.emit_rHeld (s : State) (m : Message) : (s.emit m).rHeld = s.rHeld := rfl

@[simp] theorem State.emit_sinceTick (s : State) (m : Message) : (s.emit m).sinceTick = s.sinceTick := rfl

@[simp] theorem State.emit_fifo (s : State) (m : Message) : (s.emit m).fifo = s.fifo := rfl

@[simp] theorem State.emit_parser (s : State) (m : Message) : (s.emit m).parser = s.parser := rfl

@[simp] theorem State.emit_debounce (s : State) (m : Message) : (s.emit m).debounce = s.debounce := rfl

@[simp] theorem State.emit_seq (s : State) (m : Message) : (s.emit m).seq = { s.seq with out := m.pack } := rfl

@[simp] theorem State.emit_txLog (s : State) (m : Message) : (s.emit m).txLog = s.txLog ++ [.send m] ++ [.flush] := rfl

@[simp] theorem State.emit_obs (s : State) (m : Message) : (s.emit m).obs = s.obs := rfl

@[simp] theorem State.emitIf_cfg (s : State) (b : Bool) (m : Message) : (s.emitIf b m).cfg = s.cfg := by cases b <;> rfl

@[simp] theorem State.emitIf_trace (s : State) (b : Bool) (m : Message) : (s.emitIf b m).trace = s.trace := by cases b <;> rfl

@[simp] theorem State.emitIf_wHeld (s : State) (b : Bool) (m : Message) : (s.emitIf b m).wHeld = s.wHeld := by cases b <;> rfl

@[simp] theorem State.emitIf_rHeld (s : State) (b : Bool) (m : Message) : (s.emitIf b m).rHeld = s.rHeld := by cases b <;> rfl

@[simp] theorem State.emitIf_sinceTick (s : State) (b : Bool) (m : Message) : (s.emitIf b m).sinceTick = s.sinceTick := by cases b <;> rfl

@[simp] theorem State.emitIf_fifo (s : State) (b : Bool) (m : Message) : (s.emitIf b m).fifo = s.fifo := by cases b <;> rfl

@[simp] theorem State.emitIf_parser (s : State) (b : Bool) (m : Message) : (s.emitIf b m).parser = s.parser := by cases b <;> rfl

@[simp] theorem State.emitIf_debounce (s : State) (b : Bool) (m : Message) : (s.emitIf b m).debounce = s.debounce := by cases b <;> rfl

@[simp] theorem State.emitIf_obs (s : State) (b : Bool) (m : Message) : (s.emitIf b m).obs = s.obs := by cases b <;> rfl

@[simp] theorem State.emitIf_seq (s : State) (b : Bool) (m : Message) :
    (s.emitIf b m).seq = if b then { s.seq with out := m.pack } else s.seq := by cases b <;> rfl

@[simp] theorem State.emitIf_txLog (s : State) (b : Bool) (m : Message) :
    (s.emitIf b m).txLog = s.txLog ++ if b then [.send m, .flush] else [] := by
  cases b
  · exact (List.append_nil _).symm
  · exact List.append_assoc ..

@[simp] theorem resetEvent_cfg (s : State) : (resetEvent s).cfg = s.cfg := rfl

@[simp] theorem resetEvent_trace (s : State) : (resetEvent s).trace = s.trace := rfl

@[simp] theorem resetEvent_wHeld (s : State) : (resetEvent s).wHeld = false := rfl

@[simp] theorem resetEvent_rHeld (s : State) : (resetEvent s).rHeld = false := rfl

@[simp] theorem resetEvent_sinceTick (s : State) : (resetEvent s).sinceTick = none := rfl

@[simp] theorem resetEvent_fifo (s : State) : (resetEvent s).fifo = Fifo.atReset s.cfg := rfl

@[simp] theorem resetEvent_parser (s : State) : (resetEvent s).parser = Parser.atReset := rfl

@[simp] theorem resetEvent_debounce (s : State) : (resetEvent s).debounce = Debounce.atReset s.cfg := rfl

@[simp] theorem resetEvent_seq (s : State) : (resetEvent s).seq = Sequencer.atReset := rfl

@[simp] theorem resetEvent_txLog (s : State) : (resetEvent s).txLog = [] := rfl

@[simp] theorem resetEvent_obs (s : State) : (resetEvent s).obs = ⟨.unit, none, none⟩ := rfl

/-- The last report is the one that is seen. -/
@[simp] theorem State.report_report (s : State) (r r' : Result) (o o' : Option ParseOutcome) (k k' : Option Cause) :
    (s.report r o k).report r' o' k' = s.report r' o' k' := rfl

/-- Two states are equal when their groups are. -/
theorem State.eq_of_groups {s t : State} (h1 : s.cfg = t.cfg) (h2 : s.trace = t.trace) (h3 : s.wHeld = t.wHeld)
    (h4 : s.rHeld = t.rHeld) (h11 : s.sinceTick = t.sinceTick) (h5 : s.fifo = t.fifo) (h6 : s.parser = t.parser) (h7 : s.debounce = t.debounce)
    (h8 : s.seq = t.seq) (h9 : s.txLog = t.txLog) (h10 : s.obs = t.obs) : s = t := by
  cases s; cases t; simp_all

end Sys2Proof.Machine
end

