-- ==== Sys2Proof/Laws/Fifo.lean ====
section
/-! SUPPORT. The FIFO's operations keep its invariant, and what its status values and its pop are in terms of the ghost counters
(10_state.md R41, 20_memory.md R50 to R53, R58, R59). -/

namespace Sys2Proof.Machine

open Sys2Proof

theorem exact_stages {c : Config} (h : c.exact = true) : c.syncStages = 0 := by
  simp only [Config.exact, Bool.and_eq_true, beq_iff_eq] at h
  exact h.2

theorem stages_exact {c : Config} (hl : c.legal = true) (h : c.syncStages = 0) : c.exact = true := by
  have := legal_stages hl
  simp only [Config.exact, Bool.and_eq_true, Bool.not_eq_true', beq_iff_eq]
  refine ⟨?_, h⟩
  rcases this with h' | h'
  · exact h'
  · omega

/-- A chain all of whose stages hold one count. -/
theorem ChainInv.replicate {c : Config} {now k : Nat} (hk : k ≤ now) (h0 : c.syncStages = 0 → now = k) :
    ChainInv c (List.replicate c.syncStages (bin2gray (k % c.ptrMod))) now k := by
  refine ⟨List.replicate c.syncStages k, by simp, by simp, ?_, ?_⟩
  · refine List.pairwise_cons.2 ⟨?_, List.pairwise_replicate.2 (.inr (le_refl k))⟩
    intro a ha
    rw [(List.mem_replicate.1 ha).2]
    exact hk
  · cases hs : c.syncStages with
    | zero => simpa [hs] using h0 hs
    | succ m =>
      rw [List.getLastD_eq_getLast?, List.getLast?_replicate]
      simp

/-- With no stages the copy is the pointer (R25). -/
theorem ChainInv.no_stages {c : Config} {chain : List Nat} {now copy : Nat} (h : ChainInv c chain now copy)
    (h0 : c.syncStages = 0) : now = copy := by
  obtain ⟨cs, hl, -, -, hc⟩ := h
  rw [h0] at hl
  rw [List.length_eq_zero_iff.1 hl] at hc
  simpa using hc

/-- A chain stays good while the pointer advances, with stages (R93). -/
theorem ChainInv.advance {c : Config} {chain : List Nat} {now now' copy : Nat} (h : ChainInv c chain now copy)
    (hle : now ≤ now') (h0 : c.syncStages ≠ 0) : ChainInv c chain now' copy := by
  obtain ⟨cs, hl, hm, hp, hc⟩ := h
  refine ⟨cs, hl, hm, ?_, ?_⟩
  · obtain ⟨h1, h2⟩ := List.pairwise_cons.1 hp
    exact List.pairwise_cons.2 ⟨fun a ha => le_trans (h1 a ha) hle, h2⟩
  · cases cs with
    | nil => simp at hl; omega
    | cons a t =>
      rw [List.getLastD_eq_getLast?, List.getLast?_eq_some_getLast (by simp)] at hc ⊢
      exact hc

theorem getLastD_le_head {cs : List Nat} {now d : Nat} (hp : List.Pairwise (fun a b => b ≤ a) (now :: cs)) (hd : d ≤ now) :
    cs.getLastD d ≤ now := by
  rw [List.getLastD_eq_getLast?]
  cases h : cs.getLast? with
  | none => simpa using hd
  | some x => simpa using (List.pairwise_cons.1 hp).1 x (List.mem_of_getLast? h)

/-- One shift of a chain (R93): it stays good, and the copy's new count lies between the old one and the sampled one. -/
theorem ChainInv.shift {c : Config} {chain : List Nat} {now copy sampled : Nat} (h : ChainInv c chain sampled copy)
    (hs : sampled ≤ now) (h0 : c.syncStages ≠ 0) :
    ∃ copy', copy ≤ copy' ∧ copy' ≤ sampled ∧
      ((bin2gray (sampled % c.ptrMod) :: chain).take c.syncStages).getLastD 0 = bin2gray (copy' % c.ptrMod) ∧
      ChainInv c ((bin2gray (sampled % c.ptrMod) :: chain).take c.syncStages) now copy' := by
  obtain ⟨cs, hl, hm, hp, hc⟩ := h
  obtain ⟨m, hm'⟩ := Nat.exists_eq_succ_of_ne_zero h0
  have htake : (bin2gray (sampled % c.ptrMod) :: chain).take c.syncStages =
      ((sampled :: cs).take c.syncStages).map (fun k => bin2gray (k % c.ptrMod)) := by
    rw [List.map_take, List.map_cons, hm]
  have hne : (sampled :: cs).take c.syncStages ≠ [] := by rw [hm']; simp
  have hlen : ((sampled :: cs).take c.syncStages).length = c.syncStages := by
    rw [List.length_take, List.length_cons, hl]; omega
  have hpt : List.Pairwise (fun a b => b ≤ a) ((sampled :: cs).take c.syncStages) := hp.take
  have hmem : ((sampled :: cs).take c.syncStages).getLast hne ∈ (sampled :: cs).take c.syncStages := List.getLast_mem hne
  have hall : ∀ x ∈ (sampled :: cs).take c.syncStages, x ≤ sampled := by
    intro x hx
    rcases List.mem_cons.1 (List.mem_of_mem_take hx) with rfl | hx
    · exact le_refl _
    · exact (List.pairwise_cons.1 hp).1 x hx
  refine ⟨((sampled :: cs).take c.syncStages).getLast hne, ?_, hall _ hmem, ?_, ?_⟩
  · have hne' : cs ≠ [] := by
      intro e
      rw [e, List.length_nil] at hl
      omega
    have hcopy : copy = cs.getLast hne' := by
      rw [← hc, List.getLastD_eq_getLast?, List.getLast?_eq_some_getLast hne']; rfl
    have hsplit : sampled :: cs = (sampled :: cs).take c.syncStages ++ [cs.getLast hne'] := by
      have h1 : (sampled :: cs).length = c.syncStages + 1 := by simp [hl]
      have h2 := List.take_append_drop c.syncStages (sampled :: cs)
      have h3 : (sampled :: cs).drop c.syncStages = [cs.getLast hne'] := by
        have : c.syncStages = (sampled :: cs).length - 1 := by omega
        rw [this, List.drop_length_sub_one (by simp)]
        simp [List.getLast_cons hne']
      rw [h3] at h2
      exact h2.symm
    rw [hcopy]
    have hp' := hp
    rw [hsplit] at hp'
    exact (List.pairwise_append.1 hp').2.2 _ hmem _ (List.mem_singleton_self _)
  · rw [htake, List.getLastD_eq_getLast?, List.getLast?_map, List.getLast?_eq_some_getLast hne]
    rfl
  · refine ⟨(sampled :: cs).take c.syncStages, hlen, htake, ?_, ?_⟩
    · exact List.pairwise_cons.2 ⟨fun a ha => le_trans (hall a ha) hs, hpt⟩
    · rw [List.getLastD_eq_getLast?, List.getLast?_eq_some_getLast hne]
      rfl

/-- What one shift leaves in a chain of full length with stages (R93), for either domain. -/
theorem ChainShifted.of_take {c : Config} {sampled : Nat} {old : List Nat} (hl : old.length = c.syncStages) (h0 : c.syncStages ≠ 0) :
    ChainShifted c sampled old ((sampled :: old).take c.syncStages)
      (gray2bin c.ctrW (((sampled :: old).take c.syncStages).getLastD 0)) := by
  have hlen : ((sampled :: old).take c.syncStages).length = c.syncStages := by
    rw [List.length_take, List.length_cons, hl]; omega
  refine ⟨hlen, ?_, ?_, ?_⟩
  · rw [List.getElem?_take_of_lt (by omega)]; rfl
  · intro k hk
    rw [List.getElem?_take_of_lt hk]; rfl
  · have hne : (sampled :: old).take c.syncStages ≠ [] := fun e => by rw [e] at hlen; exact h0 hlen.symm
    have hlast : ((sampled :: old).take c.syncStages)[c.syncStages - 1]? = ((sampled :: old).take c.syncStages).getLast? := by
      rw [List.getLast?_eq_getElem?, hlen]
    rw [hlast, List.getLastD_eq_getLast?, List.getLast?_eq_some_getLast hne]
    rfl

/-- A chain of the invariant has SYNC_STAGES stages (R25). -/
theorem ChainInv.length {c : Config} {chain : List Nat} {now copy : Nat} (h : ChainInv c chain now copy) :
    chain.length = c.syncStages := by
  obtain ⟨cs, hl, hm, -, -⟩ := h
  rw [hm, List.length_map, hl]

section Levels

variable {c : Config} {f : Fifo}

/-- The write domain's level is W# - WQR# (R38, R97). -/
theorem FifoInv.wlevel_eq (hl : c.legal = true) (h : FifoInv c f) : wlevel c f = f.ghost.w - f.ghost.wqr := by
  have := h.wqr_le_r; have := h.r_le_rqw; have := h.rqw_le_w; have := h.room
  have := capacity_le_ptrMod hl; have := (legal_capacity hl).2
  rw [wlevel, h.wptr, h.wqRptr, ptrSub_count (by omega) (by omega)]

/-- The read domain's level is RQW# - R# (R38, R97). -/
theorem FifoInv.rlevel_eq (hl : c.legal = true) (h : FifoInv c f) : rlevel c f = f.ghost.rqw - f.ghost.r := by
  have := h.wqr_le_r; have := h.r_le_rqw; have := h.rqw_le_w; have := h.room
  have := capacity_le_ptrMod hl; have := (legal_capacity hl).2
  rw [rlevel, h.rqWptr, h.rptr, ptrSub_count (by omega) (by omega)]

/-- The read domain sees the buffer empty exactly when R# = RQW#. -/
theorem FifoInv.rempty_iff (hl : c.legal = true) (h : FifoInv c f) : rempty f = true ↔ f.ghost.r = f.ghost.rqw := by
  have := h.wqr_le_r; have := h.r_le_rqw; have := h.rqw_le_w; have := h.room
  have := capacity_le_ptrMod hl; have := (legal_capacity hl).2
  rw [rempty, beq_iff_eq, h.rqWptr, h.rptr]
  exact ⟨count_eq_of_mod_eq (by omega) (by omega), fun e => by rw [e]⟩

/-- The write domain sees the buffer full exactly when W# - WQR# = N - 1. -/
theorem FifoInv.wfull_iff (hl : c.legal = true) (h : FifoInv c f) :
    wfull c f = true ↔ f.ghost.w = f.ghost.wqr + (c.n - 1) := by
  have := h.wqr_le_r; have := h.r_le_rqw; have := h.rqw_le_w
  rw [wfull, beq_iff_eq, h.wlevel_eq hl]
  omega

/-- R50, R58: while the read domain sees an element, the slot it reads holds push number R#. -/
theorem FifoInv.read_oldest (hl : c.legal = true) (h : FifoInv c f) (he : rempty f = false) :
    Memory.read f.mem (slotIdx c f.rptr) = f.ghost.pushed[f.ghost.r]? ∧ f.ghost.r < f.ghost.rqw := by
  have h1 := h.r_le_rqw
  have h2 := h.rqw_le_w
  have h3 : f.ghost.r ≠ f.ghost.rqw := fun e => by
    rw [(h.rempty_iff hl).2 e] at he
    exact Bool.noConfusion he
  refine ⟨?_, by omega⟩
  rw [h.rptr, slotIdx_count hl]
  exact h.unread _ (le_refl _) (by omega)

/-- The next element a pop gives, as a member of the list of pushes. -/
theorem FifoInv.oldest (hl : c.legal = true) (h : FifoInv c f) (he : rempty f = false) :
    ∃ v, f.ghost.pushed[f.ghost.r]? = some v ∧ Memory.read f.mem (slotIdx c f.rptr) = some v := by
  obtain ⟨h1, h2⟩ := h.read_oldest hl he
  have h3 := h.rqw_le_w
  have h4 : f.ghost.r < f.ghost.pushed.length := by
    change f.ghost.r < f.ghost.w; omega
  exact ⟨f.ghost.pushed[f.ghost.r], List.getElem?_eq_getElem h4, by rw [h1, List.getElem?_eq_getElem h4]⟩

end Levels

section Keep

variable {c : Config} {f : Fifo}

/-- The reset FIFO is good. -/
theorem FifoInv.atReset (c : Config) : FifoInv c (Fifo.atReset c) := by
  have hz : bin2gray (0 % c.ptrMod) = 0 := by simp [bin2gray]
  have hc : ChainInv c (List.replicate c.syncStages 0) 0 0 := by
    have := ChainInv.replicate (c := c) (le_refl 0) (fun _ => rfl)
    rwa [hz] at this
  constructor <;> simp [Fifo.atReset, Memory.wf, Memory.inRange, Memory.inWidth, Ghost.w, Ghost.r, bin2gray, hc]

/-- SYNCW to any count between the copy's and the pointer's keeps the invariant (R94). -/
theorem FifoInv.crossWTo {v : Nat} (h : FifoInv c f) (h1 : f.ghost.rqw ≤ v) (h2 : v ≤ f.ghost.w) :
    FifoInv c (f.crossWTo c v) := by
  have h3 := h.r_le_rqw
  exact
    { memWf := h.memWf, memRange := h.memRange, memWidth := h.memWidth, wptr := h.wptr, rptr := h.rptr, rqWptr := rfl, wqRptr := h.wqRptr
      wgray := h.wgray, rgray := h.rgray
      wchain := ChainInv.replicate h2 fun h0 => by
        have := h.wchain.no_stages h0
        change f.ghost.w = v
        omega
      rchain := h.rchain, wqr_le_r := h.wqr_le_r
      r_le_rqw := by change f.ghost.r ≤ v; omega
      rqw_le_w := h2, room := h.room, fifoOrder := h.fifoOrder, unread := h.unread }

/-- SYNCR to any count between the copy's and the pointer's keeps the invariant (R94). -/
theorem FifoInv.crossRTo {v : Nat} (h : FifoInv c f) (h1 : f.ghost.wqr ≤ v) (h2 : v ≤ f.ghost.r) :
    FifoInv c (f.crossRTo c v) :=
  { memWf := h.memWf, memRange := h.memRange, memWidth := h.memWidth, wptr := h.wptr, rptr := h.rptr, rqWptr := h.rqWptr, wqRptr := rfl
    wgray := h.wgray, rgray := h.rgray, wchain := h.wchain
    rchain := ChainInv.replicate h2 fun h0 => by
      have := h.rchain.no_stages h0
      change f.ghost.r = v
      omega
    wqr_le_r := h2, r_le_rqw := h.r_le_rqw, rqw_le_w := h.rqw_le_w
    room := by
      have := h.room
      change f.ghost.w ≤ v + (c.n - 1)
      omega
    fifoOrder := h.fifoOrder, unread := h.unread }

/-- SYNCW is its range form at the pointer's own count. -/
theorem Fifo.crossW_eq (hp : f.wptr = f.ghost.w % c.ptrMod) : f.crossW c = f.crossWTo c f.ghost.w := by
  simp only [Fifo.crossW, Fifo.crossWTo, hp]

/-- SYNCR is its range form at the pointer's own count. -/
theorem Fifo.crossR_eq (hp : f.rptr = f.ghost.r % c.ptrMod) : f.crossR c = f.crossRTo c f.ghost.r := by
  simp only [Fifo.crossR, Fifo.crossRTo, hp]

theorem FifoInv.crossW (h : FifoInv c f) : FifoInv c (f.crossW c) := by
  rw [Fifo.crossW_eq h.wptr]
  exact h.crossWTo h.rqw_le_w (le_refl _)

theorem FifoInv.crossR (h : FifoInv c f) : FifoInv c (f.crossR c) := by
  rw [Fifo.crossR_eq h.rptr]
  exact h.crossRTo h.wqr_le_r (le_refl _)

/-- What a push stores, but for the exact configuration's chain, is good whenever the true room is: the fields that a fold of
SYNCW then sets are not needed (R52). -/
theorem FifoInv.store_fold {v : Nat} (hl : c.legal = true) (h : FifoInv c f) (hv : v < 2 ^ c.dataW)
    (hroom : f.ghost.w < f.ghost.wqr + (c.n - 1)) : FifoInv c ((f.store c v).foldW c) := by
  have hn := (legal_capacity hl).2
  have hw : (f.ghost.pushed ++ [v]).length = f.ghost.w + 1 := by simp [Ghost.w]
  have hwptr : ptrAdd c f.wptr 1 = (f.ghost.w + 1) % c.ptrMod := by rw [h.wptr, ptrAdd_count]
  have hslot : slotIdx c f.wptr = f.ghost.w % c.n := by rw [h.wptr, slotIdx_count hl]
  have h1 := h.wqr_le_r
  have h2 := h.r_le_rqw
  have h3 := h.rqw_le_w
  have hunread : ∀ k, f.ghost.r ≤ k → k < f.ghost.w + 1 →
      Memory.read (Memory.write f.mem (slotIdx c f.wptr) v) (k % c.n) = (f.ghost.pushed ++ [v])[k]? := by
    intro k hk1 hk2
    rcases Nat.lt_or_ge k f.ghost.w with hk | hk
    · rw [hslot, Memory.read_write_other, h.unread k hk1 hk, List.getElem?_append_left hk]
      intro e
      have hd : c.n ∣ f.ghost.w - k := (Nat.modEq_iff_dvd' (by omega)).1 e.symm
      have := Nat.le_of_dvd (by omega) hd
      omega
    · have : k = f.ghost.w := by omega
      subst this
      rw [hslot, Memory.read_write_same, List.getElem?_append_right (by simp [Ghost.w])]
      simp [Ghost.w]
  have htake : f.ghost.popped = (f.ghost.pushed ++ [v]).take f.ghost.r := by
    rw [List.take_append_of_le_length (by change f.ghost.r ≤ f.ghost.w; omega)]
    exact h.fifoOrder
  have base : ∀ (q : Nat) (chain : List Nat) (count : Nat), q = count % c.ptrMod → f.ghost.r ≤ count →
      count ≤ f.ghost.w + 1 → ChainInv c chain (f.ghost.w + 1) count →
      FifoInv c { f.store c v with rqWptr := q, w2r := chain, ghost := { (f.store c v).ghost with rqw := count } } := by
    intro q chain count hq hr hle hc
    exact
      { memWf := Memory.write_wf _ _ h.memWf
        memRange := Memory.write_inRange _ (by rw [hslot]; exact Nat.mod_lt _ (by omega)) h.memRange
        memWidth := Memory.write_inWidth _ hv h.memWidth
        wptr := by
          change ptrAdd c f.wptr 1 = (f.ghost.pushed ++ [v]).length % c.ptrMod
          rw [hw, hwptr]
        rptr := h.rptr, rqWptr := hq, wqRptr := h.wqRptr, wgray := rfl, rgray := h.rgray
        wchain := by
          change ChainInv c chain (f.ghost.pushed ++ [v]).length count
          rw [hw]; exact hc
        rchain := h.rchain, wqr_le_r := h.wqr_le_r, r_le_rqw := hr
        rqw_le_w := by
          change count ≤ (f.ghost.pushed ++ [v]).length
          rw [hw]; exact hle
        room := by
          change (f.ghost.pushed ++ [v]).length ≤ f.ghost.wqr + (c.n - 1)
          rw [hw]; omega
        fifoOrder := htake
        unread := by
          intro k hk1 hk2
          refine hunread k hk1 ?_
          have : k < (f.ghost.pushed ++ [v]).length := hk2
          omega }
  rw [Fifo.foldW]
  split
  · rename_i he
    have := base (ptrAdd c f.wptr 1) (List.replicate c.syncStages (bin2gray ((f.ghost.w + 1) % c.ptrMod))) (f.ghost.w + 1) hwptr
      (by omega) (le_refl _) (ChainInv.replicate (le_refl _) fun _ => rfl)
    have e : (f.store c v).crossW c = { f.store c v with
        rqWptr := ptrAdd c f.wptr 1
        w2r := List.replicate c.syncStages (bin2gray ((f.ghost.w + 1) % c.ptrMod))
        ghost := { (f.store c v).ghost with rqw := f.ghost.w + 1 } } := by
      simp only [Fifo.crossW, Fifo.store, Ghost.w, hwptr, List.length_append, List.length_singleton]
    rw [e]; exact this
  · rename_i he
    have h0 : c.syncStages ≠ 0 := fun h0 => he (stages_exact hl h0)
    exact base f.rqWptr f.w2r f.ghost.rqw h.rqWptr h2 (by omega) (h.wchain.advance (Nat.le_succ _) h0)

/-- A push keeps the invariant; `full` may be an older, larger view of the buffer (R53). -/
theorem FifoInv.pushIf {v : Nat} {full : Bool} (hl : c.legal = true) (h : FifoInv c f) (hv : v < 2 ^ c.dataW)
    (hf : full = false → f.ghost.w < f.ghost.wqr + (c.n - 1)) : FifoInv c (f.pushIf c full v) := by
  rw [Fifo.pushIf]
  split
  · exact h
  · rename_i hn
    exact h.store_fold hl hv (hf (by simpa using hn))

/-- The room a push needs, from the write domain's own view. -/
theorem FifoInv.room_of_not_full (hl : c.legal = true) (h : FifoInv c f) (hf : wfull c f = false) :
    f.ghost.w < f.ghost.wqr + (c.n - 1) := by
  have h1 := h.room
  have h2 : f.ghost.w ≠ f.ghost.wqr + (c.n - 1) := fun e => by
    rw [(h.wfull_iff hl).2 e] at hf; exact Bool.noConfusion hf
  omega

/-- The cursor's advance of a pop keeps the invariant. -/
theorem FifoInv.take_fold {v : Nat} (hl : c.legal = true) (h : FifoInv c f) (hlt : f.ghost.r < f.ghost.rqw)
    (hv : f.ghost.pushed[f.ghost.r]? = some v) : FifoInv c ((f.take c v).foldR c) := by
  have hr : (f.ghost.popped ++ [v]).length = f.ghost.r + 1 := by simp [Ghost.r]
  have hrptr : ptrAdd c f.rptr 1 = (f.ghost.r + 1) % c.ptrMod := by rw [h.rptr, ptrAdd_count]
  have h1 := h.wqr_le_r
  have h3 := h.rqw_le_w
  have h4 := h.room
  have horder : f.ghost.popped ++ [v] = f.ghost.pushed.take (f.ghost.r + 1) := by
    rw [List.take_add_one, ← h.fifoOrder, hv]
    rfl
  have base : ∀ (q : Nat) (chain : List Nat) (count : Nat), q = count % c.ptrMod → f.ghost.wqr ≤ count →
      count ≤ f.ghost.r + 1 → ChainInv c chain (f.ghost.r + 1) count →
      FifoInv c { f.take c v with wqRptr := q, r2w := chain, ghost := { (f.take c v).ghost with wqr := count } } := by
    intro q chain count hq hge hle hc
    exact
      { memWf := h.memWf, memRange := h.memRange, memWidth := h.memWidth, wptr := h.wptr
        rptr := by
          change ptrAdd c f.rptr 1 = (f.ghost.popped ++ [v]).length % c.ptrMod
          rw [hr, hrptr]
        rqWptr := h.rqWptr, wqRptr := hq, wgray := h.wgray, rgray := rfl, wchain := h.wchain
        rchain := by
          change ChainInv c chain (f.ghost.popped ++ [v]).length count
          rw [hr]; exact hc
        wqr_le_r := by
          change count ≤ (f.ghost.popped ++ [v]).length
          rw [hr]; exact hle
        r_le_rqw := by
          change (f.ghost.popped ++ [v]).length ≤ f.ghost.rqw
          rw [hr]; exact hlt
        rqw_le_w := h.rqw_le_w
        room := by
          change f.ghost.w ≤ count + (c.n - 1)
          omega
        fifoOrder := by
          change f.ghost.popped ++ [v] = f.ghost.pushed.take (f.ghost.popped ++ [v]).length
          rw [hr]; exact horder
        unread := by
          intro k hk1 hk2
          have hk1' : (f.ghost.popped ++ [v]).length ≤ k := hk1
          exact h.unread k (by omega) hk2 }
  rw [Fifo.foldR]
  split
  · rename_i he
    have := base (ptrAdd c f.rptr 1) (List.replicate c.syncStages (bin2gray ((f.ghost.r + 1) % c.ptrMod))) (f.ghost.r + 1) hrptr
      (by omega) (le_refl _) (ChainInv.replicate (le_refl _) fun _ => rfl)
    have e : (f.take c v).crossR c = { f.take c v with
        wqRptr := ptrAdd c f.rptr 1
        r2w := List.replicate c.syncStages (bin2gray ((f.ghost.r + 1) % c.ptrMod))
        ghost := { (f.take c v).ghost with wqr := f.ghost.r + 1 } } := by
      simp only [Fifo.crossR, Fifo.take, Ghost.r, hrptr, List.length_append, List.length_singleton]
    rw [e]; exact this
  · rename_i he
    have h0 : c.syncStages ≠ 0 := fun h0 => he (stages_exact hl h0)
    exact base f.wqRptr f.r2w f.ghost.wqr h.wqRptr (le_refl _) (by omega) (h.rchain.advance (Nat.le_succ _) h0)

/-- What a pop does (R85): empty, the unread slot's value, or the fault no good state meets. -/
theorem Fifo.pop_cases (c : Config) (f : Fifo) :
    (rempty f = true ∧ f.pop c = .ok (f, none)) ∨
    (rempty f = false ∧ ∃ v, Memory.read f.mem (slotIdx c f.rptr) = some v ∧
      f.pop c = .ok ((f.take c v).foldR c, some v)) ∨
    (rempty f = false ∧ Memory.read f.mem (slotIdx c f.rptr) = none ∧ f.pop c = .error .unwrittenSlot) := by
  rw [Fifo.pop]
  cases he : rempty f
  · cases hr : Memory.read f.mem (slotIdx c f.rptr) with
    | none => exact .inr (.inr (by simp))
    | some v => exact .inr (.inl (by simp))
  · exact .inl (by simp)

/-- In a good state a pop never faults: it is empty, or gives push number R# and stays good (R50, R58). -/
theorem FifoInv.pop (hl : c.legal = true) (h : FifoInv c f) :
    (f.ghost.r = f.ghost.rqw ∧ f.pop c = .ok (f, none)) ∨
    (f.ghost.r < f.ghost.rqw ∧ ∃ v, f.ghost.pushed[f.ghost.r]? = some v ∧
      f.pop c = .ok ((f.take c v).foldR c, some v) ∧ FifoInv c ((f.take c v).foldR c)) := by
  rcases Fifo.pop_cases c f with ⟨he, hp⟩ | ⟨he, v, hv, hp⟩ | ⟨he, hv, hp⟩
  · exact .inl ⟨(h.rempty_iff hl).1 he, hp⟩
  · obtain ⟨h1, h2⟩ := h.read_oldest hl he
    rw [hv] at h1
    exact .inr ⟨h2, v, h1.symm, hp, h.take_fold hl h2 h1.symm⟩
  · obtain ⟨v, -, h2⟩ := h.oldest hl he
    rw [hv] at h2
    exact nomatch h2

/-- One shift of the read domain's chain (R93): the FIFO stays good, and RQW# moves to a count between its old value and the one
the sampled Gray value codes. -/
theorem FifoInv.shiftW {sampled : Nat} (hl : c.legal = true) (h : FifoInv c f) (hs : sampled = f.wgray) :
    FifoInv c (f.shiftW c sampled) ∧
      ∃ k, f.ghost.rqw ≤ k ∧ k ≤ f.ghost.w ∧ (f.shiftW c sampled).visible = (f.crossWTo c k).visible := by
  subst hs
  rw [Fifo.shiftW]
  split
  · rename_i h0
    refine ⟨h, f.ghost.rqw, le_refl _, h.rqw_le_w, ?_⟩
    simp only [Fifo.visible, Fifo.crossWTo, h.rqWptr]
  · rename_i h0
    have hg : f.wgray = bin2gray (f.ghost.w % c.ptrMod) := by rw [h.wgray, h.wptr]
    obtain ⟨k, hk1, hk2, hlast, hchain⟩ := h.wchain.shift (le_refl _) h0
    rw [← hg] at hlast hchain
    have hcopy : gray2bin c.ctrW (((f.wgray :: f.w2r).take c.syncStages).getLastD 0) = k % c.ptrMod := by
      rw [hlast, gray2bin_count]
    have hw := h.rqw_le_w
    have hr := h.r_le_rqw
    have hq := h.wqr_le_r
    have hroom := h.room
    have hM := capacity_le_ptrMod hl
    have hn := (legal_capacity hl).2
    have hcount : f.ghost.rqw + ptrSub c (k % c.ptrMod) f.rqWptr = k := by
      rw [h.rqWptr, ptrSub_count hk1 (by omega)]
      omega
    have hcross := h.crossWTo hk1 hk2
    simp only [hcopy, hcount]
    refine ⟨?_, k, hk1, hk2, rfl⟩
    exact { hcross with wchain := hchain }

/-- One shift of the write domain's chain (R93); the sampled count may be an older one than the pointer's (both edges in one
instant). -/
theorem FifoInv.shiftR {sampled : Nat} (hl : c.legal = true) (h : FifoInv c f)
    (hs : c.syncStages ≠ 0 →
      ∃ k, f.ghost.wqr ≤ k ∧ k ≤ f.ghost.r ∧ ChainInv c f.r2w k f.ghost.wqr ∧ sampled = bin2gray (k % c.ptrMod)) :
    FifoInv c (f.shiftR c sampled) ∧
      ∃ k, f.ghost.wqr ≤ k ∧ k ≤ f.ghost.r ∧ (f.shiftR c sampled).visible = (f.crossRTo c k).visible := by
  rw [Fifo.shiftR]
  split
  · rename_i h0
    refine ⟨h, f.ghost.wqr, le_refl _, h.wqr_le_r, ?_⟩
    simp only [Fifo.visible, Fifo.crossRTo, h.wqRptr]
  · rename_i h0
    obtain ⟨now, hn1, hn2, hch, rfl⟩ := hs h0
    obtain ⟨k, hk1, hk2, hlast, hchain⟩ := hch.shift hn2 h0
    have hcopy : gray2bin c.ctrW (((bin2gray (now % c.ptrMod) :: f.r2w).take c.syncStages).getLastD 0) = k % c.ptrMod := by
      rw [hlast, gray2bin_count]
    have hw := h.rqw_le_w
    have hr := h.r_le_rqw
    have hroom := h.room
    have hM := capacity_le_ptrMod hl
    have hn := (legal_capacity hl).2
    have hcount : f.ghost.wqr + ptrSub c (k % c.ptrMod) f.wqRptr = k := by
      rw [h.wqRptr, ptrSub_count hk1 (by omega)]
      omega
    have hcross := h.crossRTo hk1 (le_trans hk2 hn2)
    simp only [hcopy, hcount]
    refine ⟨?_, k, hk1, le_trans hk2 hn2, rfl⟩
    exact { hcross with rchain := hchain }

/-- R93: an edge of the read domain shifts its chain by one stage, and the copy shows the last one. -/
theorem FifoInv.shiftW_chain {sampled : Nat} (h : FifoInv c f) (h0 : c.syncStages ≠ 0) :
    ChainShifted c sampled f.w2r (f.shiftW c sampled).w2r (f.shiftW c sampled).rqWptr := by
  rw [Fifo.shiftW, if_neg h0]
  exact ChainShifted.of_take h.wchain.length h0

/-- R93: an edge of the write domain shifts its chain by one stage, and the copy shows the last one. -/
theorem FifoInv.shiftR_chain {sampled : Nat} (h : FifoInv c f) (h0 : c.syncStages ≠ 0) :
    ChainShifted c sampled f.r2w (f.shiftR c sampled).r2w (f.shiftR c sampled).wqRptr := by
  rw [Fifo.shiftR, if_neg h0]
  exact ChainShifted.of_take h.rchain.length h0

/-- A good FIFO's own Gray register is a sample its write domain may take. -/
theorem FifoInv.sample_rgray (h : FifoInv c f) :
    ∃ k, f.ghost.wqr ≤ k ∧ k ≤ f.ghost.r ∧ ChainInv c f.r2w k f.ghost.wqr ∧ f.rgray = bin2gray (k % c.ptrMod) :=
  ⟨f.ghost.r, h.wqr_le_r, le_refl _, h.rchain, by rw [h.rgray, h.rptr]⟩

/-- A word PUSH is `push(item)` of its operand (R63, R83). -/
theorem execPush_eq {s : State} (v : Byte) (h : s.cfg.dataW = 8) : execPush v s = pushItem v.toNat s := if_pos h

/-- A push leaves the read side of the FIFO alone (R20, R83). -/
theorem Fifo.pushIf_readSide (c : Config) (full : Bool) (v : Nat) (f : Fifo) :
    (f.pushIf c full v).rptr = f.rptr ∧ (f.pushIf c full v).wqRptr = f.wqRptr ∧ (f.pushIf c full v).rgray = f.rgray ∧
      (f.pushIf c full v).r2w = f.r2w ∧ (f.pushIf c full v).ghost.popped = f.ghost.popped ∧
      (f.pushIf c full v).ghost.wqr = f.ghost.wqr := by
  rw [Fifo.pushIf]
  split
  · simp
  · rw [Fifo.foldW]
    split <;> simp [Fifo.crossW, Fifo.store]

/-- A pop leaves the write side of the FIFO alone (R21, R85). -/
theorem Fifo.take_writeSide (c : Config) (v : Nat) (f : Fifo) :
    ((f.take c v).foldR c).mem = f.mem ∧ ((f.take c v).foldR c).wptr = f.wptr ∧ ((f.take c v).foldR c).rqWptr = f.rqWptr ∧
      ((f.take c v).foldR c).wgray = f.wgray ∧ ((f.take c v).foldR c).w2r = f.w2r ∧
      ((f.take c v).foldR c).ghost.pushed = f.ghost.pushed ∧ ((f.take c v).foldR c).ghost.rqw = f.ghost.rqw := by
  rw [Fifo.foldR]
  split <;> simp [Fifo.crossR, Fifo.take]

/-- The write domain's copy after a pop: as before, or the read pointer itself in the exact configuration (R98). -/
theorem Fifo.take_copy (c : Config) (v : Nat) (f : Fifo) :
    (c.exact = false → ((f.take c v).foldR c).r2w = f.r2w ∧ ((f.take c v).foldR c).wqRptr = f.wqRptr ∧
      ((f.take c v).foldR c).ghost.wqr = f.ghost.wqr) ∧
    (c.exact = true → ((f.take c v).foldR c).wqRptr = ((f.take c v).foldR c).rptr ∧
      ((f.take c v).foldR c).ghost.wqr = ((f.take c v).foldR c).ghost.r) ∧
    ((f.take c v).foldR c).ghost.popped = f.ghost.popped ++ [v] := by
  rw [Fifo.foldR]
  cases c.exact <;> simp [Fifo.crossR, Fifo.take, Ghost.r]

end Keep

end Sys2Proof.Machine
end

