-- ==== Sys2Proof/Laws/Parser.lean ====
section
/-! SUPPORT. What one byte does to the parser, case by case (41_parser.md R99 to R105), and that it keeps R41 (d). -/

namespace Sys2Proof.Machine

open Sys2Proof

/-- An item that is a byte's value is fed to the parser as that byte. -/
theorem itemByte_toNat {c : Config} {v : Nat} (h : v < 256) : (itemByte c v).toNat = v := by
  rw [itemByte, if_pos h, BitVec.toNat_ofNat]
  exact Nat.mod_eq_of_lt h

@[simp] theorem itemByte_of_byte (c : Config) (b : Byte) : itemByte c b.toNat = b :=
  BitVec.eq_of_toNat_eq (itemByte_toNat b.isLt)

/-- A message length is 2 or 3 (30_encoding.md R67, R69). -/
theorem msgLen_cases {c : Config} {b : Byte} {l : BitVec 2} (h : msgLen c b = some l) : l = 2 ∨ l = 3 := by
  rw [msgLen] at h
  split at h
  · simp_all
  · simp_all
  · cases hs : sysLenOf c b <;> simp [sysLenLength, hs] at h <;> simp [← h]
  · simp_all

theorem acceptedLen_cases {c : Config} {m b : Byte} {l : BitVec 2} (h : acceptedLen c m b = some l) : l = 2 ∨ l = 3 := by
  rw [acceptedLen] at h
  split at h
  · exact msgLen_cases h
  · exact nomatch h

theorem Parser.parse_status {c : Config} {b : Byte} {p : Parser} (h : isStatus b = true) :
    p.parse c b = .ok (p.status c b) := by rw [Parser.parse, if_pos h]

theorem Parser.parse_idle {c : Config} {b : Byte} {p : Parser} (h : isStatus b = false) (hr : p.rem = 0) :
    p.parse c b = .ok ⟨p, none, .discardIdle⟩ := by simp [Parser.parse, h, hr]

theorem Parser.parse_collect {c : Config} {b : Byte} {p : Parser} (h : isStatus b = false) (hr : p.rem ≠ 0) :
    p.parse c b = p.collect b := by
  rw [Parser.parse, h, if_neg (by decide), if_neg hr]

theorem Parser.status_accept {c : Config} {b : Byte} {p : Parser} {l : BitVec 2} (h : acceptedLen c p.mask b = some l) :
    p.status c b =
      ⟨{ p with buf0 := b, len := l, rem := l - 1 }, none, if p.rem = 0 then .accept else .abortAccept⟩ := by
  simp [Parser.status, h]

theorem Parser.status_filter {c : Config} {b : Byte} {p : Parser} (h : acceptedLen c p.mask b = none) :
    p.status c b = ⟨{ p with rem := 0 }, none, if p.rem = 0 then .filter else .abortFilter⟩ := by
  simp [Parser.status, h]

/-- R102: the first of two data bytes. -/
theorem Parser.collect_first {b : Byte} {p : Parser} (hl : p.len = 3) (hr : p.rem = 2) :
    p.collect b = .ok ⟨{ p with buf1 := b, rem := 1 }, none, .partialData⟩ := by
  simp [Parser.collect, Parser.store, hl, hr]

/-- R103: the second of two data bytes. -/
theorem Parser.collect_second {b : Byte} {p : Parser} (hl : p.len = 3) (hr : p.rem = 1) :
    p.collect b = .ok ⟨{ p with buf2 := b, rem := 0 }, some ⟨3, p.buf0, p.buf1, b, 0⟩, .message⟩ := by
  simp [Parser.collect, Parser.store, Parser.completed, hl, hr]

/-- R103: the only data byte of a 2-byte message. -/
theorem Parser.collect_only {b : Byte} {p : Parser} (hl : p.len = 2) (hr : p.rem = 1) :
    p.collect b = .ok ⟨{ p with buf1 := b, rem := 0 }, some ⟨2, p.buf0, b, 0, 0⟩, .message⟩ := by
  simp [Parser.collect, Parser.store, Parser.completed, hl, hr]

/-- The collecting states of a good parser: one byte of two received, or all but one. -/
theorem ParserInv.collecting_cases {p : Parser} (h : ParserInv p) (hr : p.rem ≠ 0) :
    (p.len = 2 ∧ p.rem = 1) ∨ (p.len = 3 ∧ p.rem = 1) ∨ (p.len = 3 ∧ p.rem = 2) := by
  obtain ⟨hl, hle⟩ := h.collecting hr
  revert hr hl hle
  generalize p.rem = r
  generalize p.len = l
  revert r l
  decide

/-- A good parser takes every byte and stays good; a completed message has group 0 (R73). -/
theorem ParserInv.parse {p : Parser} (h : ParserInv p) (c : Config) (b : Byte) :
    ∃ r, p.parse c b = .ok r ∧ ParserInv r.parser ∧ ∀ m, r.message = some m → m.group = 0 := by
  cases hb : isStatus b
  · by_cases hr : p.rem = 0
    · exact ⟨_, Parser.parse_idle hb hr, h, by simp⟩
    · rw [Parser.parse_collect hb hr]
      rcases h.collecting_cases hr with ⟨h1, h2⟩ | ⟨h1, h2⟩ | ⟨h1, h2⟩
      · exact ⟨_, Parser.collect_only h1 h2, ⟨h.len, by simp⟩, by simp⟩
      · exact ⟨_, Parser.collect_second h1 h2, ⟨h.len, by simp⟩, by simp⟩
      · exact ⟨_, Parser.collect_first h1 h2, ⟨h.len, by simp [h1]⟩, by simp⟩
  · rw [Parser.parse_status hb]
    cases ha : acceptedLen c p.mask b with
    | none => exact ⟨_, rfl, by rw [Parser.status_filter ha]; exact ⟨h.len, by simp⟩, by simp [Parser.status_filter ha]⟩
    | some l =>
      refine ⟨_, rfl, ?_, by simp [Parser.status_accept ha]⟩
      rw [Parser.status_accept ha]
      rcases acceptedLen_cases ha with rfl | rfl
      · exact ⟨.inr (.inl rfl), fun _ => ⟨.inl rfl, BitVec.le_refl _⟩⟩
      · exact ⟨.inr (.inr rfl), fun _ => ⟨.inr rfl, BitVec.le_refl _⟩⟩

/-- Every completed message has group 0 (R73), from any parser state. -/
theorem Parser.parse_group {c : Config} {b : Byte} {p : Parser} {x : Parsed} {m : Message} (h : p.parse c b = .ok x)
    (hm : x.message = some m) : m.group = 0 := by
  cases hb : isStatus b
  · by_cases hr : p.rem = 0
    · rw [Parser.parse_idle hb hr] at h
      cases h
      exact nomatch hm
    · rw [Parser.parse_collect hb hr, Parser.collect] at h
      split at h
      · exact nomatch h
      · dsimp only at h
        split at h <;> cases h
        · cases hm
          rfl
        · exact nomatch hm
  · rw [Parser.parse_status hb] at h
    cases h
    rw [Parser.status] at hm
    split at hm <;> exact nomatch hm

/-- No byte writes the mask (R99, R109). -/
theorem Parser.parse_mask {c : Config} {b : Byte} {p : Parser} {r : Parsed} (h : p.parse c b = .ok r) :
    r.parser.mask = p.mask := by
  unfold Parser.parse at h
  split at h
  · cases h
    unfold Parser.status
    split <;> rfl
  · split at h
    · cases h; rfl
    · unfold Parser.collect at h
      split at h
      · exact nomatch h
      · next q hq =>
        have hm : q.mask = p.mask := by
          unfold Parser.store at hq
          split at hq <;> cases hq <;> rfl
        dsimp only at h
        split at h <;> cases h <;> exact hm

end Sys2Proof.Machine
end

