-- ==== Sys2Proof/Laws/Bridge.lean ====
section
/-! SUPPORT. The transport log (43_bridge.md R125) and what TICK and BSTEP keep (R121 to R124). -/

namespace Sys2Proof.Machine

open Sys2Proof

theorem flushOwed_append (o : Bool) (a b : List TxEvent) :
    flushOwed o (a ++ b) = (flushOwed o a).bind fun o' => flushOwed o' b := by
  induction a generalizing o with
  | nil => rfl
  | cons e t ih => cases e <;> cases o <;> simp [flushOwed, ih]

/-- A message sent and flushed leaves a flushed log flushed. -/
theorem flushOwed_emit {log : List TxEvent} {m : Message} (h : flushOwed false log = some false) :
    flushOwed false (log ++ [.send m] ++ [.flush]) = some false := by
  simp [flushOwed_append, h, flushOwed]

/-- Two states with the same parameters, sequencer, flags and log are good sequencers together. -/
theorem SeqInv.congr {s t : State} (h : SeqInv s) (hc : t.cfg = s.cfg) (hq : t.seq = s.seq)
    (hp : t.debounce.pressed = s.debounce.pressed) (hr : t.debounce.released = s.debounce.released)
    (hl : t.txLog = s.txLog) : SeqInv t where
  phaseUsed := by rw [hq]; exact h.phaseUsed
  takeInSample := by rw [hq]; exact h.takeInSample
  busyNotWait := by rw [hq]; exact h.busyNotWait
  noRelPend := by rw [hq]; exact h.noRelPend
  flagsTaken := by rw [hc, hq, hp, hr]; exact h.flagsTaken
  oneFlag := by rw [hc, hp, hr]; exact h.oneFlag
  flushed := by rw [hl, hq]; exact h.flushed
  unitIdle := by rw [hc, hq, hl]; exact h.unitIdle

/-- The sequencer's invariant where no sequencer exists (R11). -/
theorem SeqInv.of_unit {s : State} (hu : s.cfg.top = .unit) (hq : s.seq = Sequencer.atReset) (hl : s.txLog = []) : SeqInv s where
  phaseUsed := by rw [hq]; decide
  takeInSample := by rw [hq]; decide
  busyNotWait := by rw [hq]; decide
  noRelPend := by rw [hq]; rfl
  flagsTaken h := by rw [hu] at h; exact nomatch h
  oneFlag h := by rw [hu] at h; exact nomatch h
  flushed := by rw [hl, hq]; rfl
  unitIdle _ := ⟨hq, hl⟩

/-- The sequencer's invariant of the integrated top between its cycle-level steps. -/
theorem SeqInv.of_idle {s : State} (ht : s.cfg.top = .integrated) (hi : s.seq.sub = .idle) (hp : s.seq.phase ≠ .unused3)
    (hr : s.seq.relPend = false) (hf : s.debounce.pressed = false ∧ s.debounce.released = false)
    (hl : flushOwed false s.txLog = some false) : SeqInv s where
  phaseUsed := hp
  takeInSample h := by rw [hi] at h; exact nomatch h
  busyNotWait h := by rw [hi] at h; rcases h with h | h <;> exact nomatch h
  noRelPend := hr
  flagsTaken _ _ := hf
  oneFlag _ h := by rw [hf.1] at h; exact nomatch h.1
  flushed := by rw [hl, hi]; rfl
  unitIdle h := by rw [ht] at h; exact nomatch h

/-- R121: a tick keeps the invariant. -/
theorem Inv.tick {s : State} (h : Inv s) (ht : s.cfg.top = .integrated) : Inv ((s.withSeq s.seq.setTick).report .unit) where
  legal := h.legal
  fifo := h.fifo
  parser := h.parser
  debounce := h.debounce
  seq :=
    { phaseUsed := h.seq.phaseUsed, takeInSample := h.seq.takeInSample, busyNotWait := h.seq.busyNotWait
      noRelPend := h.seq.noRelPend, flagsTaken := h.seq.flagsTaken, oneFlag := h.seq.oneFlag, flushed := h.seq.flushed
      unitIdle := fun hu => by
        have hu : s.cfg.top = .unit := hu
        rw [ht] at hu; exact nomatch hu }
  ticks := h.ticks

/-- What a message emitted at transaction level keeps. -/
theorem Inv.emit {s : State} (h : Inv s) (ht : s.cfg.top = .integrated) (hi : s.seq.sub = .idle) (m : Message) : Inv (s.emit m) where
  legal := h.legal
  fifo := h.fifo
  parser := h.parser
  debounce := h.debounce
  seq := by
    have hfl := h.seq.flushed
    rw [hi] at hfl
    exact SeqInv.of_idle ht hi h.seq.phaseUsed h.seq.noRelPend (h.seq.flagsTaken ht (by rw [hi]; decide)) (flushOwed_emit hfl)
  ticks := h.ticks

/-- R122: BSTEP in WAIT keeps the invariant. -/
theorem Inv.bstepWait {s : State} (h : Inv s) (ht : s.cfg.top = .integrated) (hi : s.seq.sub = .idle) :
    ∃ t, bstepWait s = .next t ∧ Inv t := by
  have hfl := h.seq.flushed
  rw [hi] at hfl
  rw [Machine.bstepWait]
  split
  · exact ⟨_, rfl, h.legal, h.fifo, h.parser, h.debounce,
      SeqInv.of_idle ht hi (by simp) h.seq.noRelPend (h.seq.flagsTaken ht (by rw [hi]; decide)) hfl, h.ticks⟩
  · exact ⟨_, rfl, h.legal, h.fifo, h.parser, h.debounce, h.seq.congr rfl rfl rfl rfl rfl, h.ticks⟩

/-- R123: BSTEP in DRAIN keeps the invariant. -/
theorem Inv.bstepDrain {s : State} (h : Inv s) (ht : s.cfg.top = .integrated) (hi : s.seq.sub = .idle) :
    ∃ t, bstepDrain s = .next t ∧ Inv t := by
  have hfl := h.seq.flushed
  rw [hi] at hfl
  have hflags := h.seq.flagsTaken ht (by rw [hi]; decide)
  rw [Machine.bstepDrain]
  rcases h.fifo.pop h.legal with ⟨-, hp⟩ | ⟨-, v, -, hp, hf⟩
  · rw [hp]
    exact ⟨_, rfl, h.legal, h.fifo, h.parser, h.debounce, SeqInv.of_idle ht hi (by simp) h.seq.noRelPend hflags hfl, h.ticks⟩
  · rw [hp]
    obtain ⟨r, hr, hpi, -⟩ := h.parser.parse s.cfg (itemByte s.cfg v)
    simp only [orFault, hr, bstepParsed]
    have hbase : ∀ o k, Inv (((s.withFifo ((s.fifo.take s.cfg v).foldR s.cfg)).withParser r.parser).report .unit o k) :=
      fun o k => ⟨h.legal, hf, hpi, h.debounce, h.seq.congr rfl rfl rfl rfl rfl, h.ticks⟩
    cases r.message with
    | none => exact ⟨_, rfl, hbase _ _⟩
    | some m => exact ⟨_, rfl, (hbase _ _).emit ht hi m⟩

/-- R124: BSTEP in SAMPLE keeps the invariant. -/
theorem Inv.bstepSample {s : State} (h : Inv s) (ht : s.cfg.top = .integrated) (hi : s.seq.sub = .idle) (r : Bool) :
    ∃ t, bstepSample r s = .next t ∧ Inv t := by
  have hfl := h.seq.flushed
  rw [hi] at hfl
  have h0 : Inv (s.withDebounce (s.debounce.sample s.cfg r).takePressed.takeReleased) :=
    ⟨h.legal, h.fifo, h.parser, (DebounceInv.sample h.legal r s.debounce).takePressed.takeReleased,
      SeqInv.of_idle ht hi h.seq.phaseUsed h.seq.noRelPend ⟨rfl, rfl⟩ hfl, h.ticks⟩
  have h1 : ∀ (b : Bool) (m : Message) (u : State), Inv u → u.cfg.top = .integrated → u.seq.sub = .idle →
      Inv (u.emitIf b m) ∧ (u.emitIf b m).cfg.top = .integrated ∧ (u.emitIf b m).seq.sub = .idle := by
    intro b m u hu hut hui
    cases b
    · exact ⟨hu, hut, hui⟩
    · exact ⟨hu.emit hut hui m, hut, hui⟩
  obtain ⟨h2, t2, i2⟩ := h1 (s.debounce.sample s.cfg r).pressed (noteOnMsg s.cfg) _ h0 ht hi
  obtain ⟨h3, t3, i3⟩ := h1 (s.debounce.sample s.cfg r).released (noteOffMsg s.cfg) _ h2 t2 i2
  have hfl3 := h3.seq.flushed
  rw [i3] at hfl3
  exact ⟨_, rfl, h3.legal, h3.fifo, h3.parser, h3.debounce,
    SeqInv.of_idle t3 i3 (by simp) h3.seq.noRelPend (h3.seq.flagsTaken t3 (by rw [i3]; decide)) hfl3, h3.ticks⟩

end Sys2Proof.Machine
end

