-- ==== Sys2Proof/Laws/Cycle.lean ====
section
/-! SUPPORT. What a clock edge keeps (40_fifo.md R84, R86, R93; 43_bridge.md R128), and what each row of the FSM table does. -/

namespace Sys2Proof.Machine

open Sys2Proof

/-- The FIFO's part of a read-domain edge: it never faults in a good state, and leaves the write side alone. -/
theorem popEdge_spec {s : State} (hl : s.cfg.legal = true) (h : FifoInv s.cfg s.fifo) (u : UnitIn) :
    ∃ f, popEdge u s = .ok f ∧ FifoInv s.cfg f ∧ f.ghost.pushed = s.fifo.ghost.pushed ∧ f.wgray = s.fifo.wgray ∧
      s.fifo.ghost.wqr ≤ f.ghost.wqr ∧ s.fifo.ghost.r ≤ f.ghost.r ∧
      (s.cfg.exact = false → f.r2w = s.fifo.r2w ∧ f.ghost.wqr = s.fifo.ghost.wqr) := by
  rw [popEdge]
  split
  · rcases h.pop hl with ⟨-, hp⟩ | ⟨-, v, -, hp, hf⟩
    · rw [hp]
      exact ⟨_, rfl, h, rfl, rfl, le_refl _, le_refl _, fun _ => ⟨rfl, rfl⟩⟩
    · rw [hp]
      obtain ⟨-, -, -, hg, -, hpu, -⟩ := Fifo.take_writeSide s.cfg v s.fifo
      obtain ⟨hn, he, hpo⟩ := Fifo.take_copy s.cfg v s.fifo
      have hr : ((s.fifo.take s.cfg v).foldR s.cfg).ghost.r = s.fifo.ghost.r + 1 := by
        rw [Ghost.r, hpo]; simp [Ghost.r]
      refine ⟨_, rfl, hf, hpu, hg, ?_, le_of_lt (lt_of_lt_of_eq (Nat.lt_succ_self _) hr.symm), fun hx => ⟨(hn hx).1, (hn hx).2.2⟩⟩
      cases hx : s.cfg.exact
      · exact le_of_eq (hn hx).2.2.symm
      · exact le_trans h.wqr_le_r (le_trans (Nat.le_succ _) (le_of_eq (hr.symm.trans (he hx).2.symm)))
  · exact ⟨_, rfl, h, rfl, rfl, le_refl _, le_refl _, fun _ => ⟨rfl, rfl⟩⟩

/-- What `push_data` offers is a DATA_W-bit item (R80). -/
theorem WriteIn.item_lt (c : Config) (i : WriteIn) : i.item c < 2 ^ c.dataW := Nat.mod_lt _ (Nat.two_pow_pos _)

/-- A mask write keeps R41 (d). -/
theorem ParserInv.setMask {p : Parser} (h : ParserInv p) (m : Byte) : ParserInv { p with mask := m } :=
  ⟨h.len, h.collecting⟩

/-- The parser's part of a read-domain edge never faults in a good state. -/
theorem parserEdge_spec {s : State} (h : ParserInv s.parser) (u : UnitIn) :
    ∃ p, parserEdge u s = .ok p ∧ ParserInv p := by
  have done : ∀ q, ParserInv q → ParserInv (if u.cfgWe = true then { q with mask := u.cfgMask } else q) := by
    intro q hq
    split
    · exact hq.setMask _
    · exact hq
  rw [parserEdge]
  by_cases hv : u.pbValid = true
  · obtain ⟨r, hr, hp, -⟩ := h.parse s.cfg u.pbData
    simp only [if_pos hv, hr]
    exact ⟨_, rfl, done _ hp⟩
  · simp only [if_neg hv]
    exact ⟨_, rfl, done _ h⟩

/-- The debounce filter's part of a read-domain edge keeps R41 (e). -/
theorem debounceEdge_spec {s : State} (hl : s.cfg.legal = true) (h : DebounceInv s.cfg s.debounce) (u : UnitIn) :
    DebounceInv s.cfg (debounceEdge u s) := by
  simp only [debounceEdge]
  have h1 : DebounceInv s.cfg (if u.takeP = true then s.debounce.takePressed else s.debounce) := by
    split
    · exact h.takePressed
    · exact h
  have h2 : ∀ d, DebounceInv s.cfg d → DebounceInv s.cfg (if u.takeR = true then d.takeReleased else d) := by
    intro d hd
    split
    · exact hd.takeReleased
    · exact hd
  split
  · exact DebounceInv.sample hl _ _
  · exact h2 _ h1

/-- The three units on one edge: they keep their invariants, leave the sequencer, the log and the write side alone. -/
theorem unitEdge_spec {s : State} (h : Inv s) (u : UnitIn) :
    ∃ f p, popEdge u s = .ok f ∧ parserEdge u s = .ok p ∧
      unitEdge u s = .ok (((s.withFifo f).withParser p).withDebounce (debounceEdge u s)) ∧
      FifoInv s.cfg f ∧ ParserInv p ∧ DebounceInv s.cfg (debounceEdge u s) := by
  obtain ⟨f, hf, hfi, -⟩ := popEdge_spec h.legal h.fifo u
  obtain ⟨p, hp, hpi⟩ := parserEdge_spec h.parser u
  exact ⟨f, p, hf, hp, by simp [unitEdge, hf, hp], hfi, hpi, debounceEdge_spec h.legal h.debounce u⟩

/-- The write domain on one edge keeps the invariant: `full` may be an older view, and the sampled Gray value an older count. -/
theorem Inv.writeEdge {s : State} {full : Bool} {sampled : Nat} (h : Inv s) (i : WriteIn)
    (hf : full = false → s.fifo.ghost.w < s.fifo.ghost.wqr + (s.cfg.n - 1))
    (hs : s.cfg.syncStages ≠ 0 → ∃ k, s.fifo.ghost.wqr ≤ k ∧ k ≤ s.fifo.ghost.r ∧
      ChainInv s.cfg s.fifo.r2w k s.fifo.ghost.wqr ∧ sampled = bin2gray (k % s.cfg.ptrMod)) {t : State}
    (ht : writeEdge full sampled i s = .next t) : Inv t := by
  rw [Machine.writeEdge] at ht
  split at ht
  · cases ht; exact h
  · cases ht
    have hpush : FifoInv s.cfg (if i.pushReq = true then s.fifo.pushIf s.cfg full (i.item s.cfg) else s.fifo) := by
      split
      · exact h.fifo.pushIf h.legal (WriteIn.item_lt _ _) hf
      · exact h.fifo
    have hside : (if i.pushReq = true then s.fifo.pushIf s.cfg full (i.item s.cfg) else s.fifo).r2w = s.fifo.r2w ∧
        (if i.pushReq = true then s.fifo.pushIf s.cfg full (i.item s.cfg) else s.fifo).ghost.r = s.fifo.ghost.r ∧
        (if i.pushReq = true then s.fifo.pushIf s.cfg full (i.item s.cfg) else s.fifo).ghost.wqr = s.fifo.ghost.wqr := by
      split
      · obtain ⟨-, -, -, h1, h2, h3⟩ := Fifo.pushIf_readSide s.cfg full (i.item s.cfg) s.fifo
        exact ⟨h1, by rw [Ghost.r, h2]; rfl, h3⟩
      · exact ⟨rfl, rfl, rfl⟩
    refine ⟨h.legal, (hpush.shiftR h.legal ?_).1, h.parser, h.debounce, h.seq.congr rfl rfl rfl rfl rfl, h.ticks⟩
    rw [hside.1, hside.2.1, hside.2.2]
    exact hs

/-- The write domain alone on one edge (R84, R93). -/
theorem Inv.writeEdge_alone {s t : State} (h : Inv s) (i : WriteIn)
    (ht : Machine.writeEdge (wfull s.cfg s.fifo) s.fifo.rgray i s = .next t) : Inv t :=
  h.writeEdge i (h.fifo.room_of_not_full h.legal) (fun _ => h.fifo.sample_rgray) ht

/-- The sequencer's invariant of the integrated top while a message is offered or a flush is. -/
theorem SeqInv.of_busy {s : State} (ht : s.cfg.top = .integrated) (hp : s.seq.phase = .drain ∨ s.seq.phase = .sample)
    (hi : s.seq.sub = .send ∨ s.seq.sub = .flush) (hr : s.seq.relPend = false)
    (hf : s.debounce.pressed = false ∧ s.debounce.released = false)
    (hl : flushOwed false s.txLog = some (s.seq.sub == .flush)) : SeqInv s where
  phaseUsed h := by rw [h] at hp; rcases hp with h | h <;> exact nomatch h
  takeInSample h := by rw [h] at hi; rcases hi with h | h <;> exact nomatch h
  busyNotWait _ h := by rw [h] at hp; rcases hp with h | h <;> exact nomatch h
  noRelPend := hr
  flagsTaken _ _ := hf
  oneFlag _ h := by rw [hf.1] at h; exact nomatch h.1
  flushed := hl
  unitIdle h := by rw [ht] at h; exact nomatch h

/-- The sequencer's invariant of the integrated top between the sample and the take. -/
theorem SeqInv.of_take {s : State} (ht : s.cfg.top = .integrated) (hp : s.seq.phase = .sample) (hi : s.seq.sub = .take)
    (hr : s.seq.relPend = false) (hf : ¬ (s.debounce.pressed = true ∧ s.debounce.released = true))
    (hl : flushOwed false s.txLog = some false) : SeqInv s where
  phaseUsed h := by rw [hp] at h; exact nomatch h
  takeInSample _ := hp
  busyNotWait h := by rw [hi] at h; rcases h with h | h <;> exact nomatch h
  noRelPend := hr
  flagsTaken _ h := absurd hi h
  oneFlag _ := hf
  flushed := by rw [hl, hi]; rfl
  unitIdle h := by rw [ht] at h; exact nomatch h

/-- Outside phase SAMPLE the sequencer leaves the debounce filter alone; in it, it samples or takes (R128). -/
theorem debounceEdge_seqDrive (i : TopIn) (s : State) :
    debounceEdge (seqDrive i s) s =
      (match s.seq.phase, s.seq.sub with
      | .sample, .idle => s.debounce.sample s.cfg i.rawActive
      | .sample, .take => s.debounce.takePressed.takeReleased
      | _, _ => s.debounce) := by
  cases hp : s.seq.phase <;> cases hs : s.seq.sub <;> cases he : rempty s.fifo <;> simp [debounceEdge, seqDrive, hp, hs, he]

/-- R128: in WAIT/IDLE, DRAIN/IDLE and the busy states the FSM's row keeps the invariant; the other rows are below. -/
theorem Inv.fsmNext_idle {s : State} (h : Inv s) (ht : s.cfg.top = .integrated) (i : TopIn) (hi : s.seq.sub = .idle) :
    ∃ n, fsmNext i s = .ok n ∧
      SeqInv { s with seq := n.seq, txLog := s.txLog ++ n.events, debounce := debounceEdge (seqDrive i s) s } := by
  have hflags := h.seq.flagsTaken ht (by rw [hi]; decide)
  have hlog := h.seq.flushed
  rw [hi] at hlog
  have hlog' : flushOwed false (s.txLog ++ []) = some false := by rw [List.append_nil]; exact hlog
  have hr := h.seq.noRelPend
  have hu := h.seq.phaseUsed
  rw [debounceEdge_seqDrive]
  cases hp : s.seq.phase <;> simp only [fsmNext, hp, hi]
  · refine ⟨_, rfl, ?_⟩
    split
    · exact SeqInv.of_idle ht rfl (by simp) hr hflags hlog'
    · exact SeqInv.of_idle ht hi hu hr hflags hlog'
  · refine ⟨_, rfl, ?_⟩
    rw [fsmDrain]
    split
    · exact SeqInv.of_idle ht hi (by simp) hr hflags hlog'
    · split
      · exact SeqInv.of_busy ht (.inl hp) (.inl rfl) hr hflags hlog'
      · exact SeqInv.of_idle ht hi hu hr hflags hlog'
  · refine ⟨_, rfl, ?_⟩
    refine SeqInv.of_take ht rfl rfl hr ?_ hlog'
    intro hb
    have hm := one_match h.legal (shiftSample s.cfg i.rawActive s.debounce.dreg)
    simp only [Debounce.sample, hflags.1, hflags.2, Bool.false_or] at hb
    exact hm hb
  · exact absurd hp hu

/-- R128: SAMPLE/TAKE keeps the invariant. -/
theorem Inv.fsmNext_take {s : State} (h : Inv s) (ht : s.cfg.top = .integrated) (i : TopIn) (hi : s.seq.sub = .take) :
    ∃ n, fsmNext i s = .ok n ∧
      SeqInv { s with seq := n.seq, txLog := s.txLog ++ n.events, debounce := debounceEdge (seqDrive i s) s } := by
  have hp := h.seq.takeInSample hi
  have hone := h.seq.oneFlag ht
  have hlog := h.seq.flushed
  rw [hi] at hlog
  have hlog' : flushOwed false (s.txLog ++ []) = some false := by rw [List.append_nil]; exact hlog
  rw [debounceEdge_seqDrive]
  simp only [fsmNext, hp, hi]
  refine ⟨_, rfl, ?_⟩
  rw [fsmTake]
  split
  · rename_i h1
    refine SeqInv.of_busy ht (.inr hp) (.inl rfl) ?_ ⟨rfl, rfl⟩ hlog'
    cases h2 : s.debounce.released
    · rfl
    · exact absurd ⟨h1, h2⟩ hone
  · split
    · exact SeqInv.of_busy ht (.inr hp) (.inl rfl) h.seq.noRelPend ⟨rfl, rfl⟩ hlog'
    · exact SeqInv.of_idle ht rfl (by simp) h.seq.noRelPend ⟨rfl, rfl⟩ hlog'

/-- R128, R129: any/SEND keeps the invariant. -/
theorem Inv.fsmNext_send {s : State} (h : Inv s) (ht : s.cfg.top = .integrated) (i : TopIn) (hi : s.seq.sub = .send) :
    ∃ n, fsmNext i s = .ok n ∧
      SeqInv { s with seq := n.seq, txLog := s.txLog ++ n.events, debounce := debounceEdge (seqDrive i s) s } := by
  have hflags := h.seq.flagsTaken ht (by rw [hi]; decide)
  have hlog := h.seq.flushed
  rw [hi] at hlog
  have hr := h.seq.noRelPend
  have hu := h.seq.phaseUsed
  have hw := h.seq.busyNotWait (.inl hi)
  rw [debounceEdge_seqDrive]
  have key : ∀ hp : s.seq.phase = .drain ∨ s.seq.phase = .sample,
      SeqInv { s with seq := (fsmSend i s).seq, txLog := s.txLog ++ (fsmSend i s).events } := by
    intro hp
    rw [fsmSend]
    split
    · refine SeqInv.of_busy ht hp (.inr rfl) hr hflags ?_
      simp only [flushOwed_append, hlog]
      rfl
    · refine SeqInv.of_busy ht hp (.inl hi) hr hflags ?_
      simp only [List.append_nil, hlog, hi]
  cases hp : s.seq.phase <;> simp only [fsmNext, hp, hi]
  · exact absurd hp hw
  · exact ⟨_, rfl, key (.inl hp)⟩
  · exact ⟨_, rfl, key (.inr hp)⟩
  · exact absurd hp hu

/-- R128, R129: DRAIN/FLUSH and SAMPLE/FLUSH keep the invariant. -/
theorem Inv.fsmNext_flush {s : State} (h : Inv s) (ht : s.cfg.top = .integrated) (i : TopIn) (hi : s.seq.sub = .flush) :
    ∃ n, fsmNext i s = .ok n ∧
      SeqInv { s with seq := n.seq, txLog := s.txLog ++ n.events, debounce := debounceEdge (seqDrive i s) s } := by
  have hflags := h.seq.flagsTaken ht (by rw [hi]; decide)
  have hlog := h.seq.flushed
  rw [hi] at hlog
  have hr := h.seq.noRelPend
  have hu := h.seq.phaseUsed
  have hw := h.seq.busyNotWait (.inr hi)
  have hdone : flushOwed false (s.txLog ++ [.flush]) = some false := by
    rw [flushOwed_append, hlog]
    rfl
  have stay : ∀ hp : s.seq.phase = .drain ∨ s.seq.phase = .sample,
      SeqInv { s with seq := s.seq, txLog := s.txLog ++ [] } := by
    intro hp
    refine SeqInv.of_busy ht hp (.inr hi) hr hflags ?_
    simp only [List.append_nil, hlog, hi]
  rw [debounceEdge_seqDrive]
  cases hp : s.seq.phase <;> simp only [fsmNext, hp, hi]
  · exact absurd hp hw
  · refine ⟨_, rfl, ?_⟩
    split
    · exact SeqInv.of_idle ht rfl (by simp) hr hflags hdone
    · exact stay (.inl hp)
  · refine ⟨_, rfl, ?_⟩
    split
    · rw [fsmSampleFlushed, hr]
      exact SeqInv.of_idle ht rfl (by simp) hr hflags hdone
    · exact stay (.inr hp)
  · exact absurd hp hu

/-- R128: the FSM has a row for every good state, and what its row makes of the sequencer, the flags and the log is good. -/
theorem Inv.fsmNext {s : State} (h : Inv s) (ht : s.cfg.top = .integrated) (i : TopIn) :
    ∃ n, fsmNext i s = .ok n ∧
      SeqInv { s with seq := n.seq, txLog := s.txLog ++ n.events, debounce := debounceEdge (seqDrive i s) s } := by
  cases hs : s.seq.sub
  · exact h.fsmNext_idle ht i hs
  · exact h.fsmNext_send ht i hs
  · exact h.fsmNext_flush ht i hs
  · exact h.fsmNext_take ht i hs

/-- `tick_pending` is of no account to the integrated sequencer's invariant. -/
theorem SeqInv.tickFree {s t : State} (h : SeqInv s) (ht : s.cfg.top = .integrated) (hc : t.cfg = s.cfg) (tick : Bool)
    (hq : t.seq = { s.seq with tickPending := tick }) (hd : t.debounce = s.debounce) (hl : t.txLog = s.txLog) : SeqInv t where
  phaseUsed := by rw [hq]; exact h.phaseUsed
  takeInSample := by rw [hq]; exact h.takeInSample
  busyNotWait := by rw [hq]; exact h.busyNotWait
  noRelPend := by rw [hq]; exact h.noRelPend
  flagsTaken := by rw [hc, hq, hd]; exact h.flagsTaken
  oneFlag := by rw [hc, hd]; exact h.oneFlag
  flushed := by rw [hl, hq]; exact h.flushed
  unitIdle hu := by rw [hc, ht] at hu; exact nomatch hu

/-- The integrated top on one edge, but for the synchroniser, keeps the invariant, and its FIFO is that of its pop. -/
theorem Inv.seqEdge {s : State} (h : Inv s) (ht : s.cfg.top = .integrated) (i : TopIn) :
    ∃ t, seqEdge i s = .ok t ∧ Inv t ∧ popEdge (seqDrive i s) s = .ok t.fifo ∧ t.cfg = s.cfg ∧ t.trace = s.trace ∧
      t.wHeld = s.wHeld ∧ t.rHeld = s.rHeld := by
  obtain ⟨n, hn, hseq⟩ := h.fsmNext ht i
  obtain ⟨f, p, hf, -, hu, hfi, hpi, hdi⟩ := unitEdge_spec h (seqDrive i s)
  refine ⟨{ s with
    fifo := f
    parser := p
    debounce := debounceEdge (seqDrive i s) s
    seq := { n.seq with tickPending := tickNext i s }
    txLog := s.txLog ++ n.events }, ?_, ⟨h.legal, hfi, hpi, hdi, ?_, h.ticks⟩, hf, rfl, rfl, rfl, rfl⟩
  · simp only [Machine.seqEdge, hn, hu]
    rfl
  · exact hseq.tickFree ht rfl (tickNext i s) rfl rfl rfl

/-- The units of the unit top on one edge keep the invariant. -/
theorem Inv.unitEdge {s : State} (h : Inv s) (hu : s.cfg.top = .unit) (u : UnitIn) :
    ∃ t, unitEdge u s = .ok t ∧ Inv t ∧ popEdge u s = .ok t.fifo ∧ t.cfg = s.cfg ∧ t.trace = s.trace ∧
      t.wHeld = s.wHeld ∧ t.rHeld = s.rHeld := by
  obtain ⟨f, p, hf, -, he, hfi, hpi, hdi⟩ := unitEdge_spec h u
  obtain ⟨h1, h2⟩ := h.seq.unitIdle hu
  exact ⟨_, he, ⟨h.legal, hfi, hpi, hdi, SeqInv.of_unit hu h1 h2, h.ticks⟩, hf, rfl, rfl, rfl, rfl⟩

/-- The synchroniser's part of a read-domain edge keeps the invariant. -/
theorem Inv.readSync {s t : State} {sampled : Nat} (h : Inv s) (hs : sampled = s.fifo.wgray)
    (ht : Machine.readSync sampled s = .next t) : Inv t := by
  cases ht
  exact ⟨h.legal, (h.fifo.shiftW h.legal hs).1, h.parser, h.debounce, h.seq.congr rfl rfl rfl rfl rfl, h.ticks⟩

/-- The chain of the read domain is the only thing its synchroniser moves (R93). -/
theorem Fifo.shiftW_writeSide (c : Config) (g : Nat) (f : Fifo) :
    (f.shiftW c g).ghost.pushed = f.ghost.pushed ∧ (f.shiftW c g).ghost.popped = f.ghost.popped ∧
      (f.shiftW c g).ghost.wqr = f.ghost.wqr ∧ (f.shiftW c g).r2w = f.r2w ∧ (f.shiftW c g).mem = f.mem ∧
      (f.shiftW c g).wptr = f.wptr ∧ (f.shiftW c g).rptr = f.rptr ∧ (f.shiftW c g).wqRptr = f.wqRptr := by
  rw [Fifo.shiftW]
  split <;> simp

/-- What an rclk edge leaves to the write domain: W# as it was, and WQR# and its chain too but in the exact configuration, where
a pop performs SYNCR (R86, R93, R98). -/
structure ReadEdgeFrame (s t : State) : Prop where
  cfg : t.cfg = s.cfg
  trace : t.trace = s.trace
  held : t.wHeld = s.wHeld ∧ t.rHeld = s.rHeld
  pushed : t.fifo.ghost.pushed = s.fifo.ghost.pushed
  wqr : s.fifo.ghost.wqr ≤ t.fifo.ghost.wqr
  r : s.fifo.ghost.r ≤ t.fifo.ghost.r
  chain : s.cfg.exact = false → t.fifo.r2w = s.fifo.r2w ∧ t.fifo.ghost.wqr = s.fifo.ghost.wqr

/-- One unit edge followed by the synchroniser. -/
theorem Inv.edge_then_sync {s u t : State} (h : Inv s) (hu : Inv u) (d : UnitIn) (hp : popEdge d s = .ok u.fifo)
    (hc : u.cfg = s.cfg) (htr : u.trace = s.trace) (hh : u.wHeld = s.wHeld ∧ u.rHeld = s.rHeld)
    (ht : Machine.readSync s.fifo.wgray u = .next t) : Inv t ∧ ReadEdgeFrame s t := by
  obtain ⟨f, hf, -, h1, h2, h3, h4, h5⟩ := popEdge_spec h.legal h.fifo d
  rw [hp] at hf
  cases hf
  have hti := hu.readSync h2.symm ht
  cases ht
  obtain ⟨a1, a2, a3, a4, -⟩ := Fifo.shiftW_writeSide u.cfg s.fifo.wgray u.fifo
  refine ⟨hti, hc, htr, hh, ?_, ?_, ?_, ?_⟩
  · exact a1.trans h1
  · exact le_trans h3 (le_of_eq a3.symm)
  · have : (u.fifo.shiftW u.cfg s.fifo.wgray).ghost.r = u.fifo.ghost.r := by rw [Ghost.r, a2]; rfl
    exact le_trans h4 (le_of_eq this.symm)
  · intro hx
    exact ⟨a4.trans (h5 hx).1, a3.trans (h5 hx).2⟩

/-- The read domain on one edge keeps the invariant (R86, R93, R128). -/
theorem Inv.readEdge {s t : State} (h : Inv s) (i : ReadIn) (ht : Machine.readEdge s.fifo.wgray i s = .next t) :
    Inv t ∧ ReadEdgeFrame s t := by
  unfold Machine.readEdge at ht
  split at ht
  · cases ht
    exact ⟨h, rfl, rfl, ⟨rfl, rfl⟩, rfl, le_refl _, le_refl _, fun _ => ⟨rfl, rfl⟩⟩
  · cases htop : s.cfg.top <;> cases i <;> simp only [htop] at ht
    · rename_i u
      obtain ⟨v, hv, hvi, hp, hc, htr, hw, hr⟩ := h.unitEdge htop u
      rw [hv] at ht
      exact h.edge_then_sync hvi u hp hc htr ⟨hw, hr⟩ ht
    · exact nomatch ht
    · exact nomatch ht
    · rename_i i
      obtain ⟨v, hv, hvi, hp, hc, htr, hw, hr⟩ := h.seqEdge htop i
      rw [hv] at ht
      exact h.edge_then_sync hvi (seqDrive i s) hp hc htr ⟨hw, hr⟩ ht

/-- Both domains on one instant keep the invariant: the write domain judges full, and samples the read pointer, as they stood
before the edge. -/
theorem Inv.bothEdges {s t : State} (h : Inv s) (w : WriteIn) (r : ReadIn) (ht : Machine.bothEdges w r s = .next t) : Inv t := by
  rw [Machine.bothEdges] at ht
  cases hr : Machine.readEdge s.fifo.wgray r s with
  | fault e => rw [hr] at ht; exact nomatch ht
  | refused e => rw [hr] at ht; exact nomatch ht
  | next u =>
    rw [hr] at ht
    obtain ⟨hu, fr⟩ := h.readEdge r hr
    refine hu.writeEdge w ?_ ?_ ht
    · intro hf
      have h1 := h.fifo.room_of_not_full h.legal hf
      have h2 := fr.wqr
      have h3 : u.fifo.ghost.w = s.fifo.ghost.w := by rw [Ghost.w, fr.pushed]; rfl
      rw [h3, fr.cfg]
      omega
    · intro h0
      rw [fr.cfg] at h0 ⊢
      have hx : s.cfg.exact = false := by
        cases hx : s.cfg.exact
        · rfl
        · exact absurd (exact_stages hx) h0
      obtain ⟨c1, c2⟩ := fr.chain hx
      obtain ⟨k, k1, k2, k3, k4⟩ := h.fifo.sample_rgray
      rw [c1, c2]
      exact ⟨k, k1, le_trans k2 fr.r, k3, k4⟩

end Sys2Proof.Machine
end

