-- ==== Sys2Proof/Laws/Invariant.lean ====
section
/-! SUPPORT. Updates the invariant does not look at, and sequences of transactions. -/

namespace Sys2Proof.Machine

open Sys2Proof

/-- The observation is of no account to the invariant. -/
theorem Inv.report {s : State} (h : Inv s) (r : Result) (o : Option ParseOutcome) (k : Option Cause) : Inv (s.report r o k) :=
  ⟨h.legal, h.fifo, h.parser, h.debounce,
    { phaseUsed := h.seq.phaseUsed, takeInSample := h.seq.takeInSample, busyNotWait := h.seq.busyNotWait
      noRelPend := h.seq.noRelPend, flagsTaken := h.seq.flagsTaken, oneFlag := h.seq.oneFlag, flushed := h.seq.flushed
      unitIdle := h.seq.unitIdle }, h.ticks⟩

/-- The trace is of no account to the invariant. -/
theorem Inv.withTrace {s : State} (h : Inv s) (tr : List HostStep) : Inv (s.withTrace tr) :=
  ⟨h.legal, h.fifo, h.parser, h.debounce,
    { phaseUsed := h.seq.phaseUsed, takeInSample := h.seq.takeInSample, busyNotWait := h.seq.busyNotWait
      noRelPend := h.seq.noRelPend, flagsTaken := h.seq.flagsTaken, oneFlag := h.seq.oneFlag, flushed := h.seq.flushed
      unitIdle := h.seq.unitIdle }, h.ticks⟩

/-- Another good FIFO keeps the invariant. -/
theorem Inv.withFifo {s : State} (h : Inv s) {f : Fifo} (hf : FifoInv s.cfg f) : Inv (s.withFifo f) :=
  ⟨h.legal, hf, h.parser, h.debounce,
    { phaseUsed := h.seq.phaseUsed, takeInSample := h.seq.takeInSample, busyNotWait := h.seq.busyNotWait
      noRelPend := h.seq.noRelPend, flagsTaken := h.seq.flagsTaken, oneFlag := h.seq.oneFlag, flushed := h.seq.flushed
      unitIdle := h.seq.unitIdle }, h.ticks⟩

/-- A transaction in a held domain changes the observation alone (R150). -/
theorem ignoreInstr_next {i : Instr} {s t : State} (h : ignoreInstr i s = .next t) : t = s.report (ignoredResult i s) := by
  unfold ignoreInstr at h
  split at h
  · split at h
    · cases h; rfl
    · exact nomatch h
  · exact nomatch h

/-- A well-formed one completes. -/
theorem ignoreInstr_of_wellFormed {i : Instr} {s : State} (h : i.wellFormed s.cfg = true) :
    ignoreInstr i s = .next (s.report (ignoredResult i s)) := by
  simp only [Instr.wellFormed, Bool.and_eq_true] at h
  rw [ignoreInstr, if_pos h.1.2, if_pos h.2]

/-- Asynchronous clocks are not the exact configuration (R98). -/
theorem async_not_exact {c : Config} (h : c.async = true) : c.exact = false := by simp [Config.exact, h]

/-- A sequence of transactions that completes is followed by the rest. -/
theorem execAll_append {a b : List Instr} {s t : State} (h : execAll a s = .next t) : execAll (a ++ b) s = execAll b t := by
  induction a generalizing s with
  | nil => cases h; rfl
  | cons i a ih =>
    simp only [execAll, List.cons_append] at h ⊢
    cases he : exec i s with
    | next u => rw [he] at h; exact ih h
    | fault r => rw [he] at h; exact nomatch h
    | refused r => rw [he] at h; exact nomatch h

/-- A run of one step and k more, by what the step answers. -/
theorem run_succ_next {s t : State} (h : step s = .next t) (k : Nat) :
    Host.Core.run Sys2Proof.core (k + 1) s = Host.Core.run Sys2Proof.core k t := by
  have h' : Sys2Proof.core.step s = .next t := h
  simp only [Host.Core.run, h']

theorem run_succ_fault {s : State} {e : Fault} (h : step s = .fault e) (k : Nat) :
    Host.Core.run Sys2Proof.core (k + 1) s = .fault e := by
  have h' : Sys2Proof.core.step s = .fault e := h
  simp only [Host.Core.run, h']

theorem run_succ_refused {s : State} {e : Refusal} (h : step s = .refused e) (k : Nat) :
    Host.Core.run Sys2Proof.core (k + 1) s = .refused e := by
  have h' : Sys2Proof.core.step s = .refused e := h
  simp only [Host.Core.run, h']

end Sys2Proof.Machine
end

