-- ==== Sys2Proof/Laws/Duties.lean ====
section
/-! SUPPORT. An edge on which the host keeps its duty to tick (70_reset_and_hazards.md R153 (a)): what it counts, that the count
keeps the invariant, and that no edge looks at the count or at the observation. -/

namespace Sys2Proof.Machine

open Sys2Proof

/-- An edge that completes is one on time. -/
theorem onTime_next {i : ReadIn} {s t : State} {k : State → StepResult} (h : onTime i s k = .next t) :
    s.tickOnTime i = true ∧ k (s.withSinceTick (s.sinceTickAfter i)) = .next t := by
  unfold onTime at h
  split at h
  · exact ⟨‹_›, h⟩
  · exact nomatch h

/-- On time an edge is counted, and otherwise does what it does. -/
theorem onTime_of {i : ReadIn} {s : State} (h : s.tickOnTime i = true) (k : State → StepResult) :
    onTime i s k = k (s.withSinceTick (s.sinceTickAfter i)) := if_pos h

/-- An edge off time is refused. -/
theorem onTime_refused {i : ReadIn} {s : State} (h : s.tickOnTime i = false) (k : State → StepResult) :
    onTime i s k = .refused .hostDuty := if_neg (by rw [h]; decide)

/-- While the read domain is held every edge is on time and none is counted. -/
theorem State.held_onTime {s : State} (h : s.rHeld = true) (i : ReadIn) :
    s.tickOnTime i = true ∧ s.sinceTickAfter i = s.sinceTick := by
  unfold State.tickOnTime State.sinceTickAfter
  cases s.cfg.top <;> cases i <;> cases s.sinceTick <;> simp [h]

/-- For the unit top every edge is on time and none is counted. -/
theorem State.unit_onTime {s : State} (h : s.cfg.top = .unit) (i : ReadIn) :
    s.tickOnTime i = true ∧ s.sinceTickAfter i = s.sinceTick := by
  simp only [State.tickOnTime, State.sinceTickAfter, h, and_self]

/-- Before the host has begun to tick no tick is overdue. -/
theorem TickInv.none (c : Config) : TickInv c none := fun _ h => nomatch h

/-- No edge on time leaves a tick overdue. -/
theorem TickInv.after {s : State} (h : TickInv s.cfg s.sinceTick) {i : ReadIn} (ht : s.tickOnTime i = true) :
    TickInv s.cfg (s.sinceTickAfter i) := by
  have hp : 1 ≤ s.cfg.tickPeriod := Nat.succ_pos _
  intro k hk
  unfold State.sinceTickAfter at hk
  split at hk
  · next j htop =>
    split at hk
    · exact h k hk
    · next hh =>
      split at hk
      · cases hk; exact ⟨le_refl _, hp⟩
      · next hj =>
        cases hs : s.sinceTick with
        | none => rw [hs] at hk; exact nomatch hk
        | some n =>
          rw [hs] at hk
          cases hk
          simp only [State.tickOnTime, htop, hs, hh, hj, Bool.false_or, beq_iff_eq] at ht
          have : ¬ s.cfg.tickPeriod ≤ n := of_decide_eq_false ht.symm
          exact ⟨Nat.succ_pos _, Nat.lt_of_not_le this⟩
  · exact h k hk
  · exact h k hk

/-- The count of an edge on time keeps the invariant. -/
theorem Inv.countTick {s : State} (h : Inv s) {i : ReadIn} (ht : s.tickOnTime i = true) :
    Inv (s.withSinceTick (s.sinceTickAfter i)) :=
  ⟨h.legal, h.fifo, h.parser, h.debounce, h.seq.congr rfl rfl rfl rfl rfl, h.ticks.after ht⟩

/-- The units of an edge look at neither the count nor the observation. -/
theorem unitEdge_counted (u : UnitIn) (s : State) (k : Option Nat) (r : Result) :
    unitEdge u ((s.withSinceTick k).report r) = (unitEdge u s).map fun t => (t.withSinceTick k).report r := by
  have hf : popEdge u ((s.withSinceTick k).report r) = popEdge u s := rfl
  have hp : parserEdge u ((s.withSinceTick k).report r) = parserEdge u s := rfl
  rw [unitEdge, unitEdge, hf, hp]
  cases popEdge u s <;> cases parserEdge u s <;> rfl

/-- Nor does the sequencer's edge. -/
theorem seqEdge_counted (i : TopIn) (s : State) (k : Option Nat) (r : Result) :
    seqEdge i ((s.withSinceTick k).report r) = (seqEdge i s).map fun t => (t.withSinceTick k).report r := by
  have hd : seqDrive i ((s.withSinceTick k).report r) = seqDrive i s := rfl
  have hn : fsmNext i ((s.withSinceTick k).report r) = fsmNext i s := rfl
  have ht : tickNext i ((s.withSinceTick k).report r) = tickNext i s := rfl
  rw [seqEdge, seqEdge, hd, hn, ht, unitEdge_counted]
  cases fsmNext i s <;> cases unitEdge (seqDrive i s) s <;> rfl

/-- In a good state the read domain's edge completes where it is held or the inputs are those of the top, and is refused
otherwise (R79, R150). -/
theorem Inv.readEdge_cases {s : State} (h : Inv s) (g : Nat) (i : ReadIn) :
    ((s.rHeld || i.fits s.cfg.top) = true ∧ ∃ t, Machine.readEdge g i s = .next t) ∨
      ((s.rHeld || i.fits s.cfg.top) = false ∧ Machine.readEdge g i s = .refused .notInConfig) := by
  unfold Machine.readEdge
  cases hh : s.rHeld
  · simp only [Bool.false_or, Bool.false_eq_true, if_false]
    cases htop : s.cfg.top <;> cases i <;> simp only [ReadIn.fits]
    · obtain ⟨t, ht, -⟩ := h.unitEdge htop _
      rw [ht]
      exact .inl ⟨trivial, _, rfl⟩
    · exact .inr ⟨trivial, trivial⟩
    · exact .inr ⟨trivial, trivial⟩
    · obtain ⟨t, ht, -⟩ := h.seqEdge htop _
      rw [ht]
      exact .inl ⟨trivial, _, rfl⟩
  · exact .inl ⟨rfl, s, rfl⟩

/-- The write domain's edge completes in every state. -/
theorem writeEdge_completes (full : Bool) (sampled : Nat) (i : WriteIn) (s : State) :
    ∃ t, writeEdge full sampled i s = .next t := by
  unfold writeEdge
  split <;> exact ⟨_, rfl⟩

/-- In a good state an edge of both clocks completes where that of the read domain does. -/
theorem Inv.bothEdges_cases {s : State} (h : Inv s) (w : WriteIn) (i : ReadIn) :
    ((s.rHeld || i.fits s.cfg.top) = true ∧ ∃ t, Machine.bothEdges w i s = .next t) ∨
      ((s.rHeld || i.fits s.cfg.top) = false ∧ Machine.bothEdges w i s = .refused .notInConfig) := by
  unfold Machine.bothEdges
  rcases h.readEdge_cases s.fifo.wgray i with ⟨hf, u, hu⟩ | ⟨hf, hu⟩ <;> rw [hu]
  · exact .inl ⟨hf, writeEdge_completes ..⟩
  · exact .inr ⟨hf, rfl⟩

/-- A read-domain edge whose own part completes or is refused so: it completes exactly where the host is given it (R153 (a)), and
is refused otherwise. -/
theorem onTime_cases {i : ReadIn} {s : State} {k : State → StepResult}
    (hk : s.tickOnTime i = true →
      ((s.rHeld || i.fits s.cfg.top) = true ∧ ∃ t, k (s.withSinceTick (s.sinceTickAfter i)) = .next t) ∨
      ((s.rHeld || i.fits s.cfg.top) = false ∧ k (s.withSinceTick (s.sinceTickAfter i)) = .refused .notInConfig)) :
    (i.offered s = true ∧ ∃ t, onTime i s k = .next t) ∨ (i.offered s = false ∧ ∃ r, onTime i s k = .refused r) := by
  cases ho : s.tickOnTime i
  · have hh : s.rHeld = false := by
      cases hh : s.rHeld
      · rfl
      · exact absurd (State.held_onTime hh i).1 (by rw [ho]; decide)
    exact .inr ⟨by simp [ReadIn.offered, ho, hh], _, onTime_refused ho k⟩
  · rw [onTime_of ho]
    rcases hk ho with ⟨hf, t, ht⟩ | ⟨hf, ht⟩
    · exact .inl ⟨by simpa [ReadIn.offered, ho] using hf, t, ht⟩
    · exact .inr ⟨by simpa [ReadIn.offered, ho] using hf, _, ht⟩

/-- In a good state a clock edge completes exactly where the host is given it, and is refused otherwise. -/
theorem Inv.edge_cases {s : State} (h : Inv s) {e : HostStep}
    (he : (∃ w, e = .wclk w) ∨ (∃ r, e = .rclk r) ∨ ∃ w r, e = .clk w r) :
    (e.offered s = true ∧ ∃ t, runHostStep e s = .next t) ∨ (e.offered s = false ∧ ∃ r, runHostStep e s = .refused r) := by
  rcases he with ⟨w, rfl⟩ | ⟨r, rfl⟩ | ⟨w, r, rfl⟩ <;> simp only [runHostStep, HostStep.offered]
  · cases ha : s.cfg.async <;> simp only [asyncOnly, ha]
    · exact .inr ⟨trivial, _, rfl⟩
    · exact .inl ⟨trivial, writeEdge_completes ..⟩
  · cases ha : s.cfg.async <;> simp only [asyncOnly, ha, Bool.true_and, Bool.false_and]
    · exact .inr ⟨trivial, _, rfl⟩
    · exact onTime_cases (i := r) (k := fun u => Machine.readEdge u.fifo.wgray r (u.report .unit))
        fun ho => ((h.countTick ho).report .unit none none).readEdge_cases _ r
  · exact onTime_cases fun ho => ((h.countTick ho).report .unit none none).bothEdges_cases w r

end Sys2Proof.Machine
end

