-- ==== Sys2Proof/Laws/Encoding.lean ====
section
/-! SUPPORT. What the fields of an assembled word are (30_encoding.md R61, R77), what the byte classes are as numbers (R65, R66),
and that the register `out` keeps a message but for its group (10_state.md R40). -/

namespace Sys2Proof

theorem wordOp_mkWord (op : BitVec 4) (imm : Byte) : wordOp (mkWord op imm) = op := by
  rw [wordOp, mkWord]
  apply BitVec.eq_of_getLsbD_eq
  intro i hi
  simp only [BitVec.getLsbD_extractLsb', BitVec.getLsbD_append, hi, decide_true, Bool.true_and]
  rw [if_neg (by omega), if_neg (by omega)]
  congr 1
  omega

theorem wordZ_mkWord (op : BitVec 4) (imm : Byte) : wordZ (mkWord op imm) = 0 := by
  rw [wordZ, mkWord]
  apply BitVec.eq_of_getLsbD_eq
  intro i hi
  simp only [BitVec.getLsbD_extractLsb', BitVec.getLsbD_append, hi, decide_true, Bool.true_and]
  rw [if_neg (by omega), if_pos (by omega)]
  congr 1
  omega

theorem wordImm_mkWord (op : BitVec 4) (imm : Byte) : wordImm (mkWord op imm) = imm := by
  rw [wordImm, mkWord]
  apply BitVec.eq_of_getLsbD_eq
  intro i hi
  simp only [BitVec.getLsbD_extractLsb', BitVec.getLsbD_append, hi, decide_true, Bool.true_and]
  rw [if_pos (by omega)]
  congr 1
  omega

/-- A level operand reads back (R63). -/
theorem levelImm_reads (r : Bool) : (levelImm r).extractLsb' 1 7 = 0 ∧ (levelImm r).getLsbD 0 = r := by
  cases r <;> decide

namespace Machine

/-- R65 on numbers. -/
theorem isStatus_iff (b : Byte) : isStatus b = decide (128 ≤ b.toNat) := by
  revert b
  decide

/-- R66 on numbers. -/
theorem category_toNat (b : Byte) : (category b).toNat = b.toNat / 16 % 8 := by
  revert b
  decide

/-- What the transport is handed is the message that was packed, in group 0. -/
theorem Message.unpack_pack (m : Message) : Message.unpack m.pack = { m with group := 0 } := by
  obtain ⟨l, a, b, c, g⟩ := m
  simp only [Message.unpack, Message.pack, Message.mk.injEq, and_true]
  refine ⟨?_, ?_, ?_, ?_⟩ <;> apply BitVec.eq_of_getLsbD_eq <;> intro i hi <;>
    simp only [BitVec.getLsbD_extractLsb', BitVec.getLsbD_append, hi, decide_true, Bool.true_and]
  · rw [if_neg (by omega), if_neg (by omega), if_neg (by omega)]
    congr 1
    omega
  · rw [if_neg (by omega), if_neg (by omega), if_pos (by omega)]
    congr 1
    omega
  · rw [if_neg (by omega), if_pos (by omega)]
    congr 1
    omega
  · rw [if_pos (by omega)]
    congr 1
    omega

end Machine

end Sys2Proof
end

