-- ==== Sys2Proof/Laws/PerInstr.lean ====
section
/-! SUPPORT. The shape of every instruction's word (30_encoding.md R61): its fields are the operation's, with the reserved field
zero. -/

namespace Sys2Proof.Laws

open Sys2Proof

/-- The fields of the instruction's word are its operation and operand, and `z` is 0. -/
def EncodeShape.Statement (i : Instr) : Prop :=
  wordOp (encode i) = i.op ∧ wordZ (encode i) = 0 ∧ wordImm (encode i) = i.imm ∧ i.op ≠ 0

/-- The fields of any word built by the encoder. -/
theorem encode_fields (i : Instr) : wordOp (encode i) = i.op ∧ wordZ (encode i) = 0 ∧ wordImm (encode i) = i.imm :=
  ⟨wordOp_mkWord _ _, wordZ_mkWord _ _, wordImm_mkWord _ _⟩

/-- An instruction whose operation is not the reserved one has the shape. -/
theorem encodeShape_of_op {i : Instr} (h : i.op ≠ 0) : EncodeShape.Statement i :=
  ⟨(encode_fields i).1, (encode_fields i).2.1, (encode_fields i).2.2, h⟩

theorem EncodeShape.push (v : Byte) : EncodeShape.Statement (.push v) := encodeShape_of_op (by rw [Instr.op]; decide)

theorem EncodeShape.pop : EncodeShape.Statement .pop := encodeShape_of_op (by decide)

theorem EncodeShape.size : EncodeShape.Statement .size := encodeShape_of_op (by decide)

theorem EncodeShape.empty : EncodeShape.Statement .empty := encodeShape_of_op (by decide)

theorem EncodeShape.capacity : EncodeShape.Statement .capacity := encodeShape_of_op (by decide)

theorem EncodeShape.wlevel : EncodeShape.Statement .wlevel := encodeShape_of_op (by decide)

theorem EncodeShape.syncw : EncodeShape.Statement .syncw := encodeShape_of_op (by decide)

theorem EncodeShape.syncr : EncodeShape.Statement .syncr := encodeShape_of_op (by decide)

theorem EncodeShape.parse (b : Byte) : EncodeShape.Statement (.parse b) := encodeShape_of_op (by rw [Instr.op]; decide)

theorem EncodeShape.setmask (m : Byte) : EncodeShape.Statement (.setmask m) := encodeShape_of_op (by rw [Instr.op]; decide)

theorem EncodeShape.sample (r : Bool) : EncodeShape.Statement (.sample r) := encodeShape_of_op (by rw [Instr.op]; decide)

theorem EncodeShape.takep : EncodeShape.Statement .takep := encodeShape_of_op (by decide)

theorem EncodeShape.taker : EncodeShape.Statement .taker := encodeShape_of_op (by decide)

theorem EncodeShape.bstep (r : Bool) : EncodeShape.Statement (.bstep r) := encodeShape_of_op (by rw [Instr.op]; decide)

theorem EncodeShape.tick : EncodeShape.Statement .tick := encodeShape_of_op (by decide)

end Sys2Proof.Laws
end

