-- ==== Sys2Proof/Tests/Slice0.lean ====
section
/-! SUPPORT. Tests of one step each, with results taken from spec/95_test_vectors.md or worked out by hand from the rule cited, and
for every obligation with hypotheses a state and operands that meet them all. -/

namespace Sys2Proof.Tests

open Sys2Proof Sys2Proof.Machine

/-! Helpers -/

/-- The parameters of 95_test_vectors.md (its Conventions and the N = 4 of Program 2), every value written out. -/
def tcfg (top : TopConfig) (n ctrW : Nat) (async : Bool) (stages : Nat) : Config where
  n := n
  ctrW := ctrW
  dataW := 8
  async := async
  syncStages := stages
  sysLen := Vector.replicate 16 SysLen.reject
  filterCfg := 0x02
  w := 16
  k := 13
  dcValue := 0xE000
  pressPattern := 0xEFFF
  releasePattern := 0xF000
  noteChannel := 0
  notePitch := 0x3C
  noteVelocity := 0x64
  tickPeriodPred := 0
  top := top

/-- UNIT, N = 4, CTR_W = 2, asynchronous. -/
def cU : Config := tcfg .unit 4 2 true 2

/-- INTEGRATED, N = 4, CTR_W = 2, asynchronous. -/
def cI : Config := tcfg .integrated 4 2 true 2

/-- UNIT in the exact configuration (R98). -/
def cX : Config := tcfg .unit 4 2 false 0

/-- INTEGRATED in the exact configuration. -/
def cXI : Config := tcfg .integrated 4 2 false 0

/-- INTEGRATED with a tick every second rclk cycle. -/
def cI2 : Config := { cI with tickPeriodPred := 1 }

/-- UNIT, one clock, with one stage between the domains. -/
def cS : Config := tcfg .unit 4 2 false 1

/-- UNIT, asynchronous, with slots of twelve bits. -/
def c12 : Config := { tcfg .unit 4 2 true 2 with dataW := 12 }

/-- UNIT with wider pointers, otherwise `cU`. -/
def cU5 : Config := tcfg .unit 4 5 true 2

/-- The reset state under a configuration. -/
def start (c : Config) : State := State.atReset c []

/-- The FIFO after pushes into a buffer that has room, none of them visible to the reader where the domains are apart. -/
def holding (c : Config) (bs : List Nat) : Fifo := bs.foldl (fun f b => f.pushIf c false b) (Fifo.atReset c)

/-- The same, and the write pointer has crossed. -/
def visible (c : Config) (bs : List Nat) : Fifo := (holding c bs).crossW c

/-- The state after a step that completed. -/
def stateOf (r : StepResult) : Option State :=
  match r with
  | .next s => some s
  | .fault _ => none
  | .refused _ => none

/-- Whether a step refused, and why. -/
def refusalOf (r : StepResult) : Option Refusal :=
  match r with
  | .next _ => none
  | .fault _ => none
  | .refused e => some e

/-- Whether a step faulted, and why. -/
def faultOf (r : StepResult) : Option Fault :=
  match r with
  | .next _ => none
  | .fault e => some e
  | .refused _ => none

/-- Some property of the state after a step that completed. -/
def gives {α : Type} [DecidableEq α] (r : StepResult) (f : State → α) (v : α) : Bool := (stateOf r).map f == some v

/-! Well-formedness: an ill-formed term for each check -/

theorem test_wf_good : (Instr.push 0x90).wellFormed cI = true := by decide

theorem test_wf_capacity : (Instr.setmask 0).wellFormed { cU with n := 6 } = false := by decide

theorem test_wf_capacity_one : (Instr.setmask 0).wellFormed { cU with n := 1 } = false := by decide

theorem test_wf_ctrW : (Instr.setmask 0).wellFormed { cU with ctrW := 1 } = false := by decide

theorem test_wf_dataW : (Instr.setmask 0).wellFormed { cU with dataW := 0 } = false := by decide

theorem test_wf_stages : (Instr.setmask 0).wellFormed { cU with syncStages := 1 } = false := by decide

theorem test_wf_k : (Instr.setmask 0).wellFormed { cU with k := 17 } = false := by decide

theorem test_wf_dcValue : (Instr.setmask 0).wellFormed { cU with dcValue := 0xE001 } = false := by decide

theorem test_wf_patterns : (Instr.setmask 0).wellFormed { cU with pressPattern := 0xF000 } = false := by decide

theorem test_wf_port_unit : Instr.tick.wellFormed cU = false := by decide

theorem test_wf_port_integrated : Instr.pop.wellFormed cI = false := by decide

theorem test_wf_width : (Instr.push 0x90).wellFormed { cU with dataW := 9 } = false := by decide

/-! Decoding: a word for every operation, bit by bit from R61 to R63, and illegal words -/

theorem test_decode_push : decodeWord 0b0001_0000_1001_0000 = .ok (.push 0x90) := by decide

theorem test_decode_pop : decodeWord 0b0010_0000_0000_0000 = .ok .pop := by decide

theorem test_decode_size : decodeWord 0b0011_0000_0000_0000 = .ok .size := by decide

theorem test_decode_empty : decodeWord 0b0100_0000_0000_0000 = .ok .empty := by decide

theorem test_decode_capacity : decodeWord 0b0101_0000_0000_0000 = .ok .capacity := by decide

theorem test_decode_wlevel : decodeWord 0b0110_0000_0000_0000 = .ok .wlevel := by decide

theorem test_decode_syncw : decodeWord 0b0111_0000_0000_0000 = .ok .syncw := by decide

theorem test_decode_syncr : decodeWord 0b1000_0000_0000_0000 = .ok .syncr := by decide

theorem test_decode_parse : decodeWord 0b1001_0000_1111_1000 = .ok (.parse 0xF8) := by decide

theorem test_decode_setmask : decodeWord 0b1010_0000_0111_1111 = .ok (.setmask 0x7F) := by decide

theorem test_decode_sample : decodeWord 0b1011_0000_0000_0001 = .ok (.sample true) := by decide

theorem test_decode_takep : decodeWord 0b1100_0000_0000_0000 = .ok .takep := by decide

theorem test_decode_taker : decodeWord 0b1101_0000_0000_0000 = .ok .taker := by decide

theorem test_decode_bstep : decodeWord 0b1110_0000_0000_0001 = .ok (.bstep true) := by decide

theorem test_decode_tick : decodeWord 0b1111_0000_0000_0000 = .ok .tick := by decide

/-- R64 (a) to (d). -/
theorem test_decode_illegal :
    decodeWord 0x00FF = .error .reservedOp ∧ decodeWord 0x1190 = .error .reservedBits ∧
      decodeWord 0x2001 = .error .operandPresent ∧ decodeWord 0xB002 = .error .levelBits := by decide

/-- No two rows of the opcode table share a word. -/
theorem test_rows_disjoint :
    opcodeTable.Pairwise fun a b => a.value &&& (a.mask &&& b.mask) ≠ b.value &&& (a.mask &&& b.mask) := by decide

/-- From reset, every row's word is fetched, decoded and run as the very next step. -/
theorem test_rows_run : opcodeTable.all (fun r =>
    (decodeTableWord 16 r.value.toNat).map Instr.mnemonic == some r.mnemonic &&
      (stateOf (step (State.reset.withFetchWord 16 r.value.toNat))).isSome) = true := by decide

/-- R77's examples and R78's rows: a transaction with a comment, a pseudo-instruction and a repeated sample. -/
theorem test_assemble :
    assembleWord "PUSH 0x90 ; note on".toList = some 0x1090 ∧ assembleWord "SAMPLE 1".toList = some 0xB001 ∧
      assembleTrace ["XFER 0x05".toList, "; nothing".toList, "SAMPLE*3 1".toList, "PARSES 0x90 0x40".toList] =
        some [0x1005, 0x7000, 0xB001, 0xB001, 0xB001, 0x9090, 0x9040] ∧ assembleLine "PUSH 5".toList = none := by decide

/-! One step of each instruction -/

/-- Program 1, line 1. -/
theorem test_push_stores : gives (exec (.push 0x11) (start cU))
    (fun t => (t.obs, t.fifo.wptr, t.fifo.mem, t.fifo.rqWptr)) (⟨.bool true, none, none⟩, 1, [(0, 0x11)], 0) = true := by decide

/-- Program 2, line 4: full at N - 1. -/
theorem test_push_full : gives (exec (.push 0x0D) ((start cU).withFifo (holding cU [0x0A, 0x0B, 0x0C])))
    (fun t => (t.obs, t.fifo.wptr, t.fifo.mem)) (⟨.bool false, none, some .queueFull⟩, 3, [(0, 0x0A), (1, 0x0B), (2, 0x0C)]) = true := by
  decide

/-- Program 2, line 7. -/
theorem test_pop_oldest : gives (exec .pop ((start cU).withFifo (visible cU [0x0A, 0x0B, 0x0C])))
    (fun t => (t.obs, t.fifo.rptr)) (⟨.item (some 0x0A), none, none⟩, 1) = true := by decide

/-- Program 1, line 5: a push not yet visible. -/
theorem test_pop_not_visible : gives (exec .pop ((start cU).withFifo (holding cU [0x11])))
    (fun t => (t.obs, t.fifo.rptr)) (⟨.item none, none, some .queueEmpty⟩, 0) = true := by decide

/-- Program 1, line 7. -/
theorem test_size : gives (exec .size ((start cU).withFifo (visible cU [0x11, 0x22, 0x33]))) (fun t => t.obs.result) (.count 3) = true := by
  decide

/-- Program 1, line 4. -/
theorem test_empty : gives (exec .empty ((start cU).withFifo (holding cU [0x11]))) (fun t => t.obs.result) (.bool true) = true := by decide

/-- L1.3, step 1. -/
theorem test_capacity : gives (exec .capacity (start (tcfg .unit 128 7 true 2))) (fun t => t.obs.result) (.count 128) = true := by decide

/-- Program 2, line 5. -/
theorem test_wlevel_full : gives (exec .wlevel ((start cU).withFifo (holding cU [1, 2, 3])))
    (fun t => t.obs.result) (.level 3 true) = true := by decide

/-- Program 2, line 11: the write pointer has wrapped to 0 and `wq_rptr` is 1. -/
theorem test_wlevel_wrapped : gives (exec .wlevel ((start cU).withFifo { Fifo.atReset cU with wptr := 0, wqRptr := 1 }))
    (fun t => t.obs.result) (.level 3 true) = true := by decide

/-- Program 1, line 6. -/
theorem test_syncw : gives (exec .syncw ((start cU).withFifo (holding cU [1, 2, 3])))
    (fun t => (t.fifo.rqWptr, t.fifo.wqRptr, t.obs.result)) (3, 0, .unit) = true := by decide

/-- Program 1, line 11. -/
theorem test_syncr : gives (exec .syncr ((start cU).withFifo { Fifo.atReset cU with rptr := 2 }))
    (fun t => (t.fifo.rqWptr, t.fifo.wqRptr, t.obs.result)) (0, 2, .unit) = true := by decide

/-- L1.4, the third byte. -/
theorem test_parse_message : gives (exec (.parse 0x7F) ((start cU).withParser ⟨0x02, 0x90, 0x40, 0x00, 3, 1⟩))
    (fun t => (t.obs.result, t.obs.outcome, t.parser)) (.message (some ⟨3, 0x90, 0x40, 0x7F, 0⟩), some .message, ⟨0x02, 0x90, 0x40, 0x7F, 3, 0⟩)
    = true := by decide

/-- Program 3, line 11: a filtered status byte abandons the message; `len` and the buffer stay. -/
theorem test_parse_abort : gives (exec (.parse 0xB0) ((start cU).withParser ⟨0x12, 0x90, 0x3C, 0x7F, 3, 1⟩))
    (fun t => (t.obs.outcome, t.obs.cause, t.parser)) (some .abortFilter, some (.parseDiscard .abortFilter), ⟨0x12, 0x90, 0x3C, 0x7F, 3, 0⟩)
    = true := by decide

/-- P19: a mask write leaves a message in flight alone. -/
theorem test_setmask : gives (exec (.setmask 0x00) ((start cU).withParser ⟨0x02, 0x90, 0x40, 0x00, 3, 1⟩))
    (fun t => (t.parser, t.obs.result)) (⟨0x00, 0x90, 0x40, 0x00, 3, 1⟩, .unit) = true := by decide

/-- Program 5, line 12. -/
theorem test_sample_match : gives (exec (.sample true) ((start cU).withDebounce ⟨0xE7FF, false, false⟩))
    (fun t => t.debounce) ⟨0xEFFF, true, false⟩ = true := by decide

/-- Program 5, line 27. -/
theorem test_sample_release : gives (exec (.sample false) ((start cU).withDebounce ⟨0xF800, false, false⟩))
    (fun t => t.debounce) ⟨0xF000, false, true⟩ = true := by decide

/-- Program 5, line 14. -/
theorem test_takep : gives (exec .takep ((start cU).withDebounce ⟨0xFFFF, true, true⟩))
    (fun t => (t.obs.result, t.debounce)) (.bool true, ⟨0xFFFF, false, true⟩) = true := by decide

/-- Program 5, line 28. -/
theorem test_taker : gives (exec .taker ((start cU).withDebounce ⟨0xF000, true, true⟩))
    (fun t => (t.obs.result, t.debounce)) (.bool true, ⟨0xF000, true, false⟩) = true := by decide

/-- Program 4, line 11: the completing byte is sent and flushed. -/
theorem test_bstep_message : gives
    (exec (.bstep false) ((((start cI).withFifo (visible cI [0x7F])).withParser ⟨0x02, 0x90, 0x40, 0, 3, 1⟩).toPhase .drain))
    (fun t => (t.txLog, t.seq.phase, t.fifo.rptr, t.parser.rem)) ([.send ⟨3, 0x90, 0x40, 0x7F, 0⟩, .flush], .drain, 1, 0) = true := by decide

/-- Program 6, the 12th repetition: the press event is sent. -/
theorem test_bstep_press : gives (exec (.bstep true) (((start cI).withDebounce ⟨0xE7FF, false, false⟩).toPhase .sample))
    (fun t => (t.txLog, t.seq.phase, t.debounce)) ([.send ⟨3, 0x90, 0x3C, 0x64, 0⟩, .flush], .wait, ⟨0xEFFF, false, false⟩) = true := by decide

/-- Program 4, line 7. -/
theorem test_tick : gives (exec .tick (start cI)) (fun t => (t.seq.tickPending, t.seq.phase)) (true, .wait) = true := by decide

/-! Cycle level -/

/-- R116: a take and a match in one cycle. -/
theorem test_take_and_match : gives
    (runHostStep (.rclk (.unit { dbSample := true, rawActive := true, takeP := true })) ((start cU).withDebounce ⟨0xE7FF, false, false⟩))
    (fun t => t.debounce) ⟨0xEFFF, true, false⟩ = true := by decide

/-- P20: the byte of a cycle is judged under the mask before the edge. -/
theorem test_mask_same_cycle : gives
    (runHostStep (.rclk (.unit { cfgWe := true, cfgMask := 0x02, pbValid := true, pbData := 0x90 })) (start cU))
    (fun t => (t.parser.rem, t.parser.mask)) (0, 0x02) = true := by decide

/-- R93: with two stages a pushed element is visible after two read-domain edges; here the second of them. -/
theorem test_second_stage : gives
    (runHostStep (.rclk (.unit {})) ((start cU).withFifo { holding cU [0x11] with w2r := [1, 0] }))
    (fun t => (t.fifo.rqWptr, t.fifo.w2r)) (1, [1, 1]) = true := by decide

/-- R19, R80, R84: with DATA_W = 12 a port push stores all twelve bits of the item, and no more. -/
theorem test_wide_item : gives (runHostStep (.wclk ⟨true, 0x5ABC⟩) (start c12))
    (fun t => (t.fifo.mem, t.fifo.wptr)) ([(0, 0xABC)], 1) = true := by decide

/-- R128: the drain cycle of a completing byte offers its message. -/
theorem test_fsm_drain : gives
    (runHostStep (.rclk (.integrated {})) ((((start cI).withFifo (visible cI [0x7F])).withParser ⟨0x02, 0x90, 0x40, 0, 3, 1⟩).toPhase .drain))
    (fun t => (t.seq.sub, Message.unpack t.seq.out, t.txLog)) (.send, ⟨3, 0x90, 0x40, 0x7F, 0⟩, []) = true := by decide

/-- R134 to R137: the codes 1 to 4, the third with its sub-codes 3.1 to 3.4. -/
theorem test_cause_codes :
    [Cause.queueFull, .queueEmpty, .parseDiscard .filter, .transportFailure].map Cause.code = [1, 2, 3, 4] ∧
      [DiscardKind.filter, .abortFilter, .abortAccept, .discardIdle].map DiscardKind.subCode = [1, 2, 3, 4] := by decide

/-- R33, R40: the encodings of `phase` and of `sub`. -/
theorem test_sequencer_encodings :
    [Phase.wait, .drain, .sample].map Phase.encoding = [0, 1, 2] ∧ [Sub.idle, .send, .flush, .take].map Sub.encoding = [0, 1, 2, 3] := by
  decide

/-! States of the invariant -/

theorem cU_legal : cU.legal = true := by decide

theorem cI_legal : cI.legal = true := by decide

theorem cX_legal : cX.legal = true := by decide

theorem cXI_legal : cXI.legal = true := by decide

theorem cS_legal : cS.legal = true := by decide

theorem cU5_legal : cU5.legal = true := by decide

/-- One visible byte in the FIFO of a legal configuration. -/
theorem fifoInv_visible_one {c : Config} (h : c.legal = true) {v : Nat} (hv : v < 2 ^ c.dataW) : FifoInv c (visible c [v]) := by
  have hn := (legal_capacity h).2
  have h0 := FifoInv.atReset c
  exact (h0.pushIf (v := v) (full := false) h hv (fun _ => by simp [Fifo.atReset, Ghost.w]; omega)).crossW

/-- One byte in the FIFO of a legal configuration, not yet visible where the domains are apart. -/
theorem fifoInv_holding_one {c : Config} (h : c.legal = true) {v : Nat} (hv : v < 2 ^ c.dataW) : FifoInv c (holding c [v]) := by
  have hn := (legal_capacity h).2
  exact (FifoInv.atReset c).pushIf (v := v) (full := false) h hv (fun _ => by simp [Fifo.atReset, Ghost.w]; omega)

/-- The unit top with a good FIFO and a parser waiting for the last byte of a message. -/
def unitWith (c : Config) (f : Fifo) : State := ((start c).withFifo f).withParser ⟨0x02, 0x90, 0x40, 0x00, 3, 1⟩

theorem parserInv_waiting : ParserInv ⟨0x02, 0x90, 0x40, 0x00, 3, 1⟩ := ⟨by decide, fun _ => by decide⟩

theorem inv_unitWith {c : Config} {f : Fifo} (hl : c.legal = true) (hu : c.top = .unit) (hf : FifoInv c f) : Inv (unitWith c f) :=
  ⟨hl, hf, parserInv_waiting, DebounceInv.atReset hl, SeqInv.of_unit hu rfl rfl, TickInv.none c⟩

/-- The integrated top draining, with a good FIFO and a parser waiting for the last byte of a message. -/
def drainWith (c : Config) (f : Fifo) : State := (unitWith c f).toPhase .drain

theorem inv_drain {c : Config} {f : Fifo} (hl : c.legal = true) (ht : c.top = .integrated) (hf : FifoInv c f) : Inv (drainWith c f) :=
  ⟨hl, hf, parserInv_waiting, DebounceInv.atReset hl, SeqInv.of_idle ht rfl (fun h => nomatch h) rfl ⟨rfl, rfl⟩ rfl, TickInv.none c⟩

theorem inv_drainWith {f : Fifo} (hf : FifoInv cI f) : Inv (drainWith cI f) := inv_drain cI_legal rfl hf

/-- The integrated top offering a message. -/
def offering : State := (start cI).withSeq ⟨.drain, false, .send, Message.pack ⟨3, 0x90, 0x40, 0x7F, 0⟩, false⟩

theorem inv_offering : Inv offering :=
  ⟨cI_legal, FifoInv.atReset _, ⟨.inl rfl, fun h => absurd rfl h⟩, DebounceInv.atReset cI_legal,
    SeqInv.of_busy rfl (.inl rfl) (.inl rfl) rfl ⟨rfl, rfl⟩ rfl, TickInv.none _⟩

/-- The integrated top offering the flush of a message it has sent. -/
def flushing : State :=
  (offering.withSeq ⟨.drain, false, .flush, Message.pack ⟨3, 0x90, 0x40, 0x7F, 0⟩, false⟩).logTx (.send ⟨3, 0x90, 0x40, 0x7F, 0⟩)

theorem inv_flushing : Inv flushing :=
  ⟨cI_legal, FifoInv.atReset _, ⟨.inl rfl, fun h => absurd rfl h⟩, DebounceInv.atReset cI_legal,
    SeqInv.of_busy rfl (.inl rfl) (.inr rfl) rfl ⟨rfl, rfl⟩ rfl, TickInv.none _⟩

/-- R137: an error on the handshake cycle of a send and of a flush; none without the handshake, and none without an offer. -/
theorem test_transport_failure :
    edgeCauses { msgReady := true, msgErr := true } offering = [.transportFailure] ∧
      edgeCauses { flushReady := true, flushErr := true } flushing = [.transportFailure] ∧
      edgeCauses { msgErr := true, flushReady := true, flushErr := true } offering = [] ∧
      edgeCauses { msgReady := true, msgErr := true, flushReady := true, flushErr := true } (start cI) = [] := by decide

/-! Witnesses of the obligations' hypotheses, in the order of the obligations -/

theorem witness_EncodeOfDecode : decodeWord 0xB001 = .ok (.sample true) := by decide

theorem witness_IllegalWordsRefused :
    (decodeWord 0x1190 = .error .reservedBits ∧ ((start cU).withTrace [.word 0x1190]).cfg.legal = true ∧
      ((start cU).withTrace [.word 0x1190]).trace = .word 0x1190 :: []) ∧ (start { cU with dataW := 9 }).cfg.dataW ≠ 8 := by decide

/-- A word in a running domain, and the same in a held one. -/
theorem witness_StepRunsDecodedInstr :
    ((start cU).withHeld false true).held Instr.pop.domain = true ∧
    ((start cU).withTrace [.word 0x2000]).cfg.legal = true ∧ ((start cU).withTrace [.word 0x2000]).trace = .word 0x2000 :: [] ∧
      decodeWord 0x2000 = .ok .pop ∧ ((start cU).withTrace [.word 0x2000]).held Instr.pop.domain = false := by decide

/-- Each way to be outside the legal values, at its boundary, and what step says there. -/
theorem witness_StepRefusesBadConfig :
    [{ cU with n := 6 }, { cU with n := 1 }, { cU with ctrW := 1 }, { cU with dataW := 0 }, { cU with syncStages := 1 },
      { cU with k := 1, dcValue := 0 }, { cU with w := 12, dcValue := 0, pressPattern := 1, releasePattern := 0 },
      { cU with dcValue := 0x1E000 }, { cU with dcValue := 1 }, { cU with pressPattern := 0x10000 },
      { cU with releasePattern := 0x10000 }, { cU with pressPattern := 0xF000 }].all
        (fun c => refusalOf (step (start c)) == some .badConfig) = true ∧ (stateOf (step (start cU))).isSome = true := by decide

theorem witness_WordsWithoutPortRefused : (start cI).cfg.top = .integrated ∧ (start cU).cfg.top = .unit := by decide

/-- A trace with a step that completes and a bad one after it, of each kind, and where its run of three steps ends. -/
theorem witness_RefusalEndsRun :
    (decodeWord 0x1190 = .error .reservedBits ∧
      refusalOf (Host.Core.run Sys2Proof.core 3 ((start cU).withTrace ([.word 0x7000] ++ .word 0x1190 :: [.word 0x7000]))) = some .illegalWord) ∧
    (decodeWord 0xF000 = .ok .tick ∧ Instr.tick.wellFormed cU = false ∧
      refusalOf (Host.Core.run Sys2Proof.core 3 ((start cU).withTrace ([.word 0x7000] ++ .word 0xF000 :: []))) = some .notInConfig) ∧
    refusalOf (Host.Core.run Sys2Proof.core 3 ((start cU).withTrace ([.word 0x7000] ++ .resetOne .read :: []))) = some .partialReset := by decide

/-- A used state before each of the events, and the next states of a release with both domains held. -/
theorem witness_ResetEventValues :
    cU.legal = true ∧ ([HostStep.reset, .resetAssert, .resetRelease .write, .resetRelease .read].all fun e =>
        (stateOf (step ((unitWith cU (visible cU [0x11])).withTrace [e]))).isSome) = true ∧
      gives (step (((unitWith cU (visible cU [0x11])).withHeld true true).withTrace [.resetRelease .write]))
        (fun t => (t.wHeld, t.rHeld, t.fifo.wptr)) (false, true, 1) = true ∧
      ((unitWith cU (visible cU [0x11])).withTrace (bootTrace cU)).trace = [.reset, .word 0xA002] := by decide

theorem witness_ResetOneDomainRefused :
    ((start cU).withTrace [.resetOne .read]).cfg.legal = true ∧ ((start cU).withTrace [.resetOne .read]).trace = .resetOne .read :: [] := by
  decide

/-- Both domains held, a word and a crossing there, and an edge of the write domain beside a held read domain. -/
theorem witness_HeldDomainIgnoresEdges :
    decodeWord 0x1011 = .ok (.push 0x11) ∧ (Instr.push 0x11).wellFormed cU = true ∧
      gives (runHostStep (.word 0x1011) ((start cU).withHeld true true)) (fun t => (t.obs.result, t.fifo.wptr)) (.bool false, 0) = true ∧
      gives (runHostStep (.word 0xA07F) ((start cI).withHeld true true)) (fun t => t.parser.mask) 0 = true ∧
      gives (runHostStep (.crossW 1) (((start cU).withFifo (holding cU [0x11])).withHeld false true)) (fun t => t.fifo.rqWptr) 0 = true ∧
    ((start cU).withHeld true true).cfg.async = true ∧ ((start cU).withHeld true true).wHeld = true ∧
      ((start cU).withHeld true true).rHeld = true ∧ cU.exact = false ∧
      gives (runHostStep (.clk ⟨true, 0x11⟩ (.unit {})) ((start cU).withHeld false true)) (fun t => (t.fifo.wptr, t.fifo.w2r)) (1, [0, 0]) = true := by
  decide

/-- The last free place, in both kinds of configuration. -/
theorem witness_PushStoresItem :
    (cU.dataW = 8 ∧ wlevel cU (holding cU [1, 2]) = 2 ∧ wlevel cU (holding cU [1, 2]) ≠ cU.n - 1 ∧ cU.exact = false) ∧
      (cX.dataW = 8 ∧ wlevel cX (holding cX [1, 2]) ≠ cX.n - 1 ∧ cX.exact = true) := by decide

theorem witness_PushFullDropsItem :
    wlevel ((start cU).withFifo (holding cU [1, 2, 3])).cfg ((start cU).withFifo (holding cU [1, 2, 3])).fifo =
        ((start cU).withFifo (holding cU [1, 2, 3])).cfg.n - 1 ∧ ((start cU).withFifo (holding cU [1, 2, 3])).cfg.dataW = 8 := by decide

theorem witness_PopTakesOldest :
    (cU.top = .unit ∧ (visible cU [0x11]).rptr ≠ (visible cU [0x11]).rqWptr ∧
      Memory.read (visible cU [0x11]).mem ((visible cU [0x11]).rptr % cU.n) = some 0x11 ∧ cU.exact = false) ∧
      (cX.top = .unit ∧ (holding cX [0x11]).rptr ≠ (holding cX [0x11]).rqWptr ∧
        Memory.read (holding cX [0x11]).mem ((holding cX [0x11]).rptr % cX.n) = some 0x11 ∧ cX.exact = true) := by decide

theorem witness_PopEmptyUnchanged : (start cU).cfg.top = .unit ∧ (start cU).fifo.rptr = (start cU).fifo.rqWptr := by decide

/-- Each stop of a transaction, and what `exec` says there. -/
theorem witness_StopsByName :
    faultOf (exec .pop ((start cU).withFifo { Fifo.atReset cU with rqWptr := 1 })) = some .unwrittenSlot ∧
      faultOf (exec (.bstep false) (((start cI).withFifo { Fifo.atReset cI with rqWptr := 1 }).toPhase .drain)) = some .unwrittenSlot ∧
      faultOf (exec (.parse 0x7F) ((start cU).withParser ⟨0, 0, 0, 0, 0, 1⟩)) = some .noBufferRegister ∧
      faultOf (exec (.bstep false) ((((start cI).withFifo (visible cI [0x7F])).withParser ⟨0, 0, 0, 0, 0, 1⟩).toPhase .drain)) =
        some .noBufferRegister ∧
      faultOf (exec (.bstep true) ((start cI).toPhase .unused3)) = some .phaseUnused ∧
      refusalOf (exec (.bstep true) offering) = some .midHandshake := by decide

/-- Each stop of an edge, at the same states. -/
theorem witness_StopsByName_edges :
    faultOf (runHostStep (.rclk (.unit { popReq := true })) ((start cU).withFifo { Fifo.atReset cU with rqWptr := 1 })) = some .unwrittenSlot ∧
      faultOf (runHostStep (.clk {} (.integrated {})) (((start cI).withFifo { Fifo.atReset cI with rqWptr := 1 }).toPhase .drain)) =
        some .unwrittenSlot ∧
      faultOf (runHostStep (.rclk (.unit { pbValid := true, pbData := 0x7F })) ((start cU).withParser ⟨0, 0, 0, 0, 0, 1⟩)) =
        some .noBufferRegister ∧
      faultOf (runHostStep (.rclk (.integrated {})) ((start cI).toPhase .unused3)) = some .phaseUnused ∧
      faultOf (runHostStep (.rclk (.integrated {})) ((start cI).withSeq ⟨.drain, false, .take, 0, false⟩)) = some .noSequencerRow ∧
      faultOf (runHostStep (.rclk (.integrated { flushReady := true })) ((start cI).withSeq ⟨.wait, false, .flush, 0, false⟩)) =
        some .noSequencerRow := by decide

/-- A held domain, a count on either side of the crossings' range, and edges the configuration has no clock or no ports for. -/
theorem witness_StopsByName_steps :
    refusalOf (runHostStep (.word 0x2000) ((start cI).withHeld false true)) = some .notInConfig ∧
      refusalOf (runHostStep (.word 0x1011) ((start { cU with dataW := 9 }).withHeld true true)) = some .illegalWord ∧
      refusalOf (runHostStep (.crossW 2) (unitWith cU (visible cU [0x11]))) = some .crossingOutOfRange ∧
      refusalOf (runHostStep (.crossW 0) (unitWith cU (visible cU [0x11]))) = some .crossingOutOfRange ∧
      refusalOf (runHostStep (.crossR 1) (unitWith cU (visible cU [0x11]))) = some .crossingOutOfRange ∧
      refusalOf (runHostStep (.wclk {}) (start cX)) = some .notInConfig ∧
      refusalOf (runHostStep (.clk {} (.integrated {})) (start cX)) = some .notInConfig ∧
      refusalOf (runHostStep (.rclk (.unit {})) (start cI)) = some .notInConfig := by decide

/-- The duty to tick at the ends of its ranges, with a period of two cycles: a tick in the first cycle, and none in the second. -/
theorem witness_StopsByName_duty :
    refusalOf (runHostStep (.rclk (.integrated { tick := true })) ((start cI2).withSinceTick (some 1))) = some .hostDuty ∧
      (stateOf (runHostStep (.rclk (.integrated {})) ((start cI2).withSinceTick (some 1)))).isSome = true ∧
      refusalOf (runHostStep (.clk {} (.integrated {})) ((start cI2).withSinceTick (some 2))) = some .hostDuty ∧
      (stateOf (runHostStep (.clk {} (.integrated { tick := true })) ((start cI2).withSinceTick (some 2)))).isSome = true := by decide

theorem witness_QueriesReadOnly : (start cU).cfg.top = .unit := by decide

theorem witness_SyncCopiesPointer : (start cU).cfg.exact = false ∧ (start cX).cfg.exact = true := by decide

/-- The length table at the ends of its ranges, with SYS_LEN two for 0xF3, three for 0xF2 and REJECT otherwise. -/
theorem witness_CategoryLengthTable :
    let c := { cU with sysLen := (cU.sysLen.set 3 .two).set 2 .three }
    msgLen c 0x80 = some 3 ∧ msgLen c 0xBF = some 3 ∧ msgLen c 0xC0 = some 2 ∧ msgLen c 0xDF = some 2 ∧ msgLen c 0xE0 = some 3 ∧
      msgLen c 0xEF = some 3 ∧ msgLen c 0xF0 = none ∧ msgLen c 0xF2 = some 3 ∧ msgLen c 0xF3 = some 2 ∧ msgLen c 0xFF = none := by decide

theorem witness_ParseAcceptsStatus :
    (unitWith cU (Fifo.atReset cU)).cfg.top = .unit ∧ 128 ≤ (0x90 : Byte).toNat ∧
      (unitWith cU (Fifo.atReset cU)).parser.mask.getLsbD ((0x90 : Byte).toNat / 16 % 8) = true ∧
      msgLen (unitWith cU (Fifo.atReset cU)).cfg 0x90 = some 3 := by decide

/-- A category the mask filters, and an accepted category whose length is REJECT. -/
theorem witness_ParseFiltersStatus :
    ((start cU).cfg.top = .unit ∧ 128 ≤ (0x80 : Byte).toNat ∧ (start cU).parser.mask.getLsbD ((0x80 : Byte).toNat / 16 % 8) = false) ∧
      (128 ≤ (0xFF : Byte).toNat ∧ msgLen (start cU).cfg 0xFF = none) := by decide

/-- Every index that names a register: 0, 1 and 2, and both ways a message ends. -/
theorem witness_ParseCollectsAndCompletes :
    ((start cU).cfg.top = .unit ∧ (0x7F : Byte).toNat < 128) ∧
      ([((2, 2) : BitVec 2 × BitVec 2), (3, 2), (3, 1), (2, 1)].all fun p =>
        p.2 != 0 && p.1 - p.2 != 3 &&
          ((stateOf (exec (.parse 0x7F) ((start cU).withParser ⟨0, 0, 0, 0, p.1, p.2⟩))).map fun t => t.parser.rem) == some (p.2 - 1)) = true := by
  decide

theorem witness_ParseDiscardsIdleData : (start cU).cfg.top = .unit ∧ (0x7F : Byte).toNat < 128 ∧ (start cU).parser.rem = 0 := by decide

/-- A two-byte and a three-byte message. -/
theorem witness_MessageBytesAreTheParsedBytes :
    (start cU).cfg.top = .unit ∧ 128 ≤ (0xC3 : Byte).toNat ∧ 128 ≤ (0x90 : Byte).toNat ∧ (0x7F : Byte).toNat < 128 ∧ (0x00 : Byte).toNat < 128 ∧
      (0x12 : Byte).getLsbD ((0xC3 : Byte).toNat / 16 % 8) = true ∧ (0x12 : Byte).getLsbD ((0x90 : Byte).toNat / 16 % 8) = true ∧
      msgLen cU 0xC3 = some 2 ∧ msgLen cU 0x90 = some 3 ∧ ((start cU).withParser ⟨0x12, 0, 0, 0, 0, 0⟩).parser.mask = 0x12 := by decide

theorem witness_StatusByteRestartsParser : (unitWith cU (Fifo.atReset cU)).cfg.top = .unit ∧ 128 ≤ (0x91 : Byte).toNat := by decide

/-- The last data byte, and the first status byte: the clauses exclude each other. -/
theorem witness_MaskChangeMidMessage : (0x7F : Byte).toNat < 128 ∧ 128 ≤ (0x80 : Byte).toNat ∧ (start cU).cfg.top = .unit := by decide

theorem witness_ClearedMaskDiscardsAll : (start cU).cfg.top = .unit ∧ (start cU).parser.mask = 0 ∧ (start cU).parser.rem = 0 := by decide

theorem witness_SampleShiftsAndMatches :
    (start cU).cfg.top = .unit ∧ 0xE001 = (2 * (start cU).debounce.dreg + true.toNat) % 2 ^ (start cU).cfg.k ||| (start cU).cfg.dcValue := by
  decide

theorem witness_TakeReturnsAndClears : (start cU).cfg.top = .unit := by decide

/-- A press pattern that differs from DC_VALUE above bit K, and a release pattern that does too. -/
theorem witness_UnreachablePatternNeverMatches :
    (start cU).cfg.top = .unit ∧ 0x0FFF / 2 ^ cU.k ≠ cU.dcValue / 2 ^ cU.k ∧ { cU with pressPattern := 0x0FFF }.legal = true ∧
      0x0000 / 2 ^ cU.k ≠ cU.dcValue / 2 ^ cU.k ∧ { cU with releasePattern := 0x0000 }.legal = true := by decide

/-- The edge that ends a period of two cycles, with a tick. -/
theorem witness_TickSetsPending : (start cI2).cfg.top = .integrated ∧
    ((start cI2).withSinceTick (some 2)).sinceTick = some cI2.tickPeriod ∧ ((start cI2).withSinceTick (some 2)).rHeld = false ∧
      gives (runHostStep (.rclk (.integrated { tick := true })) ((start cI2).withSinceTick (some 2)))
        (fun t => (t.seq.tickPending, t.sinceTick)) (true, some 1) = true := by decide

/-- With and without a pending tick. -/
theorem witness_BstepWaitStartsOrHolds :
    (start cI).cfg.top = .integrated ∧ (start cI).seq.sub = .idle ∧ (start cI).seq.phase = .wait ∧ (start cI).seq.tickPending = false ∧
      ((start cI).withSeq (start cI).seq.setTick).seq.tickPending = true ∧
      ((start cI).withSeq (start cI).seq.setTick).seq.phase = .wait := by decide

theorem witness_BstepDrainEndsWhenEmpty :
    (drainWith cI (Fifo.atReset cI)).cfg.top = .integrated ∧ (drainWith cI (Fifo.atReset cI)).seq.sub = .idle ∧
      (drainWith cI (Fifo.atReset cI)).seq.phase = .drain ∧
      (drainWith cI (Fifo.atReset cI)).fifo.rptr = (drainWith cI (Fifo.atReset cI)).fifo.rqWptr := by decide

theorem witness_BstepDrainPopsAndParses : ∃ p q : State,
    (drainWith cI (visible cI [0x7F])).cfg.top = .integrated ∧ (drainWith cI (visible cI [0x7F])).seq.sub = .idle ∧
      (drainWith cI (visible cI [0x7F])).seq.phase = .drain ∧ exec .pop (drainWith cI (visible cI [0x7F])).unitView = .next p ∧
      p.obs.result = .item (some 0x7F) ∧ exec (.parse (itemByte cI 0x7F)) p = .next q ∧ 0x7F < 256 :=
  ⟨_, _, rfl, rfl, rfl, rfl, rfl, rfl, by decide⟩

theorem witness_BstepSampleTakesEvents :
    ((start cI).toPhase .sample).cfg.top = .integrated ∧ ((start cI).toPhase .sample).seq.sub = .idle ∧
      ((start cI).toPhase .sample).seq.phase = .sample := by decide

/-- An operation of each top; an edge the host is given in each kind of configuration, and one whose tick comes too early. -/
theorem witness_EveryAdmittedWordCompletes :
    ((HostStep.rclk (.unit { popReq := true })).offered (unitWith cU (visible cU [0x7F])) = true ∧
      (HostStep.clk {} (.unit {})).offered (unitWith cX (holding cX [0x11])) = true ∧
      (HostStep.rclk (.integrated { tick := true })).offered ((start cI2).withSinceTick (some 1)) = false ∧
      (HostStep.word 0xE001).offered (drainWith cI (visible cI [0x7F])) = true) ∧
    (Inv (unitWith cU (visible cU [0x7F])) ∧ Instr.pop.wellFormed (unitWith cU (visible cU [0x7F])).cfg = true) ∧
      (Inv (drainWith cI (visible cI [0x7F])) ∧ (Instr.bstep true).wellFormed (drainWith cI (visible cI [0x7F])).cfg = true ∧
        (drainWith cI (visible cI [0x7F])).seq.sub = .idle) :=
  ⟨by decide, ⟨inv_unitWith cU_legal rfl (fifoInv_visible_one cU_legal (by decide)), by decide⟩, inv_drainWith (fifoInv_visible_one cI_legal (by decide)), by decide, rfl⟩

theorem witness_ResetMeetsInvariant : cX.legal = true := cX_legal

/-- A state the invariant holds in, at whose next step a message is offered. -/
theorem witness_StepKeepsInvariant : ∃ s t : State, Inv s ∧ step s = .next t ∧ t.seq.sub = .send :=
  ⟨(drainWith cI (visible cI [0x7F])).withTrace [.rclk (.integrated {})], _,
    ⟨cI_legal, fifoInv_visible_one cI_legal (by decide), parserInv_waiting, DebounceInv.atReset cI_legal,
      SeqInv.of_idle rfl rfl (fun h => nomatch h) rfl ⟨rfl, rfl⟩ rfl, TickInv.none _⟩, rfl, rfl⟩

theorem witness_StepKeepsParameters : ∃ t, step ((start cU).withTrace [.word 0x1011, .word 0x7000]) = .next t := ⟨_, rfl⟩

theorem witness_PopsFollowPushOrder : Inv (unitWith cU (visible cU [0x11])) ∧ (unitWith cU (visible cU [0x11])).cfg.top = .unit :=
  ⟨inv_unitWith cU_legal rfl (fifoInv_visible_one cU_legal (by decide)), rfl⟩

theorem witness_PushKeepsUnread : ∃ t, Inv (unitWith cU (visible cU [0x11])) ∧
    exec (.push 0x22) (unitWith cU (visible cU [0x11])) = .next t ∧ (unitWith cU (visible cU [0x11])).fifo.ghost.r ≤ 0 ∧
      0 < (unitWith cU (visible cU [0x11])).fifo.ghost.w :=
  ⟨_, inv_unitWith cU_legal rfl (fifoInv_visible_one cU_legal (by decide)), rfl, by decide, by decide⟩

theorem witness_BufferedCountLaw : Inv (unitWith cU (holding cU [0x11])) ∧ rlevel cU (holding cU [0x11]) = 0 ∧ wlevel cU (holding cU [0x11]) = 1 :=
  ⟨inv_unitWith cU_legal rfl (fifoInv_holding_one cU_legal (by decide)), by decide, by decide⟩

/-- Two states that differ in CTR_W alone, and a step of the first. -/
theorem witness_CtrWUnobservable : ∃ s', Inv (unitWith cU (holding cU [0x11])) ∧ Inv (unitWith cU5 (holding cU5 [0x11])) ∧
    SameButCtrW (unitWith cU (holding cU [0x11])) (unitWith cU5 (holding cU5 [0x11])) ∧
    exec (.push 0x22) (unitWith cU (holding cU [0x11])) = .next s' :=
  ⟨_, inv_unitWith cU_legal rfl (fifoInv_holding_one cU_legal (by decide)), inv_unitWith cU5_legal rfl (fifoInv_holding_one cU5_legal (by decide)),
    ⟨rfl, rfl, rfl, rfl, ⟨rfl, rfl⟩, rfl, rfl, rfl, rfl, rfl, rfl⟩, rfl⟩

/-- One element buffered, and two of them, which leave no room for a third: both outcomes of a PUSH on the edge; and the integrated
top, with a tick and a mask write on the edge. -/
theorem witness_ExactConfigurationIsExact :
    (Inv (unitWith cX (holding cX [0x11])) ∧ (unitWith cX (holding cX [0x11])).cfg.exact = true ∧
      (unitWith cX (holding cX [0x11])).cfg.top = .unit ∧ (unitWith cX (holding cX [0x11])).cfg.dataW = 8 ∧
      (unitWith cX (holding cX [0x11])).wHeld = false ∧ (unitWith cX (holding cX [0x11])).rHeld = false ∧
      ReadIn.fits (.unit {}) .unit = true ∧ (unitWith cX (holding cX [0x11])).tickOnTime (.unit {}) = true) ∧
    (writeOut ⟨true, 0x22⟩ (unitWith cX (holding cX [0x11]))).pushOk = true ∧
    (writeOut ⟨true, 0x22⟩ (unitWith cX (holding cX [1, 2, 3]))).pushOk = false ∧
    (Inv (drainWith cXI (holding cXI [0x7F])) ∧ (drainWith cXI (holding cXI [0x7F])).cfg.exact = true ∧
      ReadIn.fits (.integrated { tick := true, cfgWe := true, cfgMask := 0x12 }) cXI.top = true ∧
      (drainWith cXI (holding cXI [0x7F])).tickOnTime (.integrated { tick := true, cfgWe := true, cfgMask := 0x12 }) = true) :=
  ⟨⟨inv_unitWith cX_legal rfl (fifoInv_holding_one cX_legal (by decide)), rfl, rfl, rfl, rfl, rfl, rfl, rfl⟩, by decide, by decide,
    inv_drain cXI_legal rfl (fifoInv_holding_one cXI_legal (by decide)), rfl, rfl, rfl⟩

theorem witness_PushPopCommute :
    Inv (unitWith cU (visible cU [0x11])) ∧ (unitWith cU (visible cU [0x11])).cfg.top = .unit ∧
      (unitWith cU (visible cU [0x11])).cfg.dataW = 8 ∧ (unitWith cU (visible cU [0x11])).cfg.exact = false ∧
      (unitWith cU (visible cU [0x11])).fifo.rptr ≠ (unitWith cU (visible cU [0x11])).fifo.rqWptr :=
  ⟨inv_unitWith cU_legal rfl (fifoInv_visible_one cU_legal (by decide)), rfl, rfl, rfl, by decide⟩

theorem witness_SyncwMakesAllVisible : Inv (unitWith cU (holding cU [0x11])) ∧ (unitWith cU (holding cU [0x11])).cfg.top = .unit :=
  ⟨inv_unitWith cU_legal rfl (fifoInv_holding_one cU_legal (by decide)), rfl⟩

/-- Both bounds of the write pointer's range, 0 and 1, stand apart here, and each is crossed to. -/
theorem witness_RangeCrossingAdmitsSync :
    (Inv (unitWith cU (holding cU [0x11])) ∧ (unitWith cU (holding cU [0x11])).rHeld = false ∧
      (unitWith cU (holding cU [0x11])).wHeld = false ∧ (holding cU [0x11]).ghost.rqw = 0 ∧ (holding cU [0x11]).ghost.w = 1) ∧
      gives (runHostStep (.crossW 0) (unitWith cU (holding cU [0x11]))) (fun t => t.fifo.rqWptr) 0 = true ∧
      gives (runHostStep (.crossW 1) (unitWith cU (holding cU [0x11]))) (fun t => t.fifo.rqWptr) 1 = true ∧
      gives (runHostStep (.crossR 0) (unitWith cU (holding cU [0x11]))) (fun t => t.fifo.wqRptr) 0 = true :=
  ⟨⟨inv_unitWith cU_legal rfl (fifoInv_holding_one cU_legal (by decide)), rfl, rfl, rfl, rfl⟩, by decide, by decide, by decide⟩

/-- A value in the middle, and the wrap. -/
theorem witness_GrayNeighboursDifferInOneBit :
    (0 < 3 ∧ 3 < 2 ^ 3 ∧ bin2gray 3 ^^^ bin2gray 4 = 2 ^ 2) ∧ (7 < 2 ^ 3 ∧ bin2gray 7 ^^^ bin2gray ((7 + 1) % 2 ^ 3) = 2 ^ 2) := by decide

/-- An edge of wclk alone, and one of both clocks in the one-clock form with a stage between the domains; each completes. An edge of
wclk alone is none of the second configuration. -/
theorem witness_WriteEdgeIsPushThenCrossing : (∃ t, Inv (unitWith cU (holding cU [0x11])) ∧
    (unitWith cU (holding cU [0x11])).cfg.exact = false ∧ (unitWith cU (holding cU [0x11])).wHeld = false ∧
      HostStep.writesWith (.wclk ⟨true, 0x22⟩) ⟨true, 0x22⟩ ∧
      (HostStep.wclk ⟨true, 0x22⟩).offered (unitWith cU (holding cU [0x11])) = true ∧
      runHostStep (.wclk ⟨true, 0x22⟩) (unitWith cU (holding cU [0x11])) = .next t) ∧
    (∃ t, Inv (unitWith cS (holding cS [0x11])) ∧
    (unitWith cS (holding cS [0x11])).cfg.exact = false ∧ (unitWith cS (holding cS [0x11])).wHeld = false ∧
      HostStep.writesWith (.clk ⟨true, 0x22⟩ (.unit {})) ⟨true, 0x22⟩ ∧
      (HostStep.clk ⟨true, 0x22⟩ (.unit {})).offered (unitWith cS (holding cS [0x11])) = true ∧
      runHostStep (.clk ⟨true, 0x22⟩ (.unit {})) (unitWith cS (holding cS [0x11])) = .next t) ∧
    (HostStep.wclk {}).offered (unitWith cS (holding cS [0x11])) = false :=
  ⟨⟨_, inv_unitWith cU_legal rfl (fifoInv_holding_one cU_legal (by decide)), rfl, rfl, .inl rfl, rfl, rfl⟩,
    ⟨_, inv_unitWith cS_legal rfl (fifoInv_holding_one cS_legal (by decide)), rfl, rfl, .inr ⟨_, rfl⟩, rfl, rfl⟩, rfl⟩

/-- An edge of rclk alone with three operations of the unit top, and one of both clocks of the integrated top; each completes. The
unit top is given none with the other's inputs. -/
theorem witness_ReadEdgeIsTransactions : (∃ t, Inv (unitWith cU (visible cU [0x11])) ∧
    (unitWith cU (visible cU [0x11])).cfg.exact = false ∧ (unitWith cU (visible cU [0x11])).rHeld = false ∧
      HostStep.readsWith (.rclk (.unit { popReq := true, pbValid := true, pbData := 0x7F, takeP := true }))
        (.unit { popReq := true, pbValid := true, pbData := 0x7F, takeP := true }) ∧
      (HostStep.rclk (.unit { popReq := true, pbValid := true, pbData := 0x7F, takeP := true })).offered
        (unitWith cU (visible cU [0x11])) = true ∧
      runHostStep (.rclk (.unit { popReq := true, pbValid := true, pbData := 0x7F, takeP := true })) (unitWith cU (visible cU [0x11])) = .next t) ∧
    (∃ t, Inv (drainWith cI (visible cI [0x7F])) ∧ (drainWith cI (visible cI [0x7F])).cfg.exact = false ∧
      (drainWith cI (visible cI [0x7F])).rHeld = false ∧ HostStep.readsWith (.clk {} (.integrated { tick := true, cfgWe := true, cfgMask := 0x12 }))
        (.integrated { tick := true, cfgWe := true, cfgMask := 0x12 }) ∧
      (HostStep.clk {} (.integrated { tick := true, cfgWe := true, cfgMask := 0x12 })).offered (drainWith cI (visible cI [0x7F])) = true ∧
      runHostStep (.clk {} (.integrated { tick := true, cfgWe := true, cfgMask := 0x12 })) (drainWith cI (visible cI [0x7F])) = .next t) ∧
    (HostStep.rclk (.integrated {})).offered (unitWith cU (visible cU [0x11])) = false :=
  ⟨⟨_, inv_unitWith cU_legal rfl (fifoInv_visible_one cU_legal (by decide)), rfl, rfl, .inl rfl, rfl, rfl⟩,
    ⟨_, inv_drainWith (fifoInv_visible_one cI_legal (by decide)), rfl, rfl, .inr ⟨_, rfl⟩, rfl, rfl⟩, rfl⟩

/-- A completing byte, and the three edges of its message, with a tick on one and a mask write on another. -/
theorem witness_SequencerRunIsBstep : (∃ t, (drainWith cI (visible cI [0x7F])).cfg.top = .integrated ∧
    (drainWith cI (visible cI [0x7F])).seq.sub = .idle ∧ (drainWith cI (visible cI [0x7F])).seq.relPend = false ∧
      exec (.bstep true) (drainWith cI (visible cI [0x7F])) = .next t) ∧
    ([({ rawActive := true, msgReady := true, flushReady := true, tick := true } : TopIn),
      { rawActive := true, msgReady := true, flushReady := true, cfgWe := true, cfgMask := 0x12 },
      { rawActive := true, msgReady := true, flushReady := true }].all (TopIn.acceptsAll true)) = true :=
  ⟨⟨_, rfl, rfl, rfl, rfl⟩, rfl⟩

theorem witness_TakeAndMatchSameCycle : ∃ t,
    unitEdge { dbSample := true, rawActive := true, takeP := true } ((start cU).withDebounce ⟨0xE7FF, false, false⟩) = .ok t ∧
      0xEFFF = (((((start cU).withDebounce ⟨0xE7FF, false, false⟩).debounce.dreg <<< 1 ||| true.toNat) &&& (2 ^ cU.k - 1)) ||| cU.dcValue) :=
  ⟨_, rfl, by decide⟩

/-- A message offered, and a flush, and a run on which the transport accepts each in its second cycle. -/
theorem witness_OfferHeldUntilReady :
    (Inv offering ∧ offering.cfg.top = .integrated ∧ offering.rHeld = false ∧ offering.seq.sub = .send ∧
        transportAnswers .send [{ flushReady := true }, { msgReady := true }] = true) ∧
      (Inv flushing ∧ flushing.cfg.top = .integrated ∧ flushing.rHeld = false ∧ flushing.seq.sub = .flush ∧
        transportAnswers .flush [{ msgReady := true }, { flushReady := true }] = true) :=
  ⟨⟨inv_offering, rfl, rfl, rfl, rfl⟩, inv_flushing, rfl, rfl, rfl, rfl⟩

theorem witness_DrainEndsAfterLevelSteps :
    Inv (drainWith cI (visible cI [0x7F])) ∧ (drainWith cI (visible cI [0x7F])).cfg.top = .integrated ∧
      (drainWith cI (visible cI [0x7F])).seq.sub = .idle ∧ (drainWith cI (visible cI [0x7F])).seq.phase = .drain ∧
      rlevel (drainWith cI (visible cI [0x7F])).cfg (drainWith cI (visible cI [0x7F])).fifo = 1 :=
  ⟨inv_drainWith (fifoInv_visible_one cI_legal (by decide)), rfl, rfl, rfl, by decide⟩

end Sys2Proof.Tests
end

section
/-! PROOFS. Gray codes of neighbours (00_scope.md R16). -/

namespace Sys2Proof.Machine

/-- The Gray code of a difference is the difference of the Gray codes. -/
theorem bin2gray_xor (a b : Nat) : bin2gray a ^^^ bin2gray b = bin2gray (a ^^^ b) := by
  simp only [bin2gray, Nat.shiftRight_xor_distrib]
  ac_rfl

/-- Counting up by one flips the trailing ones and the zero above them. -/
theorem xor_succ_eq_ones (b : Nat) : ∃ i, b ^^^ (b + 1) = 2 ^ (i + 1) - 1 := by
  induction b using Nat.strongRecOn with
  | ind b ih =>
    have hmod := Nat.xor_mod_two_eq (m := b) (n := b + 1)
    have hdiv := Nat.xor_div_two (a := b) (b := b + 1)
    rcases Nat.even_or_odd' b with ⟨m, rfl | rfl⟩
    · have h1 : (2 * m + 1) / 2 = 2 * m / 2 := by omega
      rw [h1, Nat.xor_self] at hdiv
      exact ⟨0, by omega⟩
    · have h1 : (2 * m + 1) / 2 = m := by omega
      have h2 : (2 * m + 1 + 1) / 2 = m + 1 := by omega
      obtain ⟨i, hi⟩ := ih m (by omega)
      rw [h1, h2, hi] at hdiv
      have := Nat.two_pow_pos (i + 1)
      exact ⟨i + 1, by omega⟩

/-- The Gray code of a run of ones is its top bit. -/
theorem bin2gray_ones (i : Nat) : bin2gray (2 ^ (i + 1) - 1) = 2 ^ i := by
  apply Nat.eq_of_testBit_eq
  intro j
  rw [bin2gray, Nat.testBit_xor, Nat.testBit_shiftRight, Nat.testBit_two_pow_sub_one, Nat.testBit_two_pow_sub_one,
    Nat.testBit_two_pow]
  rcases lt_trichotomy j i with h | rfl | h
  · simp [show j < i + 1 by omega, show 1 + j < i + 1 by omega, show i ≠ j by omega]
  · simp [show ¬ 1 + j < j + 1 by omega]
  · simp [show ¬ j < i + 1 by omega, show ¬ 1 + j < i + 1 by omega, show i ≠ j by omega]

/-- Settles O53: the difference of the codes is the code of the difference, which is a run of trailing ones. -/
theorem grayNeighboursDifferInOneBit : Obligations.GrayNeighboursDifferInOneBit := by
  intro w b hw hb
  rw [bin2gray_xor]
  rcases Nat.lt_or_ge (b + 1) (2 ^ w) with h | h
  · rw [Nat.mod_eq_of_lt h]
    obtain ⟨i, hi⟩ := xor_succ_eq_ones b
    refine ⟨i, ?_, by rw [hi, bin2gray_ones]⟩
    have hlt := Nat.xor_lt_two_pow hb h
    rw [hi] at hlt
    have hle : 2 ^ (i + 1) ≤ 2 ^ w := by omega
    exact (Nat.pow_le_pow_iff_right (by decide)).1 hle
  · obtain ⟨m, rfl⟩ := Nat.exists_eq_succ_of_ne_zero hw.ne'
    have hb' : b = 2 ^ (m + 1) - 1 := by omega
    have hwrap : b + 1 = 2 ^ (m + 1) := by omega
    exact ⟨m, Nat.lt_succ_self m, by rw [hwrap, Nat.mod_self, Nat.xor_zero, hb', bin2gray_ones]⟩

end Sys2Proof.Machine
end

section
/-! PROOFS. When a step is refused: the trace is not looked at under a configuration outside R7 to R11, and no host step is refused
for its configuration under a legal one (00_scope.md R12, R17). -/

namespace Sys2Proof

/-- R7, R8, R10, R12: an illegal configuration misses a "legal values" column. -/
theorem Config.legal_eq_false_iff (c : Config) : c.legal = false ↔
    (c.n ≠ 2 ^ c.log2n ∨ c.n < 2 ∨ c.ctrW < c.log2n ∨ c.dataW = 0 ∨ (c.async = true ∧ c.syncStages < 2) ∨ c.k < 2 ∨
      c.w < c.k ∨ 2 ^ c.w ≤ c.dcValue ∨ c.dcValue % 2 ^ c.k ≠ 0 ∨ 2 ^ c.w ≤ c.pressPattern ∨
      2 ^ c.w ≤ c.releasePattern ∨ c.pressPattern = c.releasePattern) := by
  simp only [Config.legal, Config.legalCapacity, Config.legalWidths, Config.legalStages, Config.legalDebounceWidths,
    Config.legalDcValue, Config.legalPatterns, Bool.and_eq_false_iff, Bool.or_eq_false_iff, Bool.not_eq_false',
    decide_eq_false_iff_not, not_le, not_lt, not_not, ne_eq, Nat.lt_one_iff, or_assoc]

namespace Machine

/-- An answer that does not refuse the configuration (R12). -/
def NotBadConfig (r : StepResult) : Prop := r ≠ .refused .badConfig

@[simp] theorem notBadConfig_next (t : State) : NotBadConfig (.next t) := nofun

@[simp] theorem notBadConfig_fault (e : Fault) : NotBadConfig (.fault e) := nofun

@[simp] theorem notBadConfig_refused (e : Refusal) : NotBadConfig (.refused e) ↔ e ≠ .badConfig := by
  simp [NotBadConfig]

/-- A step under a legal configuration is its host step on the state without it. -/
theorem step_of_legal {s : State} {e : HostStep} {rest : List HostStep} (hl : s.cfg.legal = true) (ht : s.trace = e :: rest) :
    step s = runHostStep e (s.withTrace rest) := by
  simp only [step, nextStep, hl, ht, if_true]

theorem NotBadConfig.orFault {α : Type} {x : Except Fault α} {k : α → StepResult} (h : ∀ a, NotBadConfig (k a)) :
    NotBadConfig (orFault x k) := by
  cases x with
  | ok a => exact h a
  | error e => exact notBadConfig_fault e

theorem NotBadConfig.unitOnly {s : State} {k : StepResult} (h : NotBadConfig k) : NotBadConfig (unitOnly s k) := by
  unfold Machine.unitOnly
  cases s.cfg.top with
  | unit => exact h
  | integrated => simp

theorem NotBadConfig.integratedOnly {s : State} {k : StepResult} (h : NotBadConfig k) : NotBadConfig (integratedOnly s k) := by
  unfold Machine.integratedOnly
  cases s.cfg.top with
  | unit => simp
  | integrated => exact h

theorem notBadConfig_execPush (v : Byte) (s : State) : NotBadConfig (execPush v s) := by
  unfold execPush pushItem
  split <;> simp

theorem notBadConfig_bstepParsed (s : State) (r : Parsed) : NotBadConfig (bstepParsed s r) := by
  unfold bstepParsed
  cases r.message <;> simp

theorem notBadConfig_bstepDrain (s : State) : NotBadConfig (bstepDrain s) :=
  .orFault fun r => by
    obtain ⟨f, o⟩ := r
    cases o with
    | none => exact notBadConfig_next _
    | some v => exact .orFault fun _ => notBadConfig_bstepParsed _ _

theorem notBadConfig_execBstep (r : Bool) (s : State) : NotBadConfig (execBstep r s) :=
  .integratedOnly <| by
    cases s.seq.sub with
    | idle =>
      cases s.seq.phase with
      | wait => unfold bstepWait; cases s.seq.tickPending <;> simp
      | drain => exact notBadConfig_bstepDrain s
      | sample => simp [bstepSample]
      | unused3 => simp
    | send => simp
    | flush => simp
    | take => simp

theorem notBadConfig_exec (i : Instr) (s : State) : NotBadConfig (exec i s) := by
  cases i with
  | push v => exact notBadConfig_execPush v s
  | pop => exact .unitOnly (.orFault fun _ => notBadConfig_next _)
  | size => exact .unitOnly (notBadConfig_next _)
  | empty => exact .unitOnly (notBadConfig_next _)
  | capacity => exact .unitOnly (notBadConfig_next _)
  | wlevel => exact notBadConfig_next _
  | syncw => exact notBadConfig_next _
  | syncr => exact notBadConfig_next _
  | parse b => exact .unitOnly (.orFault fun _ => notBadConfig_next _)
  | setmask m => exact notBadConfig_next _
  | sample r => exact .unitOnly (notBadConfig_next _)
  | takep => exact .unitOnly (notBadConfig_next _)
  | taker => exact .unitOnly (notBadConfig_next _)
  | bstep r => exact notBadConfig_execBstep r s
  | tick => exact .integratedOnly (notBadConfig_next _)

theorem notBadConfig_ignoreInstr (i : Instr) (s : State) : NotBadConfig (ignoreInstr i s) := by
  unfold ignoreInstr
  split
  · split <;> simp
  · simp

theorem notBadConfig_runWord (w : Word) (s : State) : NotBadConfig (runWord w s) := by
  unfold runWord
  split
  · simp
  · unfold runInstr
    split
    · exact notBadConfig_ignoreInstr _ _
    · exact notBadConfig_exec _ _

theorem notBadConfig_rangeW (v : Nat) (s : State) : NotBadConfig (rangeW v s) := by
  unfold rangeW
  split
  · split <;> simp
  · simp

theorem notBadConfig_rangeR (v : Nat) (s : State) : NotBadConfig (rangeR v s) := by
  unfold rangeR
  split
  · split <;> simp
  · simp

theorem notBadConfig_writeEdge (full : Bool) (sampled : Nat) (i : WriteIn) (s : State) :
    NotBadConfig (writeEdge full sampled i s) := by
  obtain ⟨t, ht⟩ := writeEdge_completes full sampled i s
  simp [ht]

theorem notBadConfig_readEdge (sampled : Nat) (i : ReadIn) (s : State) : NotBadConfig (readEdge sampled i s) := by
  unfold readEdge
  split
  · simp
  · split
    · exact .orFault fun _ => notBadConfig_next _
    · exact .orFault fun _ => notBadConfig_next _
    · simp
    · simp

theorem notBadConfig_bothEdges (w : WriteIn) (r : ReadIn) (s : State) : NotBadConfig (bothEdges w r s) := by
  have hr := notBadConfig_readEdge s.fifo.wgray r s
  unfold bothEdges
  cases h : readEdge s.fifo.wgray r s with
  | next t => exact notBadConfig_writeEdge _ _ _ _
  | fault e => exact notBadConfig_fault e
  | refused e => rwa [h] at hr

theorem NotBadConfig.asyncOnly {s : State} {k : StepResult} (h : NotBadConfig k) : NotBadConfig (asyncOnly s k) := by
  unfold Machine.asyncOnly
  split
  · exact h
  · simp

theorem NotBadConfig.onTime {i : ReadIn} {s : State} {k : State → StepResult} (h : ∀ u, NotBadConfig (k u)) :
    NotBadConfig (onTime i s k) := by
  unfold Machine.onTime
  split
  · exact h _
  · simp

/-- No host step is refused for its configuration. -/
theorem notBadConfig_runHostStep (e : HostStep) (s : State) : NotBadConfig (runHostStep e s) := by
  cases e with
  | word w => exact notBadConfig_runWord w s
  | reset => exact notBadConfig_next _
  | resetOne d => simp [runHostStep]
  | resetAssert => exact notBadConfig_next _
  | resetRelease d => exact notBadConfig_next _
  | crossW v => exact notBadConfig_rangeW v s
  | crossR v => exact notBadConfig_rangeR v s
  | wclk i => exact .asyncOnly (notBadConfig_writeEdge _ _ _ _)
  | rclk i => exact .asyncOnly (.onTime fun _ => notBadConfig_readEdge _ _ _)
  | clk w r => exact .onTime fun _ => notBadConfig_bothEdges _ _ _

/-- R12: a step is refused for its configuration exactly where that is not legal. -/
theorem step_badConfig_iff (s : State) : step s = .refused .badConfig ↔ s.cfg.legal = false := by
  cases hl : s.cfg.legal with
  | false => simp [step, nextStep, hl]
  | true =>
    cases ht : s.trace with
    | nil => simp [step, nextStep, hl, ht]
    | cons e rest =>
      rw [step_of_legal hl ht]
      exact iff_of_false (notBadConfig_runHostStep e (s.withTrace rest)) (by decide)

/-- Settles O7: the step is its host step, which decodes the word and asks whether the domain is held. -/
theorem stepRunsDecodedInstr : Obligations.StepRunsDecodedInstr := by
  intro s w i rest hl ht hd
  have hstep : step s = runInstr i (s.withTrace rest) := by
    rw [step_of_legal hl ht, runHostStep, runWord, hd]
  have hheld : (s.withTrace rest).held i.domain = s.held i.domain := by cases i.domain <;> rfl
  rw [hstep, runInstr, hheld]
  exact ⟨fun h => by rw [h]; rfl, fun h => by rw [h]; rfl⟩

/-- Settles O8: what is refused is an illegal configuration, and that misses one of the columns. -/
theorem stepRefusesBadConfig : Obligations.StepRefusesBadConfig := fun s =>
  (step_badConfig_iff s).trans s.cfg.legal_eq_false_iff

end Machine

end Sys2Proof
end

section
/-! PROOFS. Which registers of the FIFO each domain's part of an edge can move, and what an edge of either or both clocks is
(00_scope.md R5, 40_fifo.md R84, R86, R93). -/

namespace Sys2Proof.Machine

open Sys2Proof

/-- Outside the exact configuration there is a chain to shift (R25, R98). -/
theorem stages_of_not_exact {c : Config} (hl : c.legal = true) (hx : c.exact = false) : c.syncStages ≠ 0 := fun h0 => by
  rw [stages_exact hl h0] at hx
  exact Bool.noConfusion hx

/-- The whole write domain of the FIFO: what `SameWriteSide` has, and the chain `r2w` (R25). -/
structure SameWriteDomain (f g : Fifo) : Prop extends SameWriteSide f g where
  chain : f.r2w = g.r2w

/-- The whole read domain of the FIFO: what `SameReadSide` has, and the chain `w2r` (R25). -/
structure SameReadDomain (f g : Fifo) : Prop extends SameReadSide f g where
  chain : f.w2r = g.w2r

theorem SameWriteDomain.refl (f : Fifo) : SameWriteDomain f f := ⟨⟨rfl, rfl, rfl, rfl, rfl, rfl⟩, rfl⟩

theorem SameReadDomain.refl (f : Fifo) : SameReadDomain f f := ⟨⟨rfl, rfl, rfl, rfl, rfl⟩, rfl⟩

theorem SameWriteSide.trans {f g h : Fifo} (a : SameWriteSide f g) (b : SameWriteSide g h) : SameWriteSide f h :=
  ⟨a.mem.trans b.mem, a.wptr.trans b.wptr, a.wgray.trans b.wgray, a.wqRptr.trans b.wqRptr, a.pushed.trans b.pushed,
    a.wqr.trans b.wqr⟩

theorem SameReadSide.trans {f g h : Fifo} (a : SameReadSide f g) (b : SameReadSide g h) : SameReadSide f h :=
  ⟨a.rptr.trans b.rptr, a.rgray.trans b.rgray, a.rqWptr.trans b.rqWptr, a.popped.trans b.popped, a.rqw.trans b.rqw⟩

theorem SameWriteDomain.trans {f g h : Fifo} (a : SameWriteDomain f g) (b : SameWriteDomain g h) : SameWriteDomain f h :=
  ⟨a.toSameWriteSide.trans b.toSameWriteSide, a.chain.trans b.chain⟩

theorem SameWriteDomain.symm {f g : Fifo} (a : SameWriteDomain f g) : SameWriteDomain g f :=
  ⟨⟨a.mem.symm, a.wptr.symm, a.wgray.symm, a.wqRptr.symm, a.pushed.symm, a.wqr.symm⟩, a.chain.symm⟩

theorem SameReadDomain.trans {f g h : Fifo} (a : SameReadDomain f g) (b : SameReadDomain g h) : SameReadDomain f h :=
  ⟨a.toSameReadSide.trans b.toSameReadSide, a.chain.trans b.chain⟩

/-- FIFOs that look alike at transaction level have the same write side where their Gray registers agree. -/
theorem SameWriteSide.of_visible {f g : Fifo} (hv : f.visible = g.visible) (hg : f.wgray = g.wgray) : SameWriteSide f g := by
  simp only [Fifo.visible, Fifo.mk.injEq] at hv
  obtain ⟨hmem, hwptr, -, -, hwq, -, -, -, -, hghost⟩ := hv
  exact ⟨hmem, hwptr, hg, hwq, by rw [hghost], by rw [hghost]⟩

/-- FIFOs that look alike at transaction level have the same read side where their Gray registers agree. -/
theorem SameReadSide.of_visible {f g : Fifo} (hv : f.visible = g.visible) (hg : f.rgray = g.rgray) : SameReadSide f g := by
  simp only [Fifo.visible, Fifo.mk.injEq] at hv
  obtain ⟨-, -, hrptr, hrq, -, -, -, -, -, hghost⟩ := hv
  exact ⟨hrptr, hg, hrq, by rw [hghost], by rw [hghost]⟩

/-! The operations of one domain leave the other alone, and look at their own domain only. -/

/-- The read domain's chain shifts within the read domain (R93). -/
theorem Fifo.shiftW_sameWriteDomain (c : Config) (g : Nat) (f : Fifo) : SameWriteDomain (f.shiftW c g) f := by
  unfold Fifo.shiftW
  split
  · exact .refl f
  · exact ⟨⟨rfl, rfl, rfl, rfl, rfl, rfl⟩, rfl⟩

/-- The write domain's chain shifts within the write domain (R93). -/
theorem Fifo.shiftR_sameReadDomain (c : Config) (g : Nat) (f : Fifo) : SameReadDomain (f.shiftR c g) f := by
  unfold Fifo.shiftR
  split
  · exact .refl f
  · exact ⟨⟨rfl, rfl, rfl, rfl, rfl⟩, rfl⟩

@[simp] theorem Fifo.shiftR_wgray (c : Config) (g : Nat) (f : Fifo) : (f.shiftR c g).wgray = f.wgray := by
  unfold Fifo.shiftR
  split <;> rfl

@[simp] theorem Fifo.shiftW_rgray (c : Config) (g : Nat) (f : Fifo) : (f.shiftW c g).rgray = f.rgray := by
  unfold Fifo.shiftW
  split <;> rfl

/-- A push outside the exact configuration stays within the write domain (R83). -/
theorem Fifo.pushIf_sameReadDomain {c : Config} (hx : c.exact = false) (full : Bool) (v : Nat) (f : Fifo) :
    SameReadDomain (f.pushIf c full v) f := by
  unfold Fifo.pushIf Fifo.foldW
  rw [hx]
  cases full <;> exact ⟨⟨rfl, rfl, rfl, rfl, rfl⟩, rfl⟩

/-- The SYNCW a push performs in the exact configuration moves the read domain (R98). -/
theorem Fifo.foldW_sameWriteDomain (c : Config) (f : Fifo) : SameWriteDomain (f.foldW c) f := by
  unfold Fifo.foldW
  cases c.exact <;> exact ⟨⟨rfl, rfl, rfl, rfl, rfl, rfl⟩, rfl⟩

/-- A store looks at the write domain only. -/
theorem SameWriteDomain.store {f g : Fifo} (h : SameWriteDomain f g) (c : Config) (v : Nat) :
    SameWriteDomain (f.store c v) (g.store c v) := by
  obtain ⟨⟨hmem, hwptr, -, hwq, hpushed, hwqr⟩, hchain⟩ := h
  constructor
  · constructor <;> simp only [Fifo.store, hmem, hwptr, hwq, hpushed, hwqr]
  · exact hchain

/-- A push looks at the write domain only. -/
theorem SameWriteDomain.pushIf {f g : Fifo} (h : SameWriteDomain f g) (c : Config) (full : Bool) (v : Nat) :
    SameWriteDomain (f.pushIf c full v) (g.pushIf c full v) := by
  unfold Fifo.pushIf
  cases full with
  | true => exact h
  | false => exact ((Fifo.foldW_sameWriteDomain _ _).trans (h.store c v)).trans (Fifo.foldW_sameWriteDomain _ _).symm

/-- The write domain's chain shifts by what the write domain holds. -/
theorem SameWriteDomain.shiftR {f g : Fifo} (h : SameWriteDomain f g) (c : Config) (sampled : Nat) :
    SameWriteDomain (f.shiftR c sampled) (g.shiftR c sampled) := by
  obtain ⟨⟨hmem, hwptr, hgray, hwq, hpushed, hwqr⟩, hchain⟩ := h
  unfold Fifo.shiftR
  split
  · exact ⟨⟨hmem, hwptr, hgray, hwq, hpushed, hwqr⟩, hchain⟩
  · simp only [hwq, hwqr, hchain]
    exact ⟨⟨hmem, hwptr, hgray, rfl, hpushed, rfl⟩, rfl⟩

/-- A read-domain edge's pop is none, or the advance of the read cursor (R85, R86). -/
theorem popEdge_ok {u : UnitIn} {s : State} {f : Fifo} (h : popEdge u s = .ok f) :
    f = s.fifo ∨ ∃ v, f = (s.fifo.take s.cfg v).foldR s.cfg := by
  unfold popEdge at h
  split at h
  · rcases Fifo.pop_cases s.cfg s.fifo with ⟨-, hp⟩ | ⟨-, v, -, hp⟩ | ⟨-, -, hp⟩ <;> rw [hp] at h <;> cases h
    · exact .inl rfl
    · exact .inr ⟨v, rfl⟩
  · cases h
    exact .inl rfl

/-- A read-domain edge's pop outside the exact configuration stays within the read domain (R85, R86). -/
theorem popEdge_sameWriteDomain {u : UnitIn} {s : State} {f : Fifo} (hx : s.cfg.exact = false) (h : popEdge u s = .ok f) :
    SameWriteDomain f s.fifo := by
  rcases popEdge_ok h with rfl | ⟨v, rfl⟩
  · exact .refl _
  · unfold Fifo.foldR
    rw [hx]
    exact ⟨⟨rfl, rfl, rfl, rfl, rfl, rfl⟩, rfl⟩

/-- A read-domain edge's pop leaves the read domain's chain to the synchroniser (R86, R93). -/
theorem popEdge_w2r {u : UnitIn} {s : State} {f : Fifo} (h : popEdge u s = .ok f) : f.w2r = s.fifo.w2r := by
  rcases popEdge_ok h with rfl | ⟨v, rfl⟩
  · rfl
  · obtain ⟨-, -, -, -, hchain, -⟩ := Fifo.take_writeSide s.cfg v s.fifo
    exact hchain

/-! The write domain's edge. -/

/-- The FIFO's part of a write-domain edge but for the synchroniser (R84): at most one push. -/
def pushEdge (full : Bool) (i : WriteIn) (s : State) : Fifo :=
  if i.pushReq then s.fifo.pushIf s.cfg full (i.item s.cfg) else s.fifo

/-- A running write domain's edge is its push and a shift of its chain. -/
theorem writeEdge_running {full : Bool} {sampled : Nat} {i : WriteIn} {s : State} (hh : s.wHeld = false) :
    writeEdge full sampled i s = .next (s.withFifo ((pushEdge full i s).shiftR s.cfg sampled)) := by
  simp only [writeEdge, pushEdge, hh, Bool.false_eq_true, if_false]

theorem pushEdge_sameReadDomain {full : Bool} {i : WriteIn} {s : State} (hx : s.cfg.exact = false) :
    SameReadDomain (pushEdge full i s) s.fifo := by
  unfold pushEdge
  split
  · exact Fifo.pushIf_sameReadDomain hx _ _ _
  · exact .refl _

theorem SameWriteDomain.pushEdge {s t : State} (h : SameWriteDomain s.fifo t.fifo) (hc : s.cfg = t.cfg) (full : Bool) (i : WriteIn) :
    SameWriteDomain (pushEdge full i s) (pushEdge full i t) := by
  unfold Machine.pushEdge
  rw [hc]
  split
  · exact h.pushIf _ _ _
  · exact h

/-- A write-domain edge outside the exact configuration leaves the read domain alone and changes nothing beside the FIFO. -/
theorem writeEdge_frame {full : Bool} {sampled : Nat} {i : WriteIn} {s t : State} (hx : s.cfg.exact = false)
    (h : writeEdge full sampled i s = .next t) : SameReadDomain t.fifo s.fifo ∧ t = s.withFifo t.fifo := by
  cases hh : s.wHeld with
  | true =>
    simp only [writeEdge, hh, if_true] at h
    cases h
    exact ⟨.refl _, rfl⟩
  | false =>
    rw [writeEdge_running hh] at h
    cases h
    exact ⟨(Fifo.shiftR_sameReadDomain _ _ _).trans (pushEdge_sameReadDomain hx), rfl⟩

/-! The read domain's edge. -/

/-- What a read-domain edge does but for the synchroniser: the units of the unit top, or the sequencer and its units. -/
def unitsEdge (i : ReadIn) (s : State) : Except Fault State :=
  match i with
  | .unit u => unitEdge u s
  | .integrated j => seqEdge j s

/-- A unit edge is the pop, the parse and the debounce filter's part of it. -/
theorem unitEdge_ok {u : UnitIn} {s a : State} (h : unitEdge u s = .ok a) :
    ∃ f p, popEdge u s = .ok f ∧ parserEdge u s = .ok p ∧ a = ((s.withFifo f).withParser p).withDebounce (debounceEdge u s) := by
  unfold unitEdge at h
  cases hf : popEdge u s <;> cases hp : parserEdge u s <;> rw [hf, hp] at h <;> cases h
  exact ⟨_, _, rfl, rfl, rfl⟩

/-- A sequencer's edge is the FSM's row and the unit edge on the ports it drives. -/
theorem seqEdge_ok {j : TopIn} {s a : State} (h : seqEdge j s = .ok a) :
    ∃ n t, fsmNext j s = .ok n ∧ unitEdge (seqDrive j s) s = .ok t ∧
      a = { t with seq := { n.seq with tickPending := tickNext j s }, txLog := t.txLog ++ n.events } := by
  unfold seqEdge at h
  cases hn : fsmNext j s <;> cases ht : unitEdge (seqDrive j s) s <;> rw [hn, ht] at h <;> cases h
  exact ⟨_, _, rfl, rfl, rfl⟩

/-- The units of either top move the FIFO by a pop, and neither the parameters, the trace, the resets, the tick count nor the
observation. -/
theorem unitsEdge_ok {i : ReadIn} {s a : State} (h : unitsEdge i s = .ok a) :
    (∃ u, popEdge u s = .ok a.fifo) ∧
      a = { s with fifo := a.fifo, parser := a.parser, debounce := a.debounce, seq := a.seq, txLog := a.txLog } := by
  cases i with
  | unit u =>
    obtain ⟨f, p, hf, -, rfl⟩ := unitEdge_ok h
    exact ⟨⟨u, hf⟩, rfl⟩
  | integrated j =>
    obtain ⟨n, t, -, ht, rfl⟩ := seqEdge_ok h
    obtain ⟨f, p, hf, -, rfl⟩ := unitEdge_ok ht
    exact ⟨⟨seqDrive j s, hf⟩, rfl⟩

/-- The units of an edge look at neither the tick count nor the observation. -/
theorem unitsEdge_counted (i : ReadIn) (s : State) (k : Option Nat) (r : Result) :
    unitsEdge i ((s.withSinceTick k).report r) = (unitsEdge i s).map fun t => (t.withSinceTick k).report r := by
  cases i with
  | unit u => exact unitEdge_counted u s k r
  | integrated j => exact seqEdge_counted j s k r

/-- A running read domain's edge has the inputs of its top, and is what its units do and a shift of its chain. -/
theorem readEdge_running {sampled : Nat} {i : ReadIn} {s t : State} (hh : s.rHeld = false)
    (h : readEdge sampled i s = .next t) :
    i.fits s.cfg.top = true ∧ ∃ a, unitsEdge i s = .ok a ∧ t = a.withFifo (a.fifo.shiftW a.cfg sampled) := by
  simp only [readEdge, hh, Bool.false_eq_true, if_false] at h
  cases i with
  | unit u =>
    cases htop : s.cfg.top <;> simp only [htop] at h
    · cases ha : unitEdge u s <;> rw [ha] at h <;> cases h
      exact ⟨rfl, _, ha, rfl⟩
    · exact nomatch h
  | integrated j =>
    cases htop : s.cfg.top <;> simp only [htop] at h
    · exact nomatch h
    · cases ha : seqEdge j s <;> rw [ha] at h <;> cases h
      exact ⟨rfl, _, ha, rfl⟩

/-- A read-domain edge outside the exact configuration leaves the write domain and the parameters alone. -/
theorem readEdge_frame {sampled : Nat} {i : ReadIn} {s t : State} (hx : s.cfg.exact = false)
    (h : readEdge sampled i s = .next t) :
    SameWriteDomain t.fifo s.fifo ∧ t.cfg = s.cfg ∧ t.wHeld = s.wHeld := by
  cases hh : s.rHeld with
  | true =>
    simp only [readEdge, hh, if_true] at h
    cases h
    exact ⟨.refl _, rfl, rfl⟩
  | false =>
    obtain ⟨-, a, ha, rfl⟩ := readEdge_running hh h
    obtain ⟨⟨u, hu⟩, hframe⟩ := unitsEdge_ok ha
    refine ⟨(Fifo.shiftW_sameWriteDomain _ _ _).trans (popEdge_sameWriteDomain hx hu), ?_, ?_⟩ <;> rw [hframe] <;> rfl

/-! The host steps. -/

/-- An edge of wclk alone that completes. -/
theorem wclk_next {i : WriteIn} {s t : State} (hh : s.wHeld = false) (h : runHostStep (.wclk i) s = .next t) :
    t = (s.report .unit).withFifo ((pushEdge (wfull s.cfg s.fifo) i s).shiftR s.cfg s.fifo.rgray) := by
  simp only [runHostStep, asyncOnly] at h
  split at h
  · rw [writeEdge_running (by exact hh)] at h
    cases h
    rfl
  · exact nomatch h

/-- An edge of rclk alone that completes is the read domain's, on time. -/
theorem rclk_next {i : ReadIn} {s t : State} (h : runHostStep (.rclk i) s = .next t) :
    readEdge s.fifo.wgray i ((s.withSinceTick (s.sinceTickAfter i)).report .unit) = .next t := by
  simp only [runHostStep, asyncOnly] at h
  split at h
  · exact (onTime_next h).2
  · exact nomatch h

/-- An edge of both clocks that completes is the read domain's, on time, and then the write domain's, each of which samples what
the other showed before. -/
theorem clk_next {w : WriteIn} {i : ReadIn} {s t : State} (h : runHostStep (.clk w i) s = .next t) :
    ∃ m, readEdge s.fifo.wgray i ((s.withSinceTick (s.sinceTickAfter i)).report .unit) = .next m ∧
      writeEdge (wfull s.cfg s.fifo) s.fifo.rgray w m = .next t := by
  rw [runHostStep] at h
  have hb := (onTime_next h).2
  unfold bothEdges at hb
  split at hb
  · exact ⟨_, ‹_›, hb⟩
  · exact nomatch hb
  · exact nomatch hb

/-- The range form of SYNCR in a running write domain (R94). -/
theorem crossR_running {k : Nat} {s : State} (hh : s.wHeld = false) (h1 : s.fifo.ghost.wqr ≤ k) (h2 : k ≤ s.fifo.ghost.r) :
    runHostStep (.crossR k) s = .next ((s.withFifo (s.fifo.crossRTo s.cfg k)).report .unit) := by
  simp [runHostStep, rangeR, h1, h2, hh]

/-- The range form of SYNCW in a running read domain (R94). -/
theorem crossW_running {k : Nat} {s : State} (hh : s.rHeld = false) (h1 : s.fifo.ghost.rqw ≤ k) (h2 : k ≤ s.fifo.ghost.w) :
    runHostStep (.crossW k) s = .next ((s.withFifo (s.fifo.crossWTo s.cfg k)).report .unit) := by
  simp [runHostStep, rangeW, h1, h2, hh]

end Sys2Proof.Machine
end

section
/-! PROOFS. An edge of the write domain is a push and a crossing of the read pointer (00_scope.md R5, 40_fifo.md R83, R84, R93). -/

namespace Sys2Proof.Machine

open Sys2Proof

/-- The push of an edge that judges full by its own state keeps the FIFO good (R53, R84). -/
theorem Inv.pushEdge {s : State} (h : Inv s) (i : WriteIn) : FifoInv s.cfg (pushEdge (wfull s.cfg s.fifo) i s) := by
  unfold Machine.pushEdge
  split
  · exact h.fifo.pushIf h.legal (WriteIn.item_lt _ _) (h.fifo.room_of_not_full h.legal)
  · exact h.fifo

/-- An edge's push leaves the read pointer's Gray register and the chain that samples it to others. -/
theorem pushEdge_readSide (full : Bool) (i : WriteIn) (s : State) :
    (pushEdge full i s).rgray = s.fifo.rgray ∧ (pushEdge full i s).r2w = s.fifo.r2w := by
  unfold pushEdge
  split
  · obtain ⟨-, -, hg, hc, -⟩ := Fifo.pushIf_readSide s.cfg full (i.item s.cfg) s.fifo
    exact ⟨hg, hc⟩
  · exact ⟨rfl, rfl⟩

/-- The push an edge requests, with push_ok its result, and nothing without a request (R80, R83). -/
def PushRequested (i : WriteIn) (s u : State) : Prop :=
  if i.pushReq then pushItem (i.item s.cfg) s = .next u ∧ u.obs.result = .bool (writeOut i s).pushOk
  else u = s ∧ (writeOut i s).pushOk = false

/-- What an edge's push leaves in the FIFO is what the requested `push(item)` leaves there. -/
theorem pushEdge_is_push {i : WriteIn} {s : State} (hh : s.wHeld = false) :
    ∃ u, PushRequested i s u ∧ u.fifo = pushEdge (wfull s.cfg s.fifo) i s ∧ u.cfg = s.cfg ∧ u.wHeld = false := by
  unfold PushRequested
  cases hr : i.pushReq with
  | true => exact ⟨_, ⟨rfl, by simp [writeOut, hh, hr]⟩, by simp [pushEdge, hr], rfl, hh⟩
  | false => exact ⟨s, ⟨rfl, by simp [writeOut, hr]⟩, by simp [pushEdge, hr], rfl, hh⟩

/-- The write domain's edge at transaction level: its push, and then a crossing of the read pointer (R5, R84, R93). -/
theorem Inv.pushEdge_then_crossing {s : State} (h : Inv s) (hh : s.wHeld = false) (i : WriteIn) :
    ∃ u k v, PushRequested i s u ∧ runHostStep (.crossR k) u = .next v ∧
      ((Machine.pushEdge (wfull s.cfg s.fifo) i s).shiftR s.cfg s.fifo.rgray).visible = v.fifo.visible ∧
      ((Machine.pushEdge (wfull s.cfg s.fifo) i s).shiftR s.cfg s.fifo.rgray).wgray = v.fifo.wgray := by
  obtain ⟨u, hpush, hfifo, hcfg, huh⟩ := pushEdge_is_push (i := i) hh
  have hp := h.pushEdge i
  have hs := hp.sample_rgray
  rw [(pushEdge_readSide _ i s).1] at hs
  obtain ⟨-, k, h1, h2, hvis⟩ := hp.shiftR h.legal fun _ => hs
  rw [← hfifo] at h1 h2 hvis ⊢
  have hcross := crossR_running huh h1 h2
  rw [hcfg] at hcross
  exact ⟨u, k, _, hpush, hcross, hvis, Fifo.shiftR_wgray _ _ _⟩

/-- After an edge of the write domain, of wclk alone or of both clocks, that domain holds what its push and the shift of its chain
leave (R84, R93). -/
theorem write_edge_next {i : WriteIn} {e : HostStep} {s t : State} (hx : s.cfg.exact = false) (hh : s.wHeld = false)
    (he : e.writesWith i) (h : runHostStep e s = .next t) :
    SameWriteDomain t.fifo ((pushEdge (wfull s.cfg s.fifo) i s).shiftR s.cfg s.fifo.rgray) := by
  rcases he with rfl | ⟨r, rfl⟩
  · rw [wclk_next hh h]
    exact .refl _
  · obtain ⟨m, hm, ht⟩ := clk_next h
    obtain ⟨hside, hcfg, hheld⟩ := readEdge_frame (by exact hx) hm
    rw [writeEdge_running (hheld.trans hh), hcfg] at ht
    cases ht
    exact (hside.pushEdge hcfg _ i).shiftR _ _

/-- With DATA_W = 8 the item of an edge is the operand of the word (R63, R80). -/
theorem execPush_item {i : WriteIn} {s : State} (h : s.cfg.dataW = 8) :
    exec (.push (BitVec.ofNat 8 i.pushData)) s = pushItem (i.item s.cfg) s := by
  rw [exec, execPush_eq _ h, WriteIn.item, h, BitVec.toNat_ofNat]

/-- A clock edge of the invariant completes exactly where the host is given it. -/
theorem Inv.edge_completes_iff {s : State} (h : Inv s) {e : HostStep}
    (he : (∃ w, e = .wclk w) ∨ (∃ r, e = .rclk r) ∨ ∃ w r, e = .clk w r) :
    (∃ t, runHostStep e s = .next t) ↔ e.offered s = true := by
  rcases h.edge_cases he with ⟨ho, ht⟩ | ⟨ho, r, hr⟩
  · simp only [ho, ht]
  · simp [ho, hr]

/-- Settles O54: the edge's push is `push(item)`, the shift of its chain a crossing of the read pointer, and the read domain's part
of an edge of both clocks leaves the write domain alone. -/
theorem writeEdgeIsPushThenCrossing : Obligations.WriteEdgeIsPushThenCrossing := by
  intro i e s h hx hh he
  refine ⟨h.edge_completes_iff ?_, execPush_item, rfl, ?_⟩
  · rcases he with rfl | ⟨r, rfl⟩
    · exact .inl ⟨_, rfl⟩
    · exact .inr (.inr ⟨_, _, rfl⟩)
  · intro t ht
    have hdom := write_edge_next hx hh he ht
    obtain ⟨u, k, v, hpush, hcross, hvis, hgray⟩ := h.pushEdge_then_crossing hh i
    have hside := SameWriteSide.of_visible hvis hgray
    refine ⟨⟨u, k, v, hpush, hcross, hdom.toSameWriteSide.trans hside, ?_⟩, ?_, ?_⟩
    · rintro rfl
      rw [wclk_next hh ht]
      exact hvis
    · rw [hdom.chain, hdom.wqRptr, ← (pushEdge_readSide _ i s).2]
      exact (h.pushEdge i).shiftR_chain (stages_of_not_exact h.legal hx)
    · rintro rfl
      have hread := (Fifo.shiftR_sameReadDomain s.cfg s.fifo.rgray _).trans
        (pushEdge_sameReadDomain (full := wfull s.cfg s.fifo) (i := i) hx)
      rw [wclk_next hh ht]
      exact ⟨rfl, hread.chain, hread.rgray⟩

end Sys2Proof.Machine
end

section
/-! PROOFS. The unit edge of the unit top is its transactions, and the outputs are their results (30_encoding.md R81, 40_fifo.md
R86, 41_parser.md R110, R111, 42_debounce.md R116, R118, 60_exceptions.md R140 (a)). -/

namespace Sys2Proof.Machine

open Sys2Proof

/-- From `s`, whatever the observation, the transactions complete and leave `t` but for the observation. -/
def Performs (is : List Instr) (s t : State) : Prop := ∀ o, ∃ o', execAll is { s with obs := o } = .next { t with obs := o' }

theorem Performs.append {a b : List Instr} {s t u : State} (ha : Performs a s t) (hb : Performs b t u) : Performs (a ++ b) s u := by
  intro o
  obtain ⟨o', ha⟩ := ha o
  obtain ⟨o'', hb⟩ := hb o'
  exact ⟨o'', (execAll_append ha).trans hb⟩

/-- A transaction that is there only where it is requested. -/
theorem Performs.optional {b : Bool} {i : Instr} {s t : State}
    (hi : b = true → ∀ o, ∃ o', exec i { s with obs := o } = .next { t with obs := o' }) (hn : b = false → t = s) :
    Performs (if b then [i] else []) s t := by
  intro o
  cases b with
  | true =>
    obtain ⟨o', ho⟩ := hi rfl o
    exact ⟨o', by simp [execAll, ho]⟩
  | false => exact ⟨o, by rw [hn rfl]; rfl⟩

theorem unitOnly_of_unit {s : State} (hu : s.cfg.top = .unit) (k : StepResult) : unitOnly s k = k := by
  simp only [unitOnly, hu]

/-- R85: POP is the FIFO's pop. -/
theorem exec_pop_ok {s : State} {r : Fifo × Option Nat} (hu : s.cfg.top = .unit) (hp : s.fifo.pop s.cfg = .ok r) :
    exec .pop s = .next ((s.withFifo r.1).report (.item r.2) none (if r.2.isNone then some .queueEmpty else none)) := by
  rw [exec, execPop, unitOnly_of_unit hu, hp]
  rfl

/-- R99: PARSE is the parser's parse. -/
theorem exec_parse_ok {s : State} {b : Byte} {r : Parsed} (hu : s.cfg.top = .unit) (hr : s.parser.parse s.cfg b = .ok r) :
    exec (.parse b) s = .next ((s.withParser r.parser).report (.message r.message) (some r.outcome) (outcomeCause r.outcome)) := by
  rw [exec, execParse, unitOnly_of_unit hu, hr]
  rfl

section UnitTop

variable {s : State} {u : UnitIn}

theorem performs_pop (hu : s.cfg.top = .unit) {f : Fifo} (h : popEdge u s = .ok f) :
    Performs (if u.popReq then [.pop] else []) s (s.withFifo f) := by
  apply Performs.optional
  · intro hr o
    rw [popEdge, if_pos hr] at h
    cases hp : s.fifo.pop s.cfg <;> rw [hp] at h <;> cases h
    exact ⟨_, exec_pop_ok (by exact hu) hp⟩
  · intro hr
    rw [popEdge, hr] at h
    cases h
    rfl

/-- A parser edge is a parse where a byte is valid, and then a mask write where one is requested (R110, R111). -/
theorem parserEdge_ok {p : Parser} (h : parserEdge u s = .ok p) :
    ∃ q, (if u.pbValid then ∃ r, s.parser.parse s.cfg u.pbData = .ok r ∧ r.parser = q else q = s.parser) ∧
      p = if u.cfgWe then { q with mask := u.cfgMask } else q := by
  unfold parserEdge at h
  cases hv : u.pbValid <;> simp only [hv] at h
  · cases h
    exact ⟨_, rfl, rfl⟩
  · cases hr : s.parser.parse s.cfg u.pbData <;> simp only [hr] at h <;> cases h
    exact ⟨_, ⟨_, rfl, rfl⟩, rfl⟩

theorem performs_parse (hu : s.cfg.top = .unit) {q : Parser}
    (h : if u.pbValid then ∃ r, s.parser.parse s.cfg u.pbData = .ok r ∧ r.parser = q else q = s.parser) :
    Performs (if u.pbValid then [.parse u.pbData] else []) s (s.withParser q) := by
  apply Performs.optional
  · intro hv o
    rw [if_pos hv] at h
    obtain ⟨r, hr, rfl⟩ := h
    exact ⟨_, exec_parse_ok (by exact hu) hr⟩
  · intro hv
    rw [hv] at h
    cases h
    rfl

theorem performs_setmask : Performs (if u.cfgWe then [.setmask u.cfgMask] else []) s
    (s.withParser (if u.cfgWe then { s.parser with mask := u.cfgMask } else s.parser)) :=
  .optional (fun hc _ => ⟨_, by rw [if_pos hc]; rfl⟩) fun hc => by rw [hc]; rfl

theorem performs_takep (hu : s.cfg.top = .unit) : Performs (if u.takeP then [.takep] else []) s
    (s.withDebounce (if u.takeP then s.debounce.takePressed else s.debounce)) :=
  .optional (fun hc _ => ⟨_, by rw [if_pos hc]; exact unitOnly_of_unit hu _⟩) fun hc => by rw [hc]; rfl

theorem performs_taker (hu : s.cfg.top = .unit) : Performs (if u.takeR then [.taker] else []) s
    (s.withDebounce (if u.takeR then s.debounce.takeReleased else s.debounce)) :=
  .optional (fun hc _ => ⟨_, by rw [if_pos hc]; exact unitOnly_of_unit hu _⟩) fun hc => by rw [hc]; rfl

theorem performs_sample (hu : s.cfg.top = .unit) : Performs (if u.dbSample then [.sample u.rawActive] else []) s
    (s.withDebounce (if u.dbSample then s.debounce.sample s.cfg u.rawActive else s.debounce)) :=
  .optional (fun hc _ => ⟨_, by rw [if_pos hc]; exact unitOnly_of_unit hu _⟩) fun hc => by rw [hc]; rfl

/-- R140 (a): a unit edge does what its transactions do, one after another. -/
theorem performs_edgeWords (hu : s.cfg.top = .unit) {a : State} (h : unitEdge u s = .ok a) : Performs (edgeWords u) s a := by
  obtain ⟨f, p, hf, hp, rfl⟩ := unitEdge_ok h
  obtain ⟨q, hq, rfl⟩ := parserEdge_ok hp
  have hpop := performs_pop hu hf
  have hparse := hpop.append (performs_parse (s := s.withFifo f) (q := q) hu hq)
  have hmask := hparse.append (performs_setmask (u := u))
  have htakep := hmask.append (performs_takep (u := u) hu)
  have htaker := htakep.append (performs_taker (u := u) hu)
  exact htaker.append (performs_sample (u := u) hu)

/-- R86: in a good state a POP completes, and `pop_data` shows its result. -/
theorem Inv.pop_output (h : Inv s) (hu : s.cfg.top = .unit) (hh : s.rHeld = false) :
    ∃ t, exec .pop s = .next t ∧ t.obs.result = .item (unitOut u s).popData := by
  rcases h.fifo.pop h.legal with ⟨hr, hp⟩ | ⟨hr, v, hv, hp, -⟩
  · have he := (h.fifo.rempty_iff h.legal).2 hr
    exact ⟨_, exec_pop_ok hu hp, by simp [unitOut, he]⟩
  · have he : rempty s.fifo = false := by
      rw [← Bool.not_eq_true, h.fifo.rempty_iff h.legal]
      exact hr.ne
    have hread := (h.fifo.read_oldest h.legal he).1
    exact ⟨_, exec_pop_ok hu hp, by simp [unitOut, he, hh, hread, hv]⟩

/-- R86: `pop_valid` says whether there is an item. -/
theorem Inv.popValid (h : Inv s) : (unitOut u s).popValid = (unitOut u s).popData.isSome := by
  cases hh : s.rHeld <;> cases he : rempty s.fifo <;> simp [unitOut, hh, he]
  obtain ⟨v, -, hv⟩ := h.fifo.oldest h.legal he
  simp [hv]

/-- R110: in a good state a PARSE completes, and `pm` shows its result. -/
theorem Inv.parse_output (h : Inv s) (hu : s.cfg.top = .unit) (hh : s.rHeld = false) (hv : u.pbValid = true) :
    ∃ t, exec (.parse u.pbData) s = .next t ∧ t.obs.result = .message (unitOut u s).pm := by
  obtain ⟨r, hr, -⟩ := h.parser.parse s.cfg u.pbData
  exact ⟨_, exec_parse_ok hu hr, by simp [unitOut, cycleMessage, hh, hv, hr]⟩

/-- R81: the unit top's outputs in a good state. -/
theorem Inv.unitOutputs (h : Inv s) (hu : s.cfg.top = .unit) (hh : s.rHeld = false) : UnitOutputsAreResults u s where
  pop := h.pop_output hu hh
  popValid := h.popValid
  parse := h.parse_output hu hh
  noParse hv := by simp [unitOut, cycleMessage, hv]
  pmValid := rfl
  size := unitOnly_of_unit hu _
  empty := unitOnly_of_unit hu _
  capacity := unitOnly_of_unit hu _
  maskQ := rfl
  takep := ⟨_, unitOnly_of_unit hu _, rfl⟩
  taker := ⟨_, unitOnly_of_unit hu _, rfl⟩

end UnitTop

end Sys2Proof.Machine
end

section
/-! PROOFS. An edge of the read domain is its transactions, or the sequencer's edge, and a crossing of the write pointer
(00_scope.md R5, 40_fifo.md R86, R93, 43_bridge.md R128). -/

namespace Sys2Proof.Machine

open Sys2Proof

/-- R82, R128, R130: the integrated top's outputs while the read domain runs. -/
theorem topOutputs {s : State} (hh : s.rHeld = false) : TopOutputsFollow s where
  maskQ := rfl
  msgValid := by simp [topOut, hh]
  msg := by simp [topOut, hh]
  flushValid := by simp [topOut, hh]
  hkSlot := by simp [topOut, hh]

/-- R79: the sequencer leaves the mask's ports to the outside. -/
theorem seqDrive_mask (j : TopIn) (s : State) : (seqDrive j s).cfgWe = j.cfgWe ∧ (seqDrive j s).cfgMask = j.cfgMask := by
  unfold seqDrive
  dsimp only
  split
  · split <;> exact ⟨rfl, rfl⟩
  · exact ⟨rfl, rfl⟩
  · exact ⟨rfl, rfl⟩
  · exact ⟨rfl, rfl⟩

/-- R111: an edge writes the mask where it is told to, and no parse does. -/
theorem parserEdge_mask {u : UnitIn} {s : State} {p : Parser} (h : parserEdge u s = .ok p) :
    p.mask = if u.cfgWe then u.cfgMask else s.parser.mask := by
  obtain ⟨q, hq, rfl⟩ := parserEdge_ok h
  have hmask : q.mask = s.parser.mask := by
    split at hq
    · obtain ⟨r, hr, rfl⟩ := hq
      exact Parser.parse_mask hr
    · rw [hq]
  split
  · rfl
  · exact hmask

/-- R128: `start` is WAIT/IDLE with a tick pending, so it is no matter for a tick that is not. -/
theorem tickNext_eq (j : TopIn) (s : State) :
    tickNext j s = (j.tick || (s.seq.tickPending && !decide (s.seq.phase = .wait ∧ s.seq.sub = .idle))) := by
  cases hp : s.seq.tickPending with
  | false => simp [tickNext, hp]
  | true => simp [tickNext, seqStart, hp, beq_eq_decide]

/-- The sequencer's edge sets `tick_pending` from `tick` and writes the mask where `cfg_we` is 1 (R111, R128). -/
theorem seqEdge_ports {j : TopIn} {s a : State} (h : seqEdge j s = .ok a) :
    a.seq.tickPending = tickNext j s ∧ a.parser.mask = if j.cfgWe then j.cfgMask else s.parser.mask := by
  obtain ⟨n, t, -, ht, rfl⟩ := seqEdge_ok h
  obtain ⟨f, p, -, hp, rfl⟩ := unitEdge_ok ht
  obtain ⟨hwe, hmask⟩ := seqDrive_mask j s
  have hm := parserEdge_mask hp
  rw [hwe, hmask] at hm
  exact ⟨rfl, hm⟩

/-- The unit ports are those of the unit top (R79). -/
theorem ReadIn.fits_unit {u : UnitIn} {top : TopConfig} (h : (ReadIn.unit u).fits top = true) : top = .unit := by
  cases top with
  | unit => rfl
  | integrated => exact nomatch h

/-- The bridge's ports are those of the integrated top (R79). -/
theorem ReadIn.fits_integrated {j : TopIn} {top : TopConfig} (h : (ReadIn.integrated j).fits top = true) : top = .integrated := by
  cases top with
  | unit => exact nomatch h
  | integrated => rfl

/-- The units of a good state's edge, with the inputs of its top, leave a good state. -/
theorem Inv.unitsEdge {s a : State} {i : ReadIn} (h : Inv s) (hf : i.fits s.cfg.top = true) (ha : unitsEdge i s = .ok a) : Inv a := by
  cases i with
  | unit u =>
    have hu := ReadIn.fits_unit hf
    obtain ⟨b, hb, hi, -⟩ := h.unitEdge hu u
    cases hb.symm.trans ha
    exact hi
  | integrated j =>
    have hu := ReadIn.fits_integrated hf
    obtain ⟨b, hb, hi, -⟩ := h.seqEdge hu j
    cases hb.symm.trans ha
    exact hi

/-- What the units of a good state's edge do is what its transactions do, but for the observation, or what the sequencer does. -/
theorem Inv.unitsEdge_does {s a : State} {i : ReadIn} (h : Inv s) (hh : s.rHeld = false) (hf : i.fits s.cfg.top = true)
    (ha : Machine.unitsEdge i s = .ok a) : ∃ o, readEdgeDoes i s { a with obs := o } := by
  cases i with
  | unit u =>
    have hu := ReadIn.fits_unit hf
    obtain ⟨o, ho⟩ := performs_edgeWords hu ha s.obs
    exact ⟨o, ho, h.unitOutputs hu hh⟩
  | integrated j =>
    obtain ⟨htick, hmask⟩ := seqEdge_ports ha
    exact ⟨a.obs, ha, topOutputs hh, htick.trans (tickNext_eq j s), hmask⟩

/-- The shift of a good read domain's chain is at transaction level a crossing of the write pointer (R5, R93). -/
theorem Inv.shiftW_is_crossing {s : State} (h : Inv s) (hh : s.rHeld = false) :
    ∃ k v, runHostStep (.crossW k) s = .next v ∧ (s.fifo.shiftW s.cfg s.fifo.wgray).visible = v.fifo.visible ∧
      (s.fifo.shiftW s.cfg s.fifo.wgray).rgray = v.fifo.rgray := by
  obtain ⟨-, k, h1, h2, hvis⟩ := h.fifo.shiftW h.legal rfl
  exact ⟨k, _, crossW_running hh h1 h2, hvis, Fifo.shiftW_rgray _ _ _⟩

/-- After an edge of the read domain, of rclk alone or of both clocks, that domain holds what its units and the shift of its chain
leave, and beside the FIFO the state is what its units leave, with the count of the tick and an empty observation (R86, R93). -/
theorem read_edge_next {i : ReadIn} {e : HostStep} {s t : State} (hx : s.cfg.exact = false) (hh : s.rHeld = false)
    (he : e.readsWith i) (h : runHostStep e s = .next t) :
    i.fits s.cfg.top = true ∧ ∃ a, unitsEdge i s = .ok a ∧
      SameReadDomain t.fifo (a.fifo.shiftW a.cfg s.fifo.wgray) ∧
      t = { a with fifo := t.fifo, sinceTick := s.sinceTickAfter i, obs := ⟨.unit, none, none⟩ } ∧
      (e = .rclk i → t.fifo = a.fifo.shiftW a.cfg s.fifo.wgray) := by
  have key : ∀ m, readEdge s.fifo.wgray i ((s.withSinceTick (s.sinceTickAfter i)).report .unit) = .next m →
      i.fits s.cfg.top = true ∧ ∃ a, unitsEdge i s = .ok a ∧
        m = ((a.withSinceTick (s.sinceTickAfter i)).report .unit).withFifo (a.fifo.shiftW a.cfg s.fifo.wgray) := by
    intro m hm
    obtain ⟨hf, b, hb, rfl⟩ := readEdge_running (by exact hh) hm
    rw [unitsEdge_counted] at hb
    cases ha : unitsEdge i s <;> rw [ha] at hb <;> cases hb
    exact ⟨hf, _, rfl, rfl⟩
  rcases he with rfl | ⟨w, rfl⟩
  · obtain ⟨hf, a, ha, rfl⟩ := key t (rclk_next h)
    exact ⟨hf, a, ha, .refl _, rfl, fun _ => rfl⟩
  · obtain ⟨m, hm, ht⟩ := clk_next h
    obtain ⟨hf, a, ha, rfl⟩ := key m hm
    have hcfg : a.cfg = s.cfg := by rw [(unitsEdge_ok ha).2]
    obtain ⟨hside, hframe⟩ := writeEdge_frame (by rw [← hcfg] at hx; exact hx) ht
    exact ⟨hf, a, ha, hside, hframe, nofun⟩

/-- Settles O55: the edge's units are its transactions, the shift of its chain a crossing of the write pointer, and the write
domain's part of an edge of both clocks leaves the read domain alone. -/
theorem readEdgeIsTransactions : Obligations.ReadEdgeIsTransactions := by
  intro i e s h hx hh he
  refine ⟨h.edge_completes_iff ?_, ?_⟩
  · rcases he with rfl | ⟨w, rfl⟩
    · exact .inr (.inl ⟨_, rfl⟩)
    · exact .inr (.inr ⟨_, _, rfl⟩)
  · intro t ht
    obtain ⟨hf, a, ha, hdom, hframe, halone⟩ := read_edge_next hx hh he ht
    obtain ⟨⟨u, hpop⟩, hunits⟩ := unitsEdge_ok ha
    have hwrite := popEdge_sameWriteDomain hx hpop
    have hcfg : a.cfg = s.cfg := by rw [hunits]
    have hrun : a.rHeld = false := by rw [hunits]; exact hh
    obtain ⟨o, hdoes⟩ := h.unitsEdge_does hh hf ha
    have hinv := h.unitsEdge hf ha
    obtain ⟨k, v, hcross, hvis, hgray⟩ := (hinv.report o.result o.outcome o.cause).shiftW_is_crossing hrun
    rw [← hwrite.wgray] at hdom halone ⊢
    have hside := SameReadSide.of_visible hvis hgray
    refine ⟨⟨_, k, v, hdoes, hcross, hdom.toSameReadSide.trans hside, hframe, ?_⟩, ?_, ?_⟩
    · intro hr
      rw [halone hr]
      exact hvis
    · rw [hdom.chain, hdom.rqWptr, ← popEdge_w2r hpop, ← hcfg]
      exact hinv.fifo.shiftW_chain (stages_of_not_exact hinv.legal (by rw [hcfg]; exact hx))
    · intro hr
      have hshift := Fifo.shiftW_sameWriteDomain a.cfg a.fifo.wgray a.fifo
      rw [halone hr]
      exact ⟨hshift.chain.trans hwrite.chain, hshift.wgray⟩

end Sys2Proof.Machine
end

section
/-! PROOFS. What the steps of the machine answer, as a condition on the next state (00_scope.md R17). -/

namespace Sys2Proof.Machine

open Sys2Proof

/-- Every next state that is answered satisfies `P`; a refusal or a fault answers none (60_exceptions.md R138). -/
def Ensures (P : State → Prop) (r : StepResult) : Prop := ∀ t, r = .next t → P t

section Ensures

variable {P : State → Prop} {s : State}

@[simp] theorem ensures_next {t : State} : Ensures P (.next t) ↔ P t :=
  ⟨fun h => h t rfl, fun h _ ht => by cases ht; exact h⟩

@[simp] theorem ensures_fault (e : Fault) : Ensures P (.fault e) := fun _ h => nomatch h

@[simp] theorem ensures_refused (e : Refusal) : Ensures P (.refused e) := fun _ h => nomatch h

/-- What is known of the next state a step is known to answer. -/
theorem Ensures.of_completes {r : StepResult} (h : ∃ t, r = .next t ∧ P t) : Ensures P r := by
  obtain ⟨t, rfl, ht⟩ := h
  exact ensures_next.2 ht

theorem Ensures.orFault {α : Type} {x : Except Fault α} {k : α → StepResult} (h : ∀ a, x = .ok a → Ensures P (k a)) :
    Ensures P (orFault x k) := by
  cases x with
  | ok a => exact h a rfl
  | error e => exact ensures_fault e

theorem Ensures.unitOnly {k : StepResult} (h : s.cfg.top = .unit → Ensures P k) : Ensures P (unitOnly s k) := by
  unfold Machine.unitOnly
  cases htop : s.cfg.top with
  | unit => exact h htop
  | integrated => exact ensures_refused _

theorem Ensures.integratedOnly {k : StepResult} (h : s.cfg.top = .integrated → Ensures P k) :
    Ensures P (integratedOnly s k) := by
  unfold Machine.integratedOnly
  cases htop : s.cfg.top with
  | unit => exact ensures_refused _
  | integrated => exact h htop

theorem Ensures.asyncOnly {k : StepResult} (h : Ensures P k) : Ensures P (asyncOnly s k) := by
  unfold Machine.asyncOnly
  split
  · exact h
  · exact ensures_refused _

theorem Ensures.onTime {i : ReadIn} {k : State → StepResult}
    (h : s.tickOnTime i = true → Ensures P (k (s.withSinceTick (s.sinceTickAfter i)))) : Ensures P (onTime i s k) := by
  intro t ht
  obtain ⟨hon, hk⟩ := onTime_next ht
  exact h hon t hk

/-- A word ensures what its decoded transaction does, in a running domain and in a held one (R60, R150). -/
theorem Ensures.runWord {w : Word} (hheld : ∀ i, P (s.report (ignoredResult i s))) (hexec : ∀ i, Ensures P (exec i s)) :
    Ensures P (runWord w s) := by
  unfold Machine.runWord
  split
  · exact ensures_refused _
  · next i _ =>
    unfold runInstr
    split
    · intro t ht
      rw [ignoreInstr_next ht]
      exact hheld i
    · exact hexec i

/-- A crossing to a count in its range ensures what the crossing does, in a running domain and in a held one (R94, R150). -/
theorem Ensures.rangeW {v : Nat} (hheld : P (s.report .unit))
    (h : s.fifo.ghost.rqw ≤ v → v ≤ s.fifo.ghost.w → P ((s.withFifo (s.fifo.crossWTo s.cfg v)).report .unit)) :
    Ensures P (rangeW v s) := by
  unfold Machine.rangeW
  split
  · next hv =>
    split
    · exact ensures_next.2 hheld
    · exact ensures_next.2 (h hv.1 hv.2)
  · exact ensures_refused _

theorem Ensures.rangeR {v : Nat} (hheld : P (s.report .unit))
    (h : s.fifo.ghost.wqr ≤ v → v ≤ s.fifo.ghost.r → P ((s.withFifo (s.fifo.crossRTo s.cfg v)).report .unit)) :
    Ensures P (rangeR v s) := by
  unfold Machine.rangeR
  split
  · next hv =>
    split
    · exact ensures_next.2 hheld
    · exact ensures_next.2 (h hv.1 hv.2)
  · exact ensures_refused _

/-- A step answers the state itself where the trace is empty, and what its host step ensures otherwise. -/
theorem Ensures.step (hnil : s.trace = [] → P s)
    (hcons : ∀ e rest, s.trace = e :: rest → Ensures P (runHostStep e (s.withTrace rest))) : Ensures P (step s) := by
  unfold Machine.step nextStep
  split
  · cases htr : s.trace with
    | nil => exact ensures_next.2 (hnil htr)
    | cons e rest => exact hcons e rest htr
  · exact ensures_refused _

end Ensures

end Sys2Proof.Machine
end

section
/-! PROOFS. Reset meets the invariant and every step keeps it (10_state.md R39, R41). -/

namespace Sys2Proof.Machine

open Sys2Proof

/-- The default values of R7 to R11 are legal, whatever the OPEN ones are (R12). -/
theorem standard_legal : Config.standard.legal = true := by decide

/-- The sequencer at reset is good in either top (R39, R41 (f)). -/
theorem SeqInv.atReset (c : Config) (tr : List HostStep) : SeqInv (State.atReset c tr) := by
  cases htop : c.top with
  | unit => exact SeqInv.of_unit htop rfl rfl
  | integrated => exact SeqInv.of_idle htop rfl nofun rfl ⟨rfl, rfl⟩ rfl

theorem ParserInv.atReset : ParserInv Parser.atReset := ⟨.inl rfl, fun h => absurd rfl h⟩

/-- R39: the reset state of a legal configuration is good. -/
theorem Inv.atReset {c : Config} (hl : c.legal = true) (tr : List HostStep) : Inv (State.atReset c tr) :=
  ⟨hl, FifoInv.atReset c, ParserInv.atReset, DebounceInv.atReset hl, SeqInv.atReset c tr, TickInv.none c⟩

/-- Settles O42: every reset value is the invariant's base case, and the default configuration is legal. -/
theorem resetMeetsInvariant : Obligations.ResetMeetsInvariant :=
  ⟨Inv.atReset standard_legal [], fun _ tr hl => Inv.atReset hl tr⟩

/-- Another good parser keeps the invariant. -/
theorem Inv.withParser {s : State} (h : Inv s) {p : Parser} (hp : ParserInv p) : Inv (s.withParser p) :=
  ⟨h.legal, h.fifo, hp, h.debounce, h.seq.congr rfl rfl rfl rfl rfl, h.ticks⟩

/-- In the unit top another good debounce filter keeps the invariant: no sequencer looks at its flags (R11). -/
theorem Inv.withDebounce {s : State} (h : Inv s) (hu : s.cfg.top = .unit) {d : Debounce} (hd : DebounceInv s.cfg d) :
    Inv (s.withDebounce d) := by
  obtain ⟨hq, hlog⟩ := h.seq.unitIdle hu
  exact ⟨h.legal, h.fifo, h.parser, hd, SeqInv.of_unit hu hq hlog, h.ticks⟩

/-- The port-level reset flags are of no account to the invariant. -/
theorem Inv.withHeld {s : State} (h : Inv s) (w r : Bool) : Inv (s.withHeld w r) :=
  ⟨h.legal, h.fifo, h.parser, h.debounce, h.seq.congr rfl rfl rfl rfl rfl, h.ticks⟩

/-! The transactions. -/

/-- R83: a push of a DATA_W-bit item keeps the invariant. -/
theorem Inv.pushItem {s : State} (h : Inv s) {v : Nat} (hv : v < 2 ^ s.cfg.dataW) : Ensures Inv (pushItem v s) :=
  ensures_next.2 ((h.withFifo (h.fifo.pushIf h.legal hv (h.fifo.room_of_not_full h.legal))).report ..)

/-- A word PUSH offers a DATA_W-bit item, DATA_W being 8 (R63). -/
theorem Inv.execPush {s : State} (h : Inv s) (v : Byte) : Ensures Inv (execPush v s) := by
  unfold Machine.execPush
  split
  · next h8 => exact h.pushItem (by rw [h8]; exact v.isLt)
  · exact ensures_refused _

/-- A completed pop leaves a good FIFO (R85). -/
theorem FifoInv.pop_ok {c : Config} {f : Fifo} {r : Fifo × Option Nat} (hl : c.legal = true) (h : FifoInv c f)
    (hp : f.pop c = .ok r) : FifoInv c r.1 := by
  rcases h.pop hl with ⟨-, hnone⟩ | ⟨-, v, -, hsome, hi⟩
  · cases hnone.symm.trans hp
    exact h
  · cases hsome.symm.trans hp
    exact hi

/-- A completed parse leaves a good parser (R99). -/
theorem ParserInv.parse_ok {c : Config} {b : Byte} {p : Parser} {r : Parsed} (h : ParserInv p) (hp : p.parse c b = .ok r) :
    ParserInv r.parser := by
  obtain ⟨q, hq, hi, -⟩ := h.parse c b
  cases hq.symm.trans hp
  exact hi

/-- A SYNCW or SYNCR that is a no-op in the exact configuration leaves a good FIFO where its crossing does (R91, R92, R98). -/
theorem FifoInv.unlessExact {c : Config} {f g : Fifo} (hf : FifoInv c f) (hg : FifoInv c g) :
    FifoInv c (if c.exact then f else g) := by
  split
  · exact hf
  · exact hg

/-- R122 to R124: a BSTEP keeps the invariant in every phase. -/
theorem Inv.execBstep {s : State} (h : Inv s) (r : Bool) : Ensures Inv (execBstep r s) := by
  refine .integratedOnly fun htop => ?_
  cases hs : s.seq.sub with
  | idle =>
    cases hp : s.seq.phase with
    | wait => exact .of_completes (h.bstepWait htop hs)
    | drain => exact .of_completes (h.bstepDrain htop hs)
    | sample => exact .of_completes (h.bstepSample htop hs r)
    | unused3 => exact ensures_fault _
  | send => exact ensures_refused _
  | flush => exact ensures_refused _
  | take => exact ensures_refused _

/-- Every transaction keeps the invariant. -/
theorem Inv.exec {s : State} (h : Inv s) (i : Instr) : Ensures Inv (exec i s) := by
  cases i with
  | push v => exact h.execPush v
  | pop => exact .unitOnly fun _ => .orFault fun r hr => ensures_next.2 ((h.withFifo (h.fifo.pop_ok h.legal hr)).report ..)
  | size => exact .unitOnly fun _ => ensures_next.2 (h.report ..)
  | empty => exact .unitOnly fun _ => ensures_next.2 (h.report ..)
  | capacity => exact .unitOnly fun _ => ensures_next.2 (h.report ..)
  | wlevel => exact ensures_next.2 (h.report ..)
  | syncw => exact ensures_next.2 ((h.withFifo (h.fifo.unlessExact h.fifo.crossW)).report ..)
  | syncr => exact ensures_next.2 ((h.withFifo (h.fifo.unlessExact h.fifo.crossR)).report ..)
  | parse b => exact .unitOnly fun _ => .orFault fun r hr => ensures_next.2 ((h.withParser (h.parser.parse_ok hr)).report ..)
  | setmask m => exact ensures_next.2 ((h.withParser (h.parser.setMask m)).report ..)
  | sample r => exact .unitOnly fun hu => ensures_next.2 ((h.withDebounce hu (.sample h.legal r s.debounce)).report ..)
  | takep => exact .unitOnly fun hu => ensures_next.2 ((h.withDebounce hu h.debounce.takePressed).report ..)
  | taker => exact .unitOnly fun hu => ensures_next.2 ((h.withDebounce hu h.debounce.takeReleased).report ..)
  | bstep r => exact h.execBstep r
  | tick => exact .integratedOnly fun htop => ensures_next.2 (h.tick htop)

/-! The host steps. -/

theorem Inv.resetEvent {s : State} (h : Inv s) : Inv (resetEvent s) := Inv.atReset h.legal s.trace

theorem Inv.resetRelease {s : State} (h : Inv s) (d : Domain) : Inv (resetRelease d s) := by
  cases d <;> exact h.withHeld _ _

/-- Every host step keeps the invariant. -/
theorem Inv.runHostStep {s : State} (h : Inv s) (e : HostStep) : Ensures Inv (runHostStep e s) := by
  cases e with
  | word w => exact .runWord (fun i => h.report ..) h.exec
  | reset => exact ensures_next.2 h.resetEvent
  | resetOne d => exact ensures_refused _
  | resetAssert => exact ensures_next.2 (h.resetEvent.withHeld true true)
  | resetRelease d => exact ensures_next.2 (h.resetRelease d)
  | crossW v => exact .rangeW (h.report ..) fun h1 h2 => (h.withFifo (h.fifo.crossWTo h1 h2)).report ..
  | crossR v => exact .rangeR (h.report ..) fun h1 h2 => (h.withFifo (h.fifo.crossRTo h1 h2)).report ..
  | wclk i => exact .asyncOnly fun _ => (h.report .unit none none).writeEdge_alone i
  | rclk i => exact .asyncOnly (.onTime fun ho _ ht => (((h.countTick ho).report .unit none none).readEdge i ht).1)
  | clk w r =>
    unfold Machine.runHostStep
    exact .onTime fun ho _ => ((h.countTick ho).report .unit none none).bothEdges w r

/-- Settles O43: the step is its host step on the state without it, and every host step keeps the invariant. -/
theorem stepKeepsInvariant : Obligations.StepKeepsInvariant := by
  intro s t h ht
  have hstep : Ensures Inv (step s) := .step (fun _ => h) fun e rest _ => (h.withTrace rest).runHostStep e
  exact hstep t ht

end Sys2Proof.Machine
end

section
/-! PROOFS. No step changes a parameter or looks into the trace to come (10_state.md R18, R36). -/

namespace Sys2Proof.Machine

open Sys2Proof

/-- The parameters and the trace to come are these (logs 1, 2). -/
structure HasProgram (c : Config) (tr : List HostStep) (t : State) : Prop where
  cfg : t.cfg = c
  trace : t.trace = tr

theorem bstepParsed_hasProgram (s : State) (r : Parsed) : Ensures (HasProgram s.cfg s.trace) (bstepParsed s r) := by
  unfold bstepParsed
  cases r.message <;> exact ensures_next.2 ⟨rfl, rfl⟩

theorem bstepDrain_hasProgram (s : State) : Ensures (HasProgram s.cfg s.trace) (bstepDrain s) :=
  .orFault fun r _ => by
    obtain ⟨f, o⟩ := r
    cases o with
    | none => exact ensures_next.2 ⟨rfl, rfl⟩
    | some v => exact .orFault fun q _ => bstepParsed_hasProgram (s.withFifo f) q

theorem bstepSample_hasProgram (r : Bool) (s : State) : Ensures (HasProgram s.cfg s.trace) (bstepSample r s) :=
  ensures_next.2 ⟨by simp, by simp⟩

theorem bstepWait_hasProgram (s : State) : Ensures (HasProgram s.cfg s.trace) (bstepWait s) := by
  unfold bstepWait
  split <;> exact ensures_next.2 ⟨rfl, rfl⟩

theorem execBstep_hasProgram (r : Bool) (s : State) : Ensures (HasProgram s.cfg s.trace) (execBstep r s) :=
  .integratedOnly fun _ => by
    cases s.seq.sub with
    | idle =>
      cases s.seq.phase with
      | wait => exact bstepWait_hasProgram s
      | drain => exact bstepDrain_hasProgram s
      | sample => exact bstepSample_hasProgram r s
      | unused3 => exact ensures_fault _
    | send => exact ensures_refused _
    | flush => exact ensures_refused _
    | take => exact ensures_refused _

theorem execPush_hasProgram (v : Byte) (s : State) : Ensures (HasProgram s.cfg s.trace) (execPush v s) := by
  unfold execPush
  split
  · exact ensures_next.2 ⟨rfl, rfl⟩
  · exact ensures_refused _

/-- No transaction moves the parameters or the trace. -/
theorem exec_hasProgram (i : Instr) (s : State) : Ensures (HasProgram s.cfg s.trace) (exec i s) := by
  cases i with
  | push v => exact execPush_hasProgram v s
  | pop => exact .unitOnly fun _ => .orFault fun _ _ => ensures_next.2 ⟨rfl, rfl⟩
  | size => exact .unitOnly fun _ => ensures_next.2 ⟨rfl, rfl⟩
  | empty => exact .unitOnly fun _ => ensures_next.2 ⟨rfl, rfl⟩
  | capacity => exact .unitOnly fun _ => ensures_next.2 ⟨rfl, rfl⟩
  | wlevel => exact ensures_next.2 ⟨rfl, rfl⟩
  | syncw => exact ensures_next.2 ⟨rfl, rfl⟩
  | syncr => exact ensures_next.2 ⟨rfl, rfl⟩
  | parse b => exact .unitOnly fun _ => .orFault fun _ _ => ensures_next.2 ⟨rfl, rfl⟩
  | setmask m => exact ensures_next.2 ⟨rfl, rfl⟩
  | sample r => exact .unitOnly fun _ => ensures_next.2 ⟨rfl, rfl⟩
  | takep => exact .unitOnly fun _ => ensures_next.2 ⟨rfl, rfl⟩
  | taker => exact .unitOnly fun _ => ensures_next.2 ⟨rfl, rfl⟩
  | bstep r => exact execBstep_hasProgram r s
  | tick => exact .integratedOnly fun _ => ensures_next.2 ⟨rfl, rfl⟩

theorem writeEdge_hasProgram (full : Bool) (sampled : Nat) (i : WriteIn) (s : State) :
    Ensures (HasProgram s.cfg s.trace) (writeEdge full sampled i s) := by
  unfold writeEdge
  split <;> exact ensures_next.2 ⟨rfl, rfl⟩

/-- The read domain's edge moves what its units move, and its chain (R86, R93). -/
theorem readEdge_hasProgram (sampled : Nat) (i : ReadIn) (s : State) : Ensures (HasProgram s.cfg s.trace) (readEdge sampled i s) := by
  intro t ht
  cases hh : s.rHeld with
  | true =>
    simp only [readEdge, hh, if_true] at ht
    cases ht
    exact ⟨rfl, rfl⟩
  | false =>
    obtain ⟨-, a, ha, rfl⟩ := readEdge_running hh ht
    rw [(unitsEdge_ok ha).2]
    exact ⟨rfl, rfl⟩

theorem bothEdges_hasProgram (w : WriteIn) (r : ReadIn) (s : State) : Ensures (HasProgram s.cfg s.trace) (bothEdges w r s) := by
  have hread := readEdge_hasProgram s.fifo.wgray r s
  unfold bothEdges
  split
  · next u hu =>
    obtain ⟨hcfg, htrace⟩ := hread u hu
    rw [← hcfg, ← htrace]
    exact writeEdge_hasProgram _ _ w u
  · exact ensures_fault _
  · exact ensures_refused _

/-- No host step moves the parameters or the trace. -/
theorem runHostStep_hasProgram (e : HostStep) (s : State) : Ensures (HasProgram s.cfg s.trace) (runHostStep e s) := by
  cases e with
  | word w => exact .runWord (fun _ => ⟨rfl, rfl⟩) fun i => exec_hasProgram i s
  | reset => exact ensures_next.2 ⟨rfl, rfl⟩
  | resetOne d => exact ensures_refused _
  | resetAssert => exact ensures_next.2 ⟨rfl, rfl⟩
  | resetRelease d => cases d <;> exact ensures_next.2 ⟨rfl, rfl⟩
  | crossW v => exact .rangeW ⟨rfl, rfl⟩ fun _ _ => ⟨rfl, rfl⟩
  | crossR v => exact .rangeR ⟨rfl, rfl⟩ fun _ _ => ⟨rfl, rfl⟩
  | wclk i => exact .asyncOnly (writeEdge_hasProgram _ _ i (s.report .unit))
  | rclk i => exact .asyncOnly (.onTime fun _ => readEdge_hasProgram _ i ((s.withSinceTick _).report .unit))
  | clk w r =>
    unfold runHostStep
    exact .onTime fun _ => bothEdges_hasProgram w r ((s.withSinceTick _).report .unit)

/-- Settles O44: the step takes its host step off the trace and runs it, and no host step moves the parameters or the trace. -/
theorem stepKeepsParameters : Obligations.StepKeepsParameters := by
  intro s t ht
  have hstep : Ensures (HasProgram s.cfg s.trace.tail) (step s) :=
    .step (fun hnil => ⟨rfl, by rw [hnil]; rfl⟩) fun e rest hcons => by
      rw [hcons]
      exact runHostStep_hasProgram e (s.withTrace rest)
  obtain ⟨hcfg, htrace⟩ := hstep t ht
  exact ⟨hcfg, htrace⟩

end Sys2Proof.Machine
end

section
/-! PROOFS. The number of buffered elements and each domain's view of it (10_state.md R38, R41 (c), 20_memory.md R59). -/

namespace Sys2Proof.Machine

open Sys2Proof

/-- The buffered elements fit in CTR_W bits, for there are at most N - 1 (R41 (b), R43). -/
theorem FifoInv.buffered_lt {c : Config} {f : Fifo} (hl : c.legal = true) (h : FifoInv c f) :
    f.ghost.r ≤ f.ghost.w ∧ f.ghost.w - f.ghost.r < c.ptrMod := by
  have h1 := h.wqr_le_r
  have h2 := h.r_le_rqw
  have h3 := h.rqw_le_w
  have h4 := h.room
  have h5 := capacity_le_ptrMod hl
  have h6 := ptrMod_pos c
  omega

/-- Settles O47: the pointers are the counts modulo 2^CTR_W and the counts lie within one turn of each other, so their differences
are those of the counts, which R41 (a) and (b) order. -/
theorem bufferedCountLaw : Obligations.BufferedCountLaw := by
  intro s h
  obtain ⟨hle, hlt⟩ := h.fifo.buffered_lt h.legal
  have h1 := h.fifo.wqr_le_r
  have h2 := h.fifo.r_le_rqw
  have h3 := h.fifo.rqw_le_w
  have h4 := h.fifo.room
  have hr := h.fifo.rlevel_eq h.legal
  have hw := h.fifo.wlevel_eq h.legal
  refine ⟨?_, ?_, by omega, by omega, by omega, hr, hw⟩ <;> rw [h.fifo.wptr, h.fifo.rptr]
  · exact (ptrSub_count hle hlt).symm
  · exact ⟨fun e => (count_eq_of_mod_eq hle hlt e.symm).symm, fun e => by rw [e]⟩

end Sys2Proof.Machine
end

section
/-! PROOFS. Pops take what was pushed, in its order, and a push leaves every unread element in its slot (20_memory.md R50, R52). -/

namespace Sys2Proof.Machine

open Sys2Proof

/-- Settles O45: a pop of a good FIFO is empty or takes push number R#, and no pop moves the pushed elements. -/
theorem popsFollowPushOrder : Obligations.PopsFollowPushOrder := by
  intro s h hu
  rcases h.fifo.pop h.legal with ⟨hr, hp⟩ | ⟨-, v, hv, hp, -⟩
  · exact ⟨_, exec_pop_ok hu hp, .inl ⟨hr, rfl, rfl⟩⟩
  · obtain ⟨-, -, -, -, -, hpushed, -⟩ := Fifo.take_writeSide s.cfg v s.fifo
    obtain ⟨-, -, hpopped⟩ := Fifo.take_copy s.cfg v s.fifo
    exact ⟨_, exec_pop_ok hu hp, .inr ⟨v, hv, rfl, hpopped, hpushed⟩⟩

/-- A push adds at most to the end of what was pushed (R83). -/
theorem Fifo.pushIf_pushed (c : Config) (full : Bool) (v : Nat) (f : Fifo) :
    f.ghost.pushed <+: (f.pushIf c full v).ghost.pushed := by
  cases full with
  | true => exact ⟨[], List.append_nil _⟩
  | false =>
    have hfold := (Fifo.foldW_sameWriteDomain c (f.store c v)).pushed
    exact ⟨[v], hfold.symm⟩

/-- A PUSH that completes is the FIFO's push, judged by the write domain's own view (R83). -/
theorem execPush_fifo (v : Byte) (s : State) :
    Ensures (fun t => t.fifo = s.fifo.pushIf s.cfg (wfull s.cfg s.fifo) v.toNat) (execPush v s) := by
  unfold execPush
  split
  · exact ensures_next.2 rfl
  · exact ensures_refused _

/-- Settles O46: the push's next state is good, so its own unread elements stand in their slots; they include those of before, for
the push moves no read pointer and only adds to what was pushed. -/
theorem pushKeepsUnread : Obligations.PushKeepsUnread := by
  intro v s t h ht k hr hw
  have hunread := (h.exec _ t ht).fifo.unread k
  have hcfg : t.cfg = s.cfg := (exec_hasProgram _ s t ht).1
  have hfifo : t.fifo = s.fifo.pushIf s.cfg (wfull s.cfg s.fifo) v.toNat := execPush_fifo v s t ht
  obtain ⟨-, -, -, -, hpopped, -⟩ := Fifo.pushIf_readSide s.cfg (wfull s.cfg s.fifo) v.toNat s.fifo
  obtain ⟨added, hpushed⟩ := Fifo.pushIf_pushed s.cfg (wfull s.cfg s.fifo) v.toNat s.fifo
  rw [← hfifo] at hpopped hpushed
  rw [hcfg, Ghost.r, Ghost.w, hpopped, ← hpushed, List.length_append, List.getElem?_append_left hw] at hunread
  exact hunread hr (Nat.lt_add_right _ hw)

end Sys2Proof.Machine
end

section
/-! PROOFS. The stops on some paths, each by its name (20_memory.md R58, 10_state.md R27, R33, 43_bridge.md R128, R132, 40_fifo.md R94,
30_encoding.md R79, 70_reset_and_hazards.md R153). -/

namespace Sys2Proof.Machine

open Sys2Proof

/-! The units. -/

theorem rempty_of_ne {f : Fifo} (h : f.rptr ≠ f.rqWptr) : rempty f = false := beq_eq_false_iff_ne.2 h

/-- R58: a pop of a slot no push has written faults. -/
theorem Fifo.pop_unwritten {c : Config} {f : Fifo} (hne : f.rptr ≠ f.rqWptr) (hr : Memory.read f.mem (f.rptr % c.n) = none) :
    f.pop c = .error .unwrittenSlot := by
  rw [Fifo.pop, rempty_of_ne hne, slotIdx, hr]
  rfl

/-- R85: a pop of a slot that holds a value gives it. -/
theorem Fifo.pop_written {c : Config} {f : Fifo} {v : Nat} (hne : f.rptr ≠ f.rqWptr)
    (hr : Memory.read f.mem (f.rptr % c.n) = some v) : f.pop c = .ok ((f.take c v).foldR c, some v) := by
  rw [Fifo.pop, rempty_of_ne hne, slotIdx, hr]
  rfl

/-- R27: a data byte whose index is 3 has no buffer register to go to (log 14). -/
theorem Parser.parse_noBufferRegister {c : Config} {b : Byte} {p : Parser} (hb : b.toNat < 128) (hr : p.rem ≠ 0)
    (hi : p.len - p.rem = 3) : p.parse c b = .error .noBufferRegister := by
  have hdata : isStatus b = false := by
    rw [isStatus_iff]
    exact decide_eq_false (Nat.not_le.2 hb)
  rw [Parser.parse_collect hdata hr, Parser.collect, hi]
  rfl

/-! The transactions. -/

section Words

variable {s : State} {e : Fault}

theorem integratedOnly_of_integrated (ht : s.cfg.top = .integrated) (k : StepResult) : integratedOnly s k = k := by
  simp only [integratedOnly, ht]

/-- A POP whose pop faults, faults. -/
theorem exec_pop_error (hu : s.cfg.top = .unit) (hp : s.fifo.pop s.cfg = .error e) : exec .pop s = .fault e := by
  rw [exec, execPop, unitOnly_of_unit hu, hp]
  rfl

/-- A PARSE whose parse faults, faults. -/
theorem exec_parse_error {b : Byte} (hu : s.cfg.top = .unit) (hp : s.parser.parse s.cfg b = .error e) :
    exec (.parse b) s = .fault e := by
  rw [exec, execParse, unitOnly_of_unit hu, hp]
  rfl

/-- R123: between handshakes and in DRAIN a BSTEP drains. -/
theorem exec_bstep_drain (r : Bool) (ht : s.cfg.top = .integrated) (hi : s.seq.sub = .idle) (hp : s.seq.phase = .drain) :
    exec (.bstep r) s = bstepDrain s := by
  rw [exec, execBstep, integratedOnly_of_integrated ht, hi, hp]

theorem bstepDrain_pop_error (hp : s.fifo.pop s.cfg = .error e) : bstepDrain s = .fault e := by
  rw [bstepDrain, hp]
  rfl

theorem bstepDrain_parse_error {f : Fifo} {v : Nat} (hf : s.fifo.pop s.cfg = .ok (f, some v))
    (hp : s.parser.parse s.cfg (itemByte s.cfg v) = .error e) : bstepDrain s = .fault e := by
  rw [bstepDrain, hf]
  simp only [orFault, hp]

/-- R33: a BSTEP at phase encoding 3 faults. -/
theorem exec_bstep_unused (r : Bool) (ht : s.cfg.top = .integrated) (hi : s.seq.sub = .idle) (hp : s.seq.phase = .unused3) :
    exec (.bstep r) s = .fault .phaseUnused := by
  rw [exec, execBstep, integratedOnly_of_integrated ht, hi, hp]

/-- A BSTEP inside a handshake or a take is refused (log 7). -/
theorem exec_bstep_busy (r : Bool) (ht : s.cfg.top = .integrated) (hb : s.seq.sub ≠ .idle) :
    exec (.bstep r) s = .refused .midHandshake := by
  rw [exec, execBstep, integratedOnly_of_integrated ht]
  cases hs : s.seq.sub with
  | idle => exact absurd hs hb
  | send => rfl
  | flush => rfl
  | take => rfl

/-- A legal word in a domain held in reset is looked at for its port and its width only (R150). -/
theorem runWord_held {x : Word} {j : Instr} (hx : decodeWord x = .ok j) (hh : s.held j.domain = true) :
    runHostStep (.word x) s = ignoreInstr j s := by
  simp only [runHostStep, runWord, hx, runInstr, hh, if_true]

end Words

/-! The edges of the read domain. -/

section Edges

variable {s : State} {e : Fault}

/-- A unit edge whose pop faults, faults (R86). -/
theorem unitEdge_pop_error {u : UnitIn} (hu : u.popReq = true) (hp : s.fifo.pop s.cfg = .error e) : unitEdge u s = .error e := by
  simp only [unitEdge, popEdge, hu, if_true, hp]

/-- A unit edge whose parse faults, faults, where its pop does not (R110). -/
theorem unitEdge_parse_error {u : UnitIn} {f : Fifo} (hf : popEdge u s = .ok f) (hu : u.pbValid = true)
    (hp : s.parser.parse s.cfg u.pbData = .error e) : unitEdge u s = .error e := by
  simp only [unitEdge, hf, parserEdge, hu, if_true, hp]

/-- In a pair of the table with no row the sequencer's edge faults, whatever its units do (R128). -/
theorem seqEdge_fsm_error {i : TopIn} (hn : fsmNext i s = .error e) : seqEdge i s = .error e := by
  simp only [seqEdge, hn]

/-- Draining, the sequencer requests a pop and feeds the parser the byte of the oldest slot (R128). -/
theorem seqDrive_drain (i : TopIn) (hi : s.seq.sub = .idle) (hp : s.seq.phase = .drain) (hne : s.fifo.rptr ≠ s.fifo.rqWptr) :
    (seqDrive i s).popReq = true ∧ (seqDrive i s).pbValid = true ∧
      (seqDrive i s).pbData = itemByte s.cfg ((Memory.read s.fifo.mem (s.fifo.rptr % s.cfg.n)).getD 0) := by
  simp only [seqDrive, hi, hp, rempty_of_ne hne]
  exact ⟨rfl, rfl, rfl⟩

/-- A draining sequencer's edge faults where its units do: DRAIN/IDLE has its row (R128). -/
theorem seqEdge_drain_error {i : TopIn} (hi : s.seq.sub = .idle) (hp : s.seq.phase = .drain)
    (hu : unitEdge (seqDrive i s) s = .error e) : seqEdge i s = .error e := by
  simp only [seqEdge, fsmNext, hi, hp, hu]

/-- A running read domain's edge faults where its units do. -/
theorem readEdge_units_error {sampled : Nat} {i : ReadIn} (hh : s.rHeld = false) (hf : i.fits s.cfg.top = true)
    (hu : unitsEdge i s = .error e) : readEdge sampled i s = .fault e := by
  cases i with
  | unit u =>
    have hedge : unitEdge u s = .error e := hu
    simp only [readEdge, hh, ReadIn.fits_unit hf, hedge, Bool.false_eq_true, if_false, orFault]
  | integrated j =>
    have hedge : seqEdge j s = .error e := hu
    simp only [readEdge, hh, ReadIn.fits_integrated hf, hedge, Bool.false_eq_true, if_false, orFault]

/-- An edge whose inputs the host is given faults where its units do, of rclk alone or of both clocks (R79, R153 (a)). -/
theorem edgeFaults_of_units {i : ReadIn} (hh : s.rHeld = false) (hf : i.fits s.cfg.top = true) (ho : s.tickOnTime i = true)
    (hu : unitsEdge i s = .error e) : edgeFaults i s e := by
  have hread : ∀ g, readEdge g i ((s.withSinceTick (s.sinceTickAfter i)).report .unit) = .fault e := fun g =>
    readEdge_units_error hh hf (by rw [unitsEdge_counted, hu]; rfl)
  constructor
  · intro ha
    rw [runHostStep, asyncOnly, if_pos ha, onTime_of ho]
    exact hread _
  · intro w
    rw [runHostStep, onTime_of ho, bothEdges, hread]

/-- An edge of the unit top faults where its units do: every edge is on time there. -/
theorem edgeFaults_unit {u : UnitIn} (ht : s.cfg.top = .unit) (hh : s.rHeld = false) (hu : unitEdge u s = .error e) :
    edgeFaults (.unit u) s e :=
  edgeFaults_of_units hh (by rw [ht]; rfl) (State.unit_onTime ht _).1 hu

/-- An edge of the integrated top that is on time faults where the sequencer's does. -/
theorem edgeFaults_integrated {i : TopIn} (ht : s.cfg.top = .integrated) (hh : s.rHeld = false)
    (ho : s.tickOnTime (.integrated i) = true) (hu : seqEdge i s = .error e) : edgeFaults (.integrated i) s e :=
  edgeFaults_of_units hh (by rw [ht]; rfl) ho hu

/-- R79: a running read domain's edge with the other top's inputs is refused (log 22). -/
theorem readEdge_unfit_refused {sampled : Nat} {i : ReadIn} (hh : s.rHeld = false) (hf : i.fits s.cfg.top = false) :
    readEdge sampled i s = .refused .notInConfig := by
  simp only [readEdge, hh, Bool.false_eq_true, if_false]
  cases i with
  | unit u =>
    cases ht : s.cfg.top with
    | unit => rw [ht] at hf; exact nomatch hf
    | integrated => rfl
  | integrated j =>
    cases ht : s.cfg.top with
    | unit => rfl
    | integrated => rw [ht] at hf; exact nomatch hf

/-- R79: a running read domain is given no edge with the other top's inputs, of rclk alone or of both clocks (log 22). -/
theorem edge_unfit_refused {i : ReadIn} (hh : s.rHeld = false) (hf : i.fits s.cfg.top = false) (ho : s.tickOnTime i = true)
    (w : WriteIn) : runHostStep (.rclk i) s = .refused .notInConfig ∧ runHostStep (.clk w i) s = .refused .notInConfig := by
  have hread : ∀ g, readEdge g i ((s.withSinceTick (s.sinceTickAfter i)).report .unit) = .refused .notInConfig := fun g =>
    readEdge_unfit_refused hh hf
  constructor
  · rw [runHostStep, asyncOnly, onTime_of ho]
    split
    · exact hread _
    · rfl
  · rw [runHostStep, onTime_of ho, bothEdges, hread]

/-- R153 (a): an edge of rclk or of both clocks that is not on time is refused. -/
theorem edge_off_time_refused {i : ReadIn} (ho : s.tickOnTime i = false) (w : WriteIn) :
    (s.cfg.async = true → runHostStep (.rclk i) s = .refused .hostDuty) ∧ runHostStep (.clk w i) s = .refused .hostDuty := by
  constructor
  · intro ha
    rw [runHostStep, asyncOnly, if_pos ha, onTime_refused ho]
  · rw [runHostStep, onTime_refused ho]

/-- The table of R128 has no row for a take outside SAMPLE and none for an accepted flush in WAIT (log 15). -/
theorem fsmNext_no_row {i : TopIn} (h : s.seq.sub = .take ∧ (s.seq.phase = .wait ∨ s.seq.phase = .drain) ∨
    s.seq.sub = .flush ∧ s.seq.phase = .wait ∧ i.flushReady = true) : fsmNext i s = .error .noSequencerRow := by
  rcases h with ⟨hs, hp | hp⟩ | ⟨hs, hp, hr⟩
  · simp only [fsmNext, hs, hp]
  · simp only [fsmNext, hs, hp]
  · simp only [fsmNext, hs, hp, hr, if_true]

/-- Duty (a) is broken by a tick before the TICK_PERIOD-th cycle after the last one and by none in it (R153, log 30). -/
theorem tickOnTime_broken {i : TopIn} {k : Nat} (ht : s.cfg.top = .integrated) (hh : s.rHeld = false)
    (hk : s.sinceTick = some k)
    (hb : i.tick = true ∧ k ≤ s.cfg.tickPeriodPred ∨ i.tick = false ∧ s.cfg.tickPeriodPred < k) :
    s.tickOnTime (.integrated i) = false := by
  have hperiod : s.cfg.tickPeriod ≤ k ↔ s.cfg.tickPeriodPred < k := Iff.rfl
  rcases hb with ⟨hi, hle⟩ | ⟨hi, hlt⟩
  · simp [State.tickOnTime, ht, hh, hk, hi, hperiod, hle]
  · simp [State.tickOnTime, ht, hh, hk, hi, hperiod, hlt]

end Edges

/-! The stops, group by group. -/

section Stops

variable {s : State}

/-- R58: every pop of a slot no push has written faults so. -/
theorem unwrittenSlot_stops (r : Bool) (u : UnitIn) (i : TopIn) (hne : s.fifo.rptr ≠ s.fifo.rqWptr)
    (hread : Memory.read s.fifo.mem (s.fifo.rptr % s.cfg.n) = none) :
    (s.cfg.top = .unit → exec .pop s = .fault .unwrittenSlot) ∧
    (s.cfg.top = .integrated → s.seq.sub = .idle → s.seq.phase = .drain → exec (.bstep r) s = .fault .unwrittenSlot) ∧
    (s.cfg.top = .unit → s.rHeld = false → u.popReq = true → edgeFaults (.unit u) s .unwrittenSlot) ∧
    (s.cfg.top = .integrated → s.rHeld = false → s.tickOnTime (.integrated i) = true → s.seq.sub = .idle →
      s.seq.phase = .drain → edgeFaults (.integrated i) s .unwrittenSlot) := by
  have hpop := Fifo.pop_unwritten hne hread
  refine ⟨fun ht => exec_pop_error ht hpop, fun ht hi hp => ?_, fun ht hh hu => ?_, fun ht hh ho hi hp => ?_⟩
  · rw [exec_bstep_drain r ht hi hp, bstepDrain_pop_error hpop]
  · exact edgeFaults_unit ht hh (unitEdge_pop_error hu hpop)
  · obtain ⟨hreq, -, -⟩ := seqDrive_drain i hi hp hne
    exact edgeFaults_integrated ht hh ho (seqEdge_drain_error hi hp (unitEdge_pop_error hreq hpop))

/-- R27: every data byte at index 3 faults so (log 14). -/
theorem noBufferRegister_stops {b : Byte} (r : Bool) (u : UnitIn) (i : TopIn) (hb : b.toNat < 128) (hr : s.parser.rem ≠ 0)
    (hi : s.parser.len - s.parser.rem = 3) :
    (s.cfg.top = .unit → exec (.parse b) s = .fault .noBufferRegister) ∧
    (s.cfg.top = .unit → s.rHeld = false → u.popReq = false → u.pbValid = true → u.pbData = b →
      edgeFaults (.unit u) s .noBufferRegister) ∧
    (s.cfg.top = .integrated → s.seq.sub = .idle → s.seq.phase = .drain → s.fifo.rptr ≠ s.fifo.rqWptr →
      Memory.read s.fifo.mem (s.fifo.rptr % s.cfg.n) = some b.toNat →
      exec (.bstep r) s = .fault .noBufferRegister ∧
        (s.rHeld = false → s.tickOnTime (.integrated i) = true → edgeFaults (.integrated i) s .noBufferRegister)) := by
  have hparse : s.parser.parse s.cfg b = .error .noBufferRegister := Parser.parse_noBufferRegister hb hr hi
  refine ⟨fun ht => exec_parse_error ht hparse, fun ht hh hpop hv hd => ?_, fun ht hi hp hne hread => ⟨?_, fun hh ho => ?_⟩⟩
  · have hidle : popEdge u s = .ok s.fifo := by rw [popEdge, hpop]; rfl
    exact edgeFaults_unit ht hh (unitEdge_parse_error hidle hv (by rw [hd]; exact hparse))
  · rw [exec_bstep_drain r ht hi hp]
    exact bstepDrain_parse_error (Fifo.pop_written hne hread) (by rw [itemByte_of_byte]; exact hparse)
  · obtain ⟨hreq, hvalid, hdata⟩ := seqDrive_drain i hi hp hne
    have hpop : popEdge (seqDrive i s) s = .ok ((s.fifo.take s.cfg b.toNat).foldR s.cfg) := by
      rw [popEdge, if_pos hreq, Fifo.pop_written hne hread]
    rw [hread, Option.getD_some, itemByte_of_byte] at hdata
    have hunits := unitEdge_parse_error hpop hvalid (by rw [hdata]; exact hparse)
    exact edgeFaults_integrated ht hh ho (seqEdge_drain_error hi hp hunits)

/-- R94: a crossing of the write pointer to a count outside its range is refused so (log 17). -/
theorem crossW_outOfRange {v : Nat} (hv : v < s.fifo.ghost.rqw ∨ s.fifo.ghost.w < v) :
    runHostStep (.crossW v) s = .refused .crossingOutOfRange := by
  rw [runHostStep, rangeW, if_neg (by omega)]

/-- R94: a crossing of the read pointer to a count outside its range is refused so (log 17). -/
theorem crossR_outOfRange {v : Nat} (hv : v < s.fifo.ghost.wqr ∨ s.fifo.ghost.r < v) :
    runHostStep (.crossR v) s = .refused .crossingOutOfRange := by
  rw [runHostStep, rangeR, if_neg (by omega)]

/-- R79: an edge of one clock alone is refused where there is one clock only (log 22). -/
theorem asyncOnly_refused (ha : s.cfg.async = false) (k : StepResult) : asyncOnly s k = .refused .notInConfig := by
  rw [asyncOnly, ha]
  rfl

/-- R132, R64 (e): a word without a port, and a PUSH of another width, stop in a held domain as elsewhere. -/
theorem heldWord_stops {x : Word} {j : Instr} (hx : decodeWord x = .ok j) (hh : s.held j.domain = true) :
    (j.admitted s.cfg.top = false → runHostStep (.word x) s = .refused .notInConfig) ∧
    (j.admitted s.cfg.top = true → j.widthOk s.cfg = false → runHostStep (.word x) s = .refused .illegalWord) := by
  rw [runWord_held hx hh]
  refine ⟨fun ha => ?_, fun ha hw => ?_⟩
  · simp only [ignoreInstr, ha, Bool.false_eq_true, if_false]
  · simp only [ignoreInstr, ha, hw, Bool.false_eq_true, if_true, if_false]

end Stops

/-- Settles O18: an operation stops where the unit it runs does, an edge where its units do, and the rest are the guards of the host's
steps: the range of a crossing, the clocks, the top's inputs and the duty to tick. -/
theorem stopsByName : Obligations.StopsByName := by
  intro s b r u i w v
  refine ⟨unwrittenSlot_stops r u i, noBufferRegister_stops r u i,
    fun ht hp => ⟨fun hi => exec_bstep_unused r ht hi hp, fun hh ho => ?_⟩,
    fun ht hh ho hrow => edgeFaults_integrated ht hh ho (seqEdge_fsm_error (fsmNext_no_row hrow)),
    exec_bstep_busy r, fun x j => heldWord_stops, crossW_outOfRange, crossR_outOfRange, fun ha => ?_,
    fun hh => ⟨fun ht => ?_, fun ht => ?_⟩, fun k ht hh hk hb => edge_off_time_refused (tickOnTime_broken ht hh hk hb) w⟩
  · have hrow : fsmNext i s = .error .phaseUnused := by simp only [fsmNext, hp]
    exact edgeFaults_integrated ht hh ho (seqEdge_fsm_error hrow)
  · exact ⟨asyncOnly_refused ha _, asyncOnly_refused ha _, asyncOnly_refused ha _⟩
  · exact edge_unfit_refused hh (by rw [ht]; rfl) (State.unit_onTime ht _).1 w
  · have ho : s.tickOnTime (.unit u) = true := by simp only [State.tickOnTime, ht]
    exact edge_unfit_refused hh (by rw [ht]; rfl) ho w

end Sys2Proof.Machine
end

section
/-! PROOFS. The decoder and the encoder are inverse to each other, and what the decoder refuses (30_encoding.md R61 to R64). -/

namespace Sys2Proof

/-! The operand forms of the decoder -/

theorem guard_refuses_iff {p : Prop} [Decidable p] {i : Instr} {e : IllegalReason} :
    (∃ r, (if p then .ok i else .error e : Except IllegalReason Instr) = .error r) ↔ ¬ p := by
  split
  next h => exact ⟨nofun, fun hn => absurd h hn⟩
  next h => exact ⟨fun _ => h, fun _ => ⟨e, rfl⟩⟩

/-- R61, R64 (c). -/
theorem decodeBare_eq_ok_iff {imm : Byte} {j i : Instr} : decodeBare imm j = .ok i ↔ imm = 0 ∧ j = i := by
  unfold decodeBare
  split
  next h => simp [h]
  next h => exact ⟨nofun, fun hi => absurd hi.1 h⟩

theorem decodeBare_refuses_iff {imm : Byte} {j : Instr} : (∃ r, decodeBare imm j = .error r) ↔ imm ≠ 0 := by
  unfold decodeBare
  exact guard_refuses_iff

/-- R63: a byte with imm[7:1] = 0 is the level of its bit 0. -/
theorem eq_levelImm_of_high_zero {imm : Byte} : imm.extractLsb' 1 7 = 0 → imm = levelImm (imm.getLsbD 0) := by
  revert imm
  decide

theorem decodeLevel_levelImm (r : Bool) (f : Bool → Instr) : decodeLevel (levelImm r) f = .ok (f r) := by
  obtain ⟨hhigh, hbit⟩ := levelImm_reads r
  rw [decodeLevel, if_pos hhigh, hbit]

/-- R63, R64 (d). -/
theorem decodeLevel_eq_ok_iff {imm : Byte} {f : Bool → Instr} {i : Instr} :
    decodeLevel imm f = .ok i ↔ ∃ r, imm = levelImm r ∧ f r = i := by
  constructor
  · intro h
    unfold decodeLevel at h
    split at h
    next hhigh => exact ⟨_, eq_levelImm_of_high_zero hhigh, Except.ok.inj h⟩
    next => cases h
  · rintro ⟨r, rfl, rfl⟩
    exact decodeLevel_levelImm r f

theorem decodeLevel_refuses_iff {imm : Byte} {f : Bool → Instr} :
    (∃ r, decodeLevel imm f = .error r) ↔ imm.extractLsb' 1 7 ≠ 0 := by
  unfold decodeLevel
  exact guard_refuses_iff

/-! The fields of a word -/

/-- A word is its three fields (R61). -/
theorem append_fields (w : Word) : (wordOp w ++ wordZ w) ++ wordImm w = w := by
  have hhigh : wordOp w ++ wordZ w = w.extractLsb' 8 (4 + 4) :=
    BitVec.extractLsb'_append_extractLsb'_eq_extractLsb' (len₁ := 4) rfl
  rw [hhigh]
  exact BitVec.extractLsb'_append_extractLsb'

theorem eq_mkWord_iff {w : Word} {op : BitVec 4} {imm : Byte} :
    w = mkWord op imm ↔ wordOp w = op ∧ wordZ w = 0 ∧ wordImm w = imm := by
  constructor
  · rintro rfl
    exact ⟨wordOp_mkWord op imm, wordZ_mkWord op imm, wordImm_mkWord op imm⟩
  · rintro ⟨rfl, hz, rfl⟩
    rw [mkWord, ← hz, append_fields]

/-! Decoding -/

/-- R62, R63: the fields of an operation decode to it. -/
theorem decodeOp_fields (i : Instr) : decodeOp i.op i.imm = .ok i := by
  cases i with
  | sample r => exact decodeLevel_levelImm r .sample
  | bstep r => exact decodeLevel_levelImm r .bstep
  | _ => rfl

/-- R62, R63: fields that decode are those of the operation. -/
theorem fields_of_decodeOp {op : BitVec 4} {imm : Byte} {i : Instr} (h : decodeOp op imm = .ok i) :
    op = i.op ∧ imm = i.imm := by
  unfold decodeOp at h
  split at h
  case h_16 => cases h
  case h_1 hop | h_9 hop | h_10 hop =>
    obtain rfl := Except.ok.inj h
    exact ⟨BitVec.eq_of_toNat_eq hop, rfl⟩
  case h_11 hop | h_14 hop =>
    obtain ⟨r, rfl, rfl⟩ := decodeLevel_eq_ok_iff.1 h
    exact ⟨BitVec.eq_of_toNat_eq hop, rfl⟩
  all_goals
    rename_i hop
    obtain ⟨rfl, rfl⟩ := decodeBare_eq_ok_iff.1 h
    exact ⟨BitVec.eq_of_toNat_eq hop, rfl⟩

theorem decodeWord_of_wordZ {w : Word} (h : wordZ w = 0) : decodeWord w = decodeOp (wordOp w) (wordImm w) := if_pos h

theorem decodeWord_refuses_of_wordZ {w : Word} (h : wordZ w ≠ 0) : ∃ r, decodeWord w = .error r := by
  rw [decodeWord, if_neg h]
  split
  · exact ⟨_, rfl⟩
  · exact ⟨_, rfl⟩

/-- R61 to R63: a word decodes to the operation whose fields it has. -/
theorem decodeWord_eq_ok_iff {w : Word} {i : Instr} :
    decodeWord w = .ok i ↔ wordOp w = i.op ∧ wordZ w = 0 ∧ wordImm w = i.imm := by
  constructor
  · intro h
    by_cases hz : wordZ w = 0
    · rw [decodeWord_of_wordZ hz] at h
      obtain ⟨hop, himm⟩ := fields_of_decodeOp h
      exact ⟨hop, hz, himm⟩
    · obtain ⟨r, hr⟩ := decodeWord_refuses_of_wordZ hz
      rw [hr] at h
      cases h
  · rintro ⟨hop, hz, himm⟩
    rw [decodeWord_of_wordZ hz, hop, himm, decodeOp_fields]

/-- Settles O2: an encoding has the fields of its operation. -/
theorem decodeOfEncode : Obligations.DecodeOfEncode :=
  fun i => decodeWord_eq_ok_iff.2 (Laws.encode_fields i)

/-- Settles O3: a word that decodes has the fields of its operation, and no other word has them. -/
theorem encodeOfDecode : Obligations.EncodeOfDecode :=
  fun _ _ h => eq_mkWord_iff.2 (decodeWord_eq_ok_iff.1 h)

/-- Settles O1: each word is decoded. -/
theorem decodesSpecWords : Obligations.DecodesSpecWords := by
  unfold Obligations.DecodesSpecWords
  decide

/-! Refusing -/

/-- The bits of `imm` an operation wants to be 0: all of an operation without an operand (R64 (c)), imm[7:1] of a level's (R64 (d)),
none of a byte's. -/
def fixedImm (op : BitVec 4) : Byte :=
  if op.toNat ∈ [2, 3, 4, 5, 6, 7, 8, 12, 13, 15] then 0xFF
  else if op.toNat ∈ [11, 14] then 0xFE
  else 0

/-- R64 (c). -/
theorem and_fixedImm_of_bare {op : BitVec 4} (h : op.toNat ∈ [2, 3, 4, 5, 6, 7, 8, 12, 13, 15]) (imm : Byte) :
    imm &&& fixedImm op = imm := by
  rw [fixedImm, if_pos h]
  exact BitVec.and_allOnes

/-- R64 (d). -/
theorem and_fixedImm_of_level {op : BitVec 4} (h : op.toNat ∈ [11, 14]) (imm : Byte) :
    imm &&& fixedImm op = 0 ↔ imm.extractLsb' 1 7 = 0 := by
  have hbits : ∀ b : Byte, b &&& 0xFE = 0 ↔ b.extractLsb' 1 7 = 0 := by decide
  have hbare : op.toNat ∉ [2, 3, 4, 5, 6, 7, 8, 12, 13, 15] := by
    intro hb
    simp only [List.mem_cons, List.not_mem_nil, or_false] at h hb
    omega
  rw [fixedImm, if_neg hbare, if_pos h]
  exact hbits imm

/-- R63: an operand byte is free. -/
theorem and_fixedImm_of_byte {op : BitVec 4} (hbare : op.toNat ∉ [2, 3, 4, 5, 6, 7, 8, 12, 13, 15])
    (hlevel : op.toNat ∉ [11, 14]) (imm : Byte) : imm &&& fixedImm op = 0 := by
  rw [fixedImm, if_neg hbare, if_neg hlevel]
  exact BitVec.and_zero

theorem decodeOp_refuses_iff {op : BitVec 4} {imm : Byte} :
    (∃ r, decodeOp op imm = .error r) ↔ op.toNat = 0 ∨ imm &&& fixedImm op ≠ 0 := by
  unfold decodeOp
  split
  case h_16 =>
    have hop : op.toNat = 0 := by
      simp only [imp_false] at *
      omega
    exact ⟨fun _ => .inl hop, fun _ => ⟨_, rfl⟩⟩
  case h_1 hop | h_9 hop | h_10 hop =>
    have himm := and_fixedImm_of_byte (op := op) (by rw [hop]; decide) (by rw [hop]; decide) imm
    simp [hop, himm]
  case h_11 hop | h_14 hop =>
    rw [decodeLevel_refuses_iff, ne_eq, ne_eq, and_fixedImm_of_level (by rw [hop]; decide), hop]
    simp
  all_goals
    rename_i hop
    rw [decodeBare_refuses_iff, and_fixedImm_of_bare (by rw [hop]; decide), hop]
    simp

/-- R64 (a) to (d) on the fields of the word. -/
theorem decodeWord_refuses_iff {w : Word} :
    (∃ r, decodeWord w = .error r) ↔
      (wordOp w).toNat = 0 ∨ wordZ w ≠ 0 ∨ wordImm w &&& fixedImm (wordOp w) ≠ 0 := by
  by_cases hz : wordZ w = 0
  · rw [decodeWord_of_wordZ hz, decodeOp_refuses_iff]
    simp only [hz, ne_eq, not_true, false_or]
  · exact ⟨fun _ => .inr (.inl hz), fun _ => decodeWord_refuses_of_wordZ hz⟩

theorem wordOp_toNat (w : Word) : (wordOp w).toNat = w.toNat / 4096 := by
  rw [wordOp, BitVec.extractLsb'_toNat, Nat.shiftRight_eq_div_pow]
  omega

theorem wordZ_toNat (w : Word) : (wordZ w).toNat = w.toNat / 256 % 16 := by
  rw [wordZ, BitVec.extractLsb'_toNat, Nat.shiftRight_eq_div_pow]

theorem wordImm_toNat (w : Word) : (wordImm w).toNat = w.toNat % 256 := by
  rw [wordImm, BitVec.extractLsb'_toNat, Nat.shiftRight_zero]

/-- R64 (c), (d) as the spec words them. -/
theorem and_fixedImm_ne_zero_iff (op : BitVec 4) (imm : Byte) :
    imm &&& fixedImm op ≠ 0 ↔
      (imm.toNat ≠ 0 ∧ op.toNat ∈ [2, 3, 4, 5, 6, 7, 8, 12, 13, 15]) ∨ (imm.toNat / 2 ≠ 0 ∧ op.toNat ∈ [11, 14]) := by
  have hzero : imm = 0 ↔ imm.toNat = 0 := BitVec.toNat_inj.symm
  have hhigh : ∀ b : Byte, b.extractLsb' 1 7 = 0 ↔ b.toNat / 2 = 0 := by decide
  by_cases hbare : op.toNat ∈ [2, 3, 4, 5, 6, 7, 8, 12, 13, 15]
  · rw [and_fixedImm_of_bare hbare, ne_eq, hzero]
    have : imm.toNat / 2 ≠ 0 → imm.toNat ≠ 0 := by omega
    tauto
  · by_cases hlevel : op.toNat ∈ [11, 14]
    · rw [ne_eq, and_fixedImm_of_level hlevel, hhigh]
      simp only [hbare, hlevel, and_false, and_true, false_or, ne_eq]
    · simp only [hbare, hlevel, and_fixedImm_of_byte hbare hlevel, and_false, or_false, ne_eq, not_true]

/-- R64 (a) to (d). -/
theorem decoder_refuses_iff (w : Word) :
    (∃ r, decodeWord w = .error r) ↔
    (w.toNat / 4096 = 0 ∨ w.toNat / 256 % 16 ≠ 0 ∨
      (w.toNat % 256 ≠ 0 ∧ w.toNat / 4096 ∈ [2, 3, 4, 5, 6, 7, 8, 12, 13, 15]) ∨
      (w.toNat % 256 / 2 ≠ 0 ∧ w.toNat / 4096 ∈ [11, 14])) := by
  have hz : wordZ w ≠ 0 ↔ (wordZ w).toNat ≠ 0 := BitVec.toNat_ne_iff_ne.symm
  rw [decodeWord_refuses_iff, and_fixedImm_ne_zero_iff, hz, wordOp_toNat, wordZ_toNat, wordImm_toNat]

/-! The opcode table -/

/-- Every row names an operation by `op`, and masks op, z and the bits of imm the operation wants to be 0. -/
theorem opcodeTable_layout : ∀ r ∈ opcodeTable,
    (r.value = mkWord (wordOp r.value) 0 ∧ wordOp r.value ≠ 0) ∧
      wordOp r.mask = BitVec.allOnes 4 ∧ wordZ r.mask = BitVec.allOnes 4 ∧ wordImm r.mask = fixedImm (wordOp r.value) := by
  decide

theorem wordOp_and (v w : Word) : wordOp (v &&& w) = wordOp v &&& wordOp w := BitVec.extractLsb'_and

theorem wordZ_and (v w : Word) : wordZ (v &&& w) = wordZ v &&& wordZ w := BitVec.extractLsb'_and

theorem wordImm_and (v w : Word) : wordImm (v &&& w) = wordImm v &&& wordImm w := BitVec.extractLsb'_and

/-- The word has the operation of the row, and is 0 where that wants it. -/
theorem OpcodeRow.covers_iff {r : OpcodeRow} (hr : r ∈ opcodeTable) (w : Word) :
    r.covers w = true ↔ wordOp w = wordOp r.value ∧ wordZ w = 0 ∧ wordImm w &&& fixedImm (wordOp w) = 0 := by
  obtain ⟨⟨hvalue, -⟩, hop, hz, himm⟩ := opcodeTable_layout r hr
  have hfields : r.covers w = true ↔
      wordOp w = wordOp r.value ∧ wordZ w = 0 ∧ wordImm w &&& fixedImm (wordOp r.value) = 0 := by
    rw [OpcodeRow.covers, beq_iff_eq, hvalue, eq_mkWord_iff, wordOp_and, wordZ_and, wordImm_and, hop, hz, himm,
      BitVec.and_allOnes, BitVec.and_allOnes, wordOp_mkWord]
  rw [hfields]
  exact and_congr_right fun h => by rw [h]

/-- The rows of an operation's `op` are one, with its mnemonic (R62). -/
theorem opcodeTable_filter_op (i : Instr) :
    (opcodeTable.filter fun r => i.op = wordOp r.value).map OpcodeRow.mnemonic = [i.mnemonic] := by
  cases i <;> rfl

/-- Settles O5: a word that decodes is covered by the rows of its `op`, and a row that covers a word leaves the decoder no reason to
refuse it. -/
theorem opcodeTableAgrees : Obligations.OpcodeTableAgrees := by
  intro w
  split
  next i hd =>
    obtain ⟨hop, hz, -⟩ := decodeWord_eq_ok_iff.1 hd
    have himm : wordImm w &&& fixedImm (wordOp w) = 0 := by
      by_contra hne
      obtain ⟨r, hr⟩ := decodeWord_refuses_iff.2 (.inr (.inr hne))
      rw [hr] at hd
      cases hd
    have hrows : ∀ r ∈ opcodeTable, r.covers w = decide (i.op = wordOp r.value) := by
      intro r hr
      rw [← hop, Bool.eq_iff_iff, OpcodeRow.covers_iff hr, decide_eq_true_iff]
      simp only [hz, himm, and_true]
    rw [List.filter_congr hrows, opcodeTable_filter_op]
  next e hd =>
    rw [List.map_eq_nil_iff, List.filter_eq_nil_iff]
    intro r hr hcov
    obtain ⟨hop, hz, himm⟩ := (OpcodeRow.covers_iff hr w).1 hcov
    obtain ⟨⟨-, hne⟩, -⟩ := opcodeTable_layout r hr
    rcases decodeWord_refuses_iff.1 ⟨e, hd⟩ with h | h | h
    · exact hne (hop ▸ BitVec.eq_of_toNat_eq h)
    · exact h hz
    · exact h himm

namespace Machine

/-- Settles O4: the cases (a) to (d) are those of the word's fields; the step of a refused word and a PUSH of another width are
refused by their guards. -/
theorem illegalWordsRefused : Obligations.IllegalWordsRefused := by
  refine ⟨decoder_refuses_iff, fun w r s rest hd hl ht => ?_, fun v s hw => if_neg hw⟩
  rw [step_of_legal hl ht, runHostStep, runWord, hd]

end Machine

end Sys2Proof
end

section
/-! PROOFS. The trace line of a transaction assembles to it (30_encoding.md R77). -/

namespace Sys2Proof

/-! Reading the tokens of a line -/

/-- A token: a word of a line, without a blank and without the `;` of a comment (R77). -/
def isToken (t : List Char) : Bool := t != [] && t.all fun ch => ch != ' ' && ch != ';'

theorem isToken_iff {t : List Char} : isToken t = true ↔ t ≠ [] ∧ (∀ ch ∈ t, ch ≠ ' ') ∧ ∀ ch ∈ t, ch ≠ ';' := by
  simp only [isToken, Bool.and_eq_true, bne_iff_ne, List.all_eq_true, forall₂_and]

theorem tokensFrom_append {t : List Char} (ht : ∀ ch ∈ t, ch ≠ ' ') (acc rest : List Char) :
    tokensFrom acc (t ++ rest) = tokensFrom (t.reverse ++ acc) rest := by
  induction t generalizing acc with
  | nil => rfl
  | cons ch t ih =>
    obtain ⟨hch, ht⟩ := List.forall_mem_cons.1 ht
    simp [tokensFrom, hch, ih ht]

theorem tokensFrom_token {t : List Char} (ht : isToken t = true) : tokensFrom [] t = [t] := by
  obtain ⟨hne, hblank, -⟩ := isToken_iff.1 ht
  simpa [tokensFrom, hne] using tokensFrom_append hblank [] []

theorem tokensFrom_token_blank {t : List Char} (ht : isToken t = true) (rest : List Char) :
    tokensFrom [] (t ++ ' ' :: rest) = t :: tokensFrom [] rest := by
  obtain ⟨hne, hblank, -⟩ := isToken_iff.1 ht
  simpa [tokensFrom, hne] using tokensFrom_append hblank [] (' ' :: rest)

theorem stripComment_of_no_semicolon {l : List Char} (hl : ∀ ch ∈ l, ch ≠ ';') : stripComment l = l :=
  List.takeWhile_eq_self_iff.2 fun ch hch => bne_iff_ne.2 (hl ch hch)

/-- A line of one token is an operation without an operand. -/
theorem assembleLine_token {t : List Char} (ht : isToken t = true) : assembleLine t = bareMnemonic t := by
  obtain ⟨-, -, hsemi⟩ := isToken_iff.1 ht
  rw [assembleLine, stripComment_of_no_semicolon hsemi, tokensFrom_token ht]

/-- A line of two tokens is an operation with its operand. -/
theorem assembleLine_operand {t o : List Char} (ht : isToken t = true) (ho : isToken o = true) :
    assembleLine (t ++ ' ' :: o) = operandMnemonic t o := by
  obtain ⟨-, -, hsemit⟩ := isToken_iff.1 ht
  obtain ⟨-, -, hsemio⟩ := isToken_iff.1 ho
  have hline : ∀ ch ∈ t ++ ' ' :: o, ch ≠ ';' :=
    List.forall_mem_append.2 ⟨hsemit, List.forall_mem_cons.2 ⟨by decide, hsemio⟩⟩
  rw [assembleLine, stripComment_of_no_semicolon hline, tokensFrom_token_blank ht, tokensFrom_token ho]

/-! The operands -/

/-- Each digit as R77 writes it reads back, and is no blank and no comment. -/
theorem hexChar_reads : ∀ n < 16, hexDigit (hexChar n) = some n ∧ hexChar n ≠ ' ' ∧ hexChar n ≠ ';' := by decide

theorem isToken_byteText (b : Byte) : isToken (byteText b) = true := by
  obtain ⟨-, hh⟩ := hexChar_reads (b.toNat / 16) (by omega)
  obtain ⟨-, hl⟩ := hexChar_reads (b.toNat % 16) (by omega)
  simp [isToken, byteText, hh, hl]

theorem byteOperand_byteText (b : Byte) : byteOperand (byteText b) = some b := by
  obtain ⟨hh, -⟩ := hexChar_reads (b.toNat / 16) (by omega)
  obtain ⟨hl, -⟩ := hexChar_reads (b.toNat % 16) (by omega)
  simp only [byteText, byteOperand, hh, hl, Nat.div_add_mod, BitVec.ofNat_toNat, BitVec.setWidth_eq]

theorem isToken_levelText (r : Bool) : isToken (levelText r) = true := by
  cases r <;> rfl

theorem levelOperand_levelText (r : Bool) : levelOperand (levelText r) = some r := by
  cases r <;> rfl

/-! The lines -/

/-- An operation with a byte operand. -/
theorem assembleLine_byteText {t : List Char} (ht : isToken t = true) {f : Byte → Instr}
    (hf : ∀ o, operandMnemonic t o = (byteOperand o).map f) (b : Byte) :
    assembleLine (t ++ ' ' :: byteText b) = some (f b) := by
  rw [assembleLine_operand ht (isToken_byteText b), hf, byteOperand_byteText, Option.map_some]

/-- An operation with a level operand. -/
theorem assembleLine_levelText {t : List Char} (ht : isToken t = true) {f : Bool → Instr}
    (hf : ∀ o, operandMnemonic t o = (levelOperand o).map f) (r : Bool) :
    assembleLine (t ++ ' ' :: levelText r) = some (f r) := by
  rw [assembleLine_operand ht (isToken_levelText r), hf, levelOperand_levelText, Option.map_some]

/-- Settles O6: the tokens of the line are the mnemonic and the operand's text, which read back. -/
theorem traceTextAssembles : Obligations.TraceTextAssembles := by
  intro i
  cases i with
  | push v => exact assembleLine_byteText (t := ['P', 'U', 'S', 'H']) rfl (fun _ => rfl) v
  | parse b => exact assembleLine_byteText (t := ['P', 'A', 'R', 'S', 'E']) rfl (fun _ => rfl) b
  | setmask m => exact assembleLine_byteText (t := ['S', 'E', 'T', 'M', 'A', 'S', 'K']) rfl (fun _ => rfl) m
  | sample r => exact assembleLine_levelText (t := ['S', 'A', 'M', 'P', 'L', 'E']) rfl (fun _ => rfl) r
  | bstep r => exact assembleLine_levelText (t := ['B', 'S', 'T', 'E', 'P']) rfl (fun _ => rfl) r
  | _ => exact assembleLine_token rfl

end Sys2Proof
end

section
/-! PROOFS. The classes and lengths of MIDI bytes and the button messages (30_encoding.md R65 to R69, R74). -/

namespace Sys2Proof.Machine

/-- R66 on numbers. -/
theorem channel_toNat (b : Byte) : (channel b).toNat = b.toNat % 16 := by
  rw [channel, BitVec.extractLsb'_toNat, Nat.shiftRight_zero]

/-- R67: categories 0 to 3 and 6 are of length 3. -/
theorem msgLen_three {b : Byte} (h : b.toNat / 16 % 8 ∈ [0, 1, 2, 3, 6]) (c : Config) : msgLen c b = some 3 := by
  rw [← category_toNat] at h
  unfold msgLen
  split
  case h_4 => rfl
  all_goals
    rename_i hcat
    rw [hcat] at h
    exact absurd h (by decide)

/-- R67: categories 4 and 5 are of length 2. -/
theorem msgLen_two {b : Byte} (h : b.toNat / 16 % 8 = 4 ∨ b.toNat / 16 % 8 = 5) (c : Config) : msgLen c b = some 2 := by
  rw [← category_toNat] at h
  unfold msgLen
  rcases h with h | h
  · rw [h]; rfl
  · rw [h]; rfl

/-- R69: a system byte's length is the SYS_LEN of its low nibble. -/
theorem msgLen_system {b : Byte} (h : b.toNat / 16 % 8 = 7) (c : Config) :
    msgLen c b = sysLenLength (c.sysLen[b.toNat % 16]'(Nat.mod_lt _ (by decide))) := by
  rw [← category_toNat] at h
  unfold msgLen
  rw [h]
  simp only [sysLenOf, Fin.getElem_fin, BitVec.val_toFin, channel_toNat]

/-- Settles O21: each range of status bytes is that of its categories. -/
theorem categoryLengthTable : Obligations.CategoryLengthTable := by
  intro c b
  refine ⟨isStatus_iff b, category_toNat b, fun h1 h2 => msgLen_three ?_ c, fun h1 h2 => msgLen_two ?_ c,
    fun h1 h2 => msgLen_three ?_ c, fun h1 => msgLen_system ?_ c⟩
  · simp only [List.mem_cons, List.not_mem_nil, or_false]
    omega
  · omega
  · simp only [List.mem_cons, List.not_mem_nil, or_false]
    omega
  · omega

/-- R74: the channel stands in the low nibble, which a message's status leaves 0. -/
theorem status_or_channel (ch : BitVec 4) :
    (0x90 ||| ch.setWidth 8 : Byte).toNat = 0x90 + ch.toNat ∧ (0x80 ||| ch.setWidth 8 : Byte).toNat = 0x80 + ch.toNat := by
  revert ch
  decide

/-- A seven-bit value as a data byte. -/
theorem dataByte_toNat (v : BitVec 7) : (v.setWidth 8).toNat = v.toNat := BitVec.toNat_setWidth_of_le (by decide)

/-- Settles O40: the channel joins the status nibble, and the data bytes keep their values. -/
theorem buttonMessageBytes : Obligations.ButtonMessageBytes := by
  intro c
  obtain ⟨hon, hoff⟩ := status_or_channel c.noteChannel
  have hp := dataByte_toNat c.notePitch
  have hv := dataByte_toNat c.noteVelocity
  exact ⟨rfl, hon, hp, hv, rfl, rfl, hoff, hp, hv, rfl⟩

end Sys2Proof.Machine
end

section
/-! PROOFS. Two good states that differ in CTR_W alone go the same way (40_fifo.md R97). -/

namespace Sys2Proof.Machine

open Sys2Proof

/-- A FIFO's slots and counters, which with the parameters determine the rest of it (10_state.md R24). -/
structure SameCounts (f g : Fifo) : Prop where
  mem : g.mem = f.mem
  ghost : g.ghost = f.ghost

/-- A crossing sets the copy's count to the pointer's (R91). -/
theorem SameCounts.crossW {f g : Fifo} (h : SameCounts f g) (c d : Config) : SameCounts (f.crossW c) (g.crossW d) :=
  ⟨h.mem, by simp only [Fifo.crossW, h.ghost]⟩

/-- A crossing sets the copy's count to the pointer's (R92). -/
theorem SameCounts.crossR {f g : Fifo} (h : SameCounts f g) (c d : Config) : SameCounts (f.crossR c) (g.crossR d) :=
  ⟨h.mem, by simp only [Fifo.crossR, h.ghost]⟩

theorem SameCounts.foldW {c d : Config} {f g : Fifo} (h : SameCounts f g) (hx : d.exact = c.exact) :
    SameCounts (f.foldW c) (g.foldW d) := by
  unfold Fifo.foldW
  rw [hx]
  split
  · exact h.crossW c d
  · exact h

theorem SameCounts.foldR {c d : Config} {f g : Fifo} (h : SameCounts f g) (hx : d.exact = c.exact) :
    SameCounts (f.foldR c) (g.foldR d) := by
  unfold Fifo.foldR
  rw [hx]
  split
  · exact h.crossR c d
  · exact h

theorem SameCounts.take {f g : Fifo} (h : SameCounts f g) (c d : Config) (v : Nat) :
    SameCounts (f.take c v) (g.take d v) := ⟨h.mem, by simp only [Fifo.take, h.ghost]⟩

/-- A store goes to a slot, which is all that is seen of its pointer (20_memory.md R43). -/
theorem SameCounts.store {c d : Config} {f g : Fifo} (h : SameCounts f g) (hi : slotIdx d g.wptr = slotIdx c f.wptr) (v : Nat) :
    SameCounts (f.store c v) (g.store d v) :=
  ⟨by simp only [Fifo.store, h.mem, hi], by simp only [Fifo.store, h.ghost]⟩

namespace SameButCtrW

variable {s t : State}

theorem counts (h : SameButCtrW s t) : SameCounts s.fifo t.fifo := ⟨h.mem, h.ghost⟩

theorem cfg_n (h : SameButCtrW s t) : t.cfg.n = s.cfg.n := (congrArg Config.n h.cfg).trans rfl

theorem cfg_dataW (h : SameButCtrW s t) : t.cfg.dataW = s.cfg.dataW := (congrArg Config.dataW h.cfg).trans rfl

theorem cfg_top (h : SameButCtrW s t) : t.cfg.top = s.cfg.top := (congrArg Config.top h.cfg).trans rfl

theorem cfg_exact (h : SameButCtrW s t) : t.cfg.exact = s.cfg.exact := (congrArg Config.exact h.cfg).trans rfl

/-! The operations keep the two states alike. -/

theorem report (h : SameButCtrW s t) (r : Result) (o : Option ParseOutcome) (k : Option Cause) :
    SameButCtrW (s.report r o k) (t.report r o k) :=
  ⟨h.cfg, h.mem, h.ghost, h.trace, h.held, h.sinceTick, h.parser, h.debounce, h.seq, h.txLog, rfl⟩

theorem withFifo (h : SameButCtrW s t) {f g : Fifo} (hfg : SameCounts f g) : SameButCtrW (s.withFifo f) (t.withFifo g) :=
  ⟨h.cfg, hfg.mem, hfg.ghost, h.trace, h.held, h.sinceTick, h.parser, h.debounce, h.seq, h.txLog, h.obs⟩

theorem withParser (h : SameButCtrW s t) (p : Parser) : SameButCtrW (s.withParser p) (t.withParser p) :=
  ⟨h.cfg, h.mem, h.ghost, h.trace, h.held, h.sinceTick, rfl, h.debounce, h.seq, h.txLog, h.obs⟩

theorem withDebounce (h : SameButCtrW s t) (d : Debounce) : SameButCtrW (s.withDebounce d) (t.withDebounce d) :=
  ⟨h.cfg, h.mem, h.ghost, h.trace, h.held, h.sinceTick, h.parser, rfl, h.seq, h.txLog, h.obs⟩

theorem withSeq (h : SameButCtrW s t) (q : Sequencer) : SameButCtrW (s.withSeq q) (t.withSeq q) :=
  ⟨h.cfg, h.mem, h.ghost, h.trace, h.held, h.sinceTick, h.parser, h.debounce, rfl, h.txLog, h.obs⟩

theorem logTx (h : SameButCtrW s t) (e : TxEvent) : SameButCtrW (s.logTx e) (t.logTx e) :=
  ⟨h.cfg, h.mem, h.ghost, h.trace, h.held, h.sinceTick, h.parser, h.debounce, h.seq, by rw [State.logTx_txLog, h.txLog]; rfl, h.obs⟩

theorem toPhase (h : SameButCtrW s t) (p : Phase) : SameButCtrW (s.toPhase p) (t.toPhase p) := by
  unfold State.toPhase
  rw [h.seq]
  exact h.withSeq _

theorem emit (h : SameButCtrW s t) (m : Message) : SameButCtrW (s.emit m) (t.emit m) := by
  unfold State.emit
  rw [h.seq]
  exact ((h.withSeq _).logTx _).logTx _

theorem emitIf (h : SameButCtrW s t) (b : Bool) (m : Message) : SameButCtrW (s.emitIf b m) (t.emitIf b m) := by
  cases b with
  | true => exact h.emit m
  | false => exact h

/-! What the units read is the same, for no parameter of theirs is CTR_W. -/

theorem parse (h : SameButCtrW s t) (b : Byte) : t.parser.parse t.cfg b = s.parser.parse s.cfg b := by
  rw [h.parser, h.cfg]
  rfl

theorem sample (h : SameButCtrW s t) (r : Bool) : t.debounce.sample t.cfg r = s.debounce.sample s.cfg r := by
  rw [h.debounce, h.cfg]
  rfl

theorem itemByte (h : SameButCtrW s t) (v : Nat) : itemByte t.cfg v = itemByte s.cfg v := by
  rw [h.cfg]
  rfl

theorem buttonMsgs (h : SameButCtrW s t) : noteOnMsg t.cfg = noteOnMsg s.cfg ∧ noteOffMsg t.cfg = noteOffMsg s.cfg := by
  rw [h.cfg]
  exact ⟨rfl, rfl⟩

/-! What the FIFO shows is the same, for it is a matter of the counts (R97). -/

section Views

variable (hs : Inv s) (ht : Inv t)

include hs ht

theorem rlevel (h : SameButCtrW s t) : rlevel t.cfg t.fifo = rlevel s.cfg s.fifo := by
  rw [ht.fifo.rlevel_eq ht.legal, hs.fifo.rlevel_eq hs.legal, h.ghost]

theorem wlevel (h : SameButCtrW s t) : wlevel t.cfg t.fifo = wlevel s.cfg s.fifo := by
  rw [ht.fifo.wlevel_eq ht.legal, hs.fifo.wlevel_eq hs.legal, h.ghost]

theorem wfull (h : SameButCtrW s t) : wfull t.cfg t.fifo = wfull s.cfg s.fifo := by
  unfold Machine.wfull
  rw [h.wlevel hs ht, h.cfg_n]

theorem rempty (h : SameButCtrW s t) : rempty t.fifo = rempty s.fifo := by
  rw [Bool.eq_iff_iff, ht.fifo.rempty_iff ht.legal, hs.fifo.rempty_iff hs.legal, h.ghost]

/-- The slot of the write pointer is that of its count (20_memory.md R43). -/
theorem slotIdx_wptr (h : SameButCtrW s t) : slotIdx t.cfg t.fifo.wptr = slotIdx s.cfg s.fifo.wptr := by
  rw [ht.fifo.wptr, slotIdx_count ht.legal, hs.fifo.wptr, slotIdx_count hs.legal, h.ghost, h.cfg_n]

theorem pushIf (h : SameButCtrW s t) (full : Bool) (v : Nat) :
    SameCounts (s.fifo.pushIf s.cfg full v) (t.fifo.pushIf t.cfg full v) := by
  cases full with
  | true => exact h.counts
  | false => exact (h.counts.store (h.slotIdx_wptr hs ht) v).foldW h.cfg_exact

/-- Both pops find the buffer empty, or both take the element of the same push (R85). -/
theorem pop (h : SameButCtrW s t) :
    (s.fifo.pop s.cfg = .ok (s.fifo, none) ∧ t.fifo.pop t.cfg = .ok (t.fifo, none)) ∨
    ∃ v f g, s.fifo.pop s.cfg = .ok (f, some v) ∧ t.fifo.pop t.cfg = .ok (g, some v) ∧ SameCounts f g := by
  rcases hs.fifo.pop hs.legal with ⟨hr, hp⟩ | ⟨hr, v, hv, hp, -⟩ <;>
    rcases ht.fifo.pop ht.legal with ⟨hr', hp'⟩ | ⟨hr', v', hv', hp', -⟩ <;> rw [h.ghost] at hr'
  · exact .inl ⟨hp, hp'⟩
  · omega
  · omega
  · rw [h.ghost, hv] at hv'
    cases hv'
    exact .inr ⟨v, _, _, hp, hp', (h.counts.take _ _ v).foldR h.cfg_exact⟩

end Views

end SameButCtrW

/-- The second answer follows the first: it completes where that does, in a state that differs in CTR_W alone. -/
def Follows (x y : StepResult) : Prop := Ensures (fun s => ∃ t, y = .next t ∧ SameButCtrW s t) x

theorem Follows.next {s t : State} (h : SameButCtrW s t) : Follows (.next s) (.next t) := ensures_next.2 ⟨t, rfl, h⟩

section Follows

variable {s t : State} {x y : StepResult}

theorem Follows.unitOnly (h : SameButCtrW s t) (hk : Follows x y) : Follows (unitOnly s x) (unitOnly t y) :=
  Ensures.unitOnly fun hu => by
    rw [unitOnly_of_unit (h.cfg_top.trans hu)]
    exact hk

theorem Follows.integratedOnly (h : SameButCtrW s t) (hk : Follows x y) : Follows (integratedOnly s x) (integratedOnly t y) :=
  Ensures.integratedOnly fun hu => by
    rw [integratedOnly_of_integrated (h.cfg_top.trans hu)]
    exact hk

/-- A unit that answers the same lets the rest follow. -/
theorem Follows.orFault {α : Type} {r : Except Fault α} {k l : α → StepResult} (hk : ∀ a, Follows (k a) (l a)) :
    Follows (orFault r k) (orFault r l) := by
  cases r with
  | ok a => exact hk a
  | error e => exact ensures_fault e

theorem Follows.execPush (h : SameButCtrW s t) (hs : Inv s) (ht : Inv t) (v : Byte) : Follows (execPush v s) (execPush v t) := by
  unfold Machine.execPush Machine.pushItem
  rw [h.cfg_dataW, h.wfull hs ht]
  split
  · exact .next ((h.withFifo (h.pushIf hs ht _ _)).report ..)
  · exact ensures_refused _

theorem Follows.execPop (h : SameButCtrW s t) (hs : Inv s) (ht : Inv t) : Follows (execPop s) (execPop t) := by
  refine .unitOnly h ?_
  rcases h.pop hs ht with ⟨hp, hp'⟩ | ⟨v, f, g, hp, hp', hfg⟩ <;> rw [hp, hp']
  · exact .next ((h.withFifo h.counts).report ..)
  · exact .next ((h.withFifo hfg).report ..)

theorem Follows.execWlevel (h : SameButCtrW s t) (hs : Inv s) (ht : Inv t) : Follows (execWlevel s) (execWlevel t) := by
  unfold Machine.execWlevel
  rw [h.wlevel hs ht, h.wfull hs ht]
  exact .next (h.report ..)

theorem Follows.execSyncw (h : SameButCtrW s t) : Follows (execSyncw s) (execSyncw t) := by
  unfold Machine.execSyncw
  rw [h.cfg_exact]
  split
  · exact .next ((h.withFifo h.counts).report ..)
  · exact .next ((h.withFifo (h.counts.crossW ..)).report ..)

theorem Follows.execSyncr (h : SameButCtrW s t) : Follows (execSyncr s) (execSyncr t) := by
  unfold Machine.execSyncr
  rw [h.cfg_exact]
  split
  · exact .next ((h.withFifo h.counts).report ..)
  · exact .next ((h.withFifo (h.counts.crossR ..)).report ..)

theorem Follows.execParse (h : SameButCtrW s t) (b : Byte) : Follows (execParse b s) (execParse b t) := by
  unfold Machine.execParse
  rw [h.parse]
  exact .unitOnly h (.orFault fun r => .next ((h.withParser r.parser).report ..))

theorem Follows.execSetmask (h : SameButCtrW s t) (m : Byte) : Follows (execSetmask m s) (execSetmask m t) := by
  unfold Machine.execSetmask
  rw [h.parser]
  exact .next ((h.withParser _).report ..)

theorem Follows.execSample (h : SameButCtrW s t) (r : Bool) : Follows (execSample r s) (execSample r t) := by
  unfold Machine.execSample
  rw [h.sample]
  exact .unitOnly h (.next ((h.withDebounce _).report ..))

theorem Follows.execTakep (h : SameButCtrW s t) : Follows (execTakep s) (execTakep t) := by
  unfold Machine.execTakep
  rw [h.debounce]
  exact .unitOnly h (.next ((h.withDebounce _).report ..))

theorem Follows.execTaker (h : SameButCtrW s t) : Follows (execTaker s) (execTaker t) := by
  unfold Machine.execTaker
  rw [h.debounce]
  exact .unitOnly h (.next ((h.withDebounce _).report ..))

theorem Follows.bstepWait (h : SameButCtrW s t) : Follows (bstepWait s) (bstepWait t) := by
  unfold Machine.bstepWait
  rw [h.seq]
  split
  · exact .next ((h.withSeq _).report ..)
  · exact .next (h.report ..)

theorem Follows.bstepParsed (h : SameButCtrW s t) (r : Parsed) : Follows (bstepParsed s r) (bstepParsed t r) := by
  have hr := (h.withParser r.parser).report .unit (some r.outcome) (outcomeCause r.outcome)
  unfold Machine.bstepParsed
  cases r.message with
  | none => exact .next hr
  | some m => exact .next (hr.emit m)

theorem Follows.bstepDrain (h : SameButCtrW s t) (hs : Inv s) (ht : Inv t) : Follows (bstepDrain s) (bstepDrain t) := by
  unfold Machine.bstepDrain
  rcases h.pop hs ht with ⟨hp, hp'⟩ | ⟨v, f, g, hp, hp', hfg⟩ <;> rw [hp, hp']
  · exact .next ((h.toPhase .sample).report ..)
  · simp only [Machine.orFault, h.itemByte, h.parse]
    exact .orFault fun q => (Follows.bstepParsed (h.withFifo hfg) q)

theorem Follows.bstepSample (h : SameButCtrW s t) (r : Bool) : Follows (bstepSample r s) (bstepSample r t) := by
  obtain ⟨hon, hoff⟩ := h.buttonMsgs
  unfold Machine.bstepSample
  simp only [h.sample, hon, hoff]
  exact .next (((((h.withDebounce _).emitIf _ _).emitIf _ _).toPhase .wait).report ..)

theorem Follows.execBstep (h : SameButCtrW s t) (hs : Inv s) (ht : Inv t) (r : Bool) : Follows (execBstep r s) (execBstep r t) := by
  refine .integratedOnly h ?_
  rw [h.seq]
  cases s.seq.sub with
  | idle =>
    cases s.seq.phase with
    | wait => exact .bstepWait h
    | drain => exact .bstepDrain h hs ht
    | sample => exact .bstepSample h r
    | unused3 => exact ensures_fault _
  | send => exact ensures_refused _
  | flush => exact ensures_refused _
  | take => exact ensures_refused _

theorem Follows.execTick (h : SameButCtrW s t) : Follows (execTick s) (execTick t) := by
  unfold Machine.execTick
  rw [h.seq]
  exact .integratedOnly h (.next ((h.withSeq _).report ..))

/-- Every transaction follows on the other state. -/
theorem Follows.exec (h : SameButCtrW s t) (hs : Inv s) (ht : Inv t) (i : Instr) : Follows (exec i s) (exec i t) := by
  cases i with
  | push v => exact .execPush h hs ht v
  | pop => exact .execPop h hs ht
  | size => exact .unitOnly h (by rw [h.rlevel hs ht]; exact .next (h.report ..))
  | empty => exact .unitOnly h (by rw [h.rempty hs ht]; exact .next (h.report ..))
  | capacity => exact .unitOnly h (by rw [capacityOf, capacityOf, h.cfg_n]; exact .next (h.report ..))
  | wlevel => exact .execWlevel h hs ht
  | syncw => exact .execSyncw h
  | syncr => exact .execSyncr h
  | parse b => exact .execParse h b
  | setmask m => exact .execSetmask h m
  | sample r => exact .execSample h r
  | takep => exact .execTakep h
  | taker => exact .execTaker h
  | bstep r => exact .execBstep h hs ht r
  | tick => exact .execTick h

end Follows

/-- Settles O48: what the FIFO shows and the slots it reads and writes are a matter of the ghost counts, and no other unit looks at
CTR_W, so every transaction follows. -/
theorem ctrWUnobservable : Obligations.CtrWUnobservable := fun i _ _ s' hs ht h he => Follows.exec h hs ht i s' he

end Sys2Proof.Machine
end

section
/-! PROOFS. The FIFO's transactions one by one: what each returns, moves and leaves (40_fifo.md R83 to R92, R98). -/

namespace Sys2Proof.Machine

open Sys2Proof

/-- A slot read after a write to any slot (20_memory.md R44). -/
theorem Memory.read_write (m : Memory) (i j : Nat) (v : Nat) :
    Memory.read (Memory.write m i v) j = if j = i then some v else Memory.read m j := by
  split
  · next h => rw [h, Memory.read_write_same]
  · next h => rw [Memory.read_write_other m v (Ne.symm h)]

/-- The write side of the FIFO after a push that meets room (R83). -/
theorem Fifo.store_writeSide (c : Config) (v : Nat) (f : Fifo) :
    ((f.store c v).foldW c).mem = Memory.write f.mem (slotIdx c f.wptr) v ∧
      ((f.store c v).foldW c).wptr = ptrAdd c f.wptr 1 ∧
      ((f.store c v).foldW c).wgray = bin2gray ((f.store c v).foldW c).wptr ∧
      ((f.store c v).foldW c).ghost.pushed = f.ghost.pushed ++ [v] := by
  rw [Fifo.foldW]
  split <;> exact ⟨rfl, rfl, rfl, rfl⟩

/-- The read domain's copy after a push that meets room: as before, or the write pointer itself in the exact configuration (R98). -/
theorem Fifo.store_copy (c : Config) (v : Nat) (f : Fifo) :
    (c.exact = false → ((f.store c v).foldW c).rqWptr = f.rqWptr ∧ ((f.store c v).foldW c).w2r = f.w2r ∧
      ((f.store c v).foldW c).ghost.rqw = f.ghost.rqw) ∧
    (c.exact = true → ((f.store c v).foldW c).rqWptr = ((f.store c v).foldW c).wptr ∧
      ((f.store c v).foldW c).ghost.rqw = ((f.store c v).foldW c).ghost.w) := by
  rw [Fifo.foldW]
  cases c.exact <;> simp [Fifo.crossW, Fifo.store, Ghost.w]

/-- The read cursor after a pop that takes an element (R85). -/
theorem Fifo.take_readSide (c : Config) (v : Nat) (f : Fifo) :
    ((f.take c v).foldR c).rptr = ptrAdd c f.rptr 1 ∧
      ((f.take c v).foldR c).rgray = bin2gray ((f.take c v).foldR c).rptr := by
  rw [Fifo.foldR]
  split <;> exact ⟨rfl, rfl⟩

/-- R83: a push that meets room stores. -/
theorem pushItem_room {v : Nat} {s : State} (h : wfull s.cfg s.fifo = false) :
    pushItem v s = .next ((s.withFifo ((s.fifo.store s.cfg v).foldW s.cfg)).report (.bool true)) := by
  simp [pushItem, h, Fifo.pushIf]

/-- R91, R98: SYNCW is a crossing, but in the exact configuration. -/
theorem exec_syncw {s : State} :
    (s.cfg.exact = false → exec .syncw s = .next ((s.withFifo (s.fifo.crossW s.cfg)).report .unit)) ∧
      (s.cfg.exact = true → exec .syncw s = .next (s.report .unit)) := by
  rw [exec, execSyncw]
  exact ⟨fun hx => by rw [hx]; rfl, fun hx => by rw [hx]; rfl⟩

/-- R92, R98: SYNCR is a crossing, but in the exact configuration. -/
theorem exec_syncr {s : State} :
    (s.cfg.exact = false → exec .syncr s = .next ((s.withFifo (s.fifo.crossR s.cfg)).report .unit)) ∧
      (s.cfg.exact = true → exec .syncr s = .next (s.report .unit)) := by
  rw [exec, execSyncr]
  exact ⟨fun hx => by rw [hx]; rfl, fun hx => by rw [hx]; rfl⟩

/-- Settles O14: the push stores, and a fold of SYNCW moves the read domain's copy alone. -/
theorem pushStoresItem : Obligations.PushStoresItem := by
  intro v s h8 hlevel
  obtain ⟨hmem, hwptr, hwgray, hpushed⟩ := Fifo.store_writeSide s.cfg v.toNat s.fifo
  obtain ⟨hcopy, hexact⟩ := Fifo.store_copy s.cfg v.toNat s.fifo
  obtain ⟨hrptr, hwqRptr, hrgray, hr2w, hpopped, hwqr⟩ := Fifo.pushIf_readSide s.cfg false v.toNat s.fifo
  have hroom : wfull s.cfg s.fifo = false := beq_eq_false_iff_ne.2 hlevel
  refine ⟨_, (execPush_eq v h8).trans (pushItem_room hroom), rfl, hwptr, fun a => ?_, hwgray, hpushed, hcopy, hexact,
    hrptr, hwqRptr, hrgray, hr2w, hpopped, hwqr, rfl⟩
  calc Memory.read ((s.fifo.store s.cfg v.toNat).foldW s.cfg).mem a
      = Memory.read (Memory.write s.fifo.mem (slotIdx s.cfg s.fifo.wptr) v.toNat) a := by rw [hmem]
    _ = _ := Memory.read_write ..

/-- Settles O16: the pop advances the read cursor, and a fold of SYNCR moves the write domain's copy alone. -/
theorem popTakesOldest : Obligations.PopTakesOldest := by
  intro v s hu hne hread
  obtain ⟨hmem, hwptr, hrqWptr, hwgray, hw2r, hpushed, hrqw⟩ := Fifo.take_writeSide s.cfg v s.fifo
  obtain ⟨hcopy, hexact, hpopped⟩ := Fifo.take_copy s.cfg v s.fifo
  obtain ⟨hrptr, hrgray⟩ := Fifo.take_readSide s.cfg v s.fifo
  refine ⟨_, exec_pop_ok hu (Fifo.pop_written hne hread), rfl, hrptr, hrgray, hpopped, fun hx => ?_, hexact, hmem, hwptr,
    hrqWptr, hwgray, hw2r, hpushed, hrqw, rfl⟩
  obtain ⟨hr2w, hwqRptr, hwqr⟩ := hcopy hx
  exact ⟨hwqRptr, hr2w, hwqr⟩

theorem rempty_of_eq {f : Fifo} (h : f.rptr = f.rqWptr) : rempty f = true := beq_iff_eq.2 h

/-- Settles O17: the pop of an empty buffer is none, and `pop_valid` is its negation. -/
theorem popEmptyUnchanged : Obligations.PopEmptyUnchanged := by
  intro s u hu he
  have hempty := rempty_of_eq he
  have hpop : s.fifo.pop s.cfg = .ok (s.fifo, none) := by rw [Fifo.pop, if_pos hempty]
  exact ⟨exec_pop_ok hu hpop, by simp [unitOut, hempty]⟩

/-- Settles O19: each query reports its own domain's view. -/
theorem queriesReadOnly : Obligations.QueriesReadOnly := by
  intro s
  refine ⟨fun hu => ⟨unitOnly_of_unit hu _, unitOnly_of_unit hu _, unitOnly_of_unit hu _⟩, ?_⟩
  rintro wl rfl
  rfl

/-- Settles O20: the crossing of a pointer moves its copy and its own chain. -/
theorem syncCopiesPointer : Obligations.SyncCopiesPointer := fun _ =>
  ⟨fun hx => ⟨⟨_, exec_syncw.1 hx, rfl, rfl, rfl, rfl, rfl⟩, ⟨_, exec_syncr.1 hx, rfl, rfl, rfl, rfl, rfl⟩⟩,
    fun hx => ⟨exec_syncw.2 hx, exec_syncr.2 hx⟩⟩

end Sys2Proof.Machine
end

section
/-! PROOFS. Crossings between the domains: SYNCW, SYNCR and their range form (40_fifo.md R91, R92, R94). -/

namespace Sys2Proof.Machine

open Sys2Proof

/-- In the exact configuration the counts of the copies are the pointers' (R25, R98). -/
theorem FifoInv.exact_counts {c : Config} {f : Fifo} (h : FifoInv c f) (hx : c.exact = true) :
    f.ghost.rqw = f.ghost.w ∧ f.ghost.wqr = f.ghost.r :=
  ⟨(h.wchain.no_stages (exact_stages hx)).symm, (h.rchain.no_stages (exact_stages hx)).symm⟩

/-- In the exact configuration the copies are the pointers (R25, R98). -/
theorem FifoInv.exact_copies {c : Config} {f : Fifo} (h : FifoInv c f) (hx : c.exact = true) :
    f.rqWptr = f.wptr ∧ f.wqRptr = f.rptr := by
  obtain ⟨hw, hr⟩ := h.exact_counts hx
  exact ⟨by rw [h.rqWptr, hw, h.wptr], by rw [h.wqRptr, hr, h.rptr]⟩

/-- In either configuration a SYNCW leaves what a crossing to W# leaves, but for the chain (R94, R98). -/
theorem FifoInv.syncw_visible {c : Config} {f : Fifo} (h : FifoInv c f) :
    (if c.exact then f else f.crossW c).visible = (f.crossWTo c f.ghost.w).visible := by
  split
  · next hx =>
    obtain ⟨hw, -⟩ := h.exact_counts hx
    simp only [Fifo.visible, Fifo.crossWTo, ← hw, h.rqWptr]
  · rw [Fifo.crossW_eq h.wptr]

/-- In either configuration a SYNCR leaves what a crossing to R# leaves, but for the chain (R94, R98). -/
theorem FifoInv.syncr_visible {c : Config} {f : Fifo} (h : FifoInv c f) :
    (if c.exact then f else f.crossR c).visible = (f.crossRTo c f.ghost.r).visible := by
  split
  · next hx =>
    obtain ⟨-, hr⟩ := h.exact_counts hx
    simp only [Fifo.visible, Fifo.crossRTo, ← hr, h.wqRptr]
  · rw [Fifo.crossR_eq h.rptr]

/-- R94: in a running read domain a crossing completes exactly to the counts of its range, and is then `crossWTo`. -/
theorem crossW_next_iff {s t : State} {v : Nat} (hh : s.rHeld = false) :
    runHostStep (.crossW v) s = .next t ↔
      (s.fifo.ghost.rqw ≤ v ∧ v ≤ s.fifo.ghost.w) ∧ t = (s.withFifo (s.fifo.crossWTo s.cfg v)).report .unit := by
  by_cases hv : s.fifo.ghost.rqw ≤ v ∧ v ≤ s.fifo.ghost.w
  · rw [crossW_running hh hv.1 hv.2, Host.Outcome.next.injEq, eq_comm, and_iff_right hv]
  · rw [crossW_outOfRange (by omega)]
    exact ⟨nofun, fun h => absurd h.1 hv⟩

/-- R94: in a running write domain a crossing completes exactly to the counts of its range, and is then `crossRTo`. -/
theorem crossR_next_iff {s t : State} {v : Nat} (hh : s.wHeld = false) :
    runHostStep (.crossR v) s = .next t ↔
      (s.fifo.ghost.wqr ≤ v ∧ v ≤ s.fifo.ghost.r) ∧ t = (s.withFifo (s.fifo.crossRTo s.cfg v)).report .unit := by
  by_cases hv : s.fifo.ghost.wqr ≤ v ∧ v ≤ s.fifo.ghost.r
  · rw [crossR_running hh hv.1 hv.2, Host.Outcome.next.injEq, eq_comm, and_iff_right hv]
  · rw [crossR_outOfRange (by omega)]
    exact ⟨nofun, fun h => absurd h.1 hv⟩

/-- Settles O52: a range crossing is `crossWTo` or `crossRTo`, which at the pointer's own count is what SYNCW or SYNCR does. -/
theorem rangeCrossingAdmitsSync : Obligations.RangeCrossingAdmitsSync := by
  intro s v h hr hw
  refine ⟨⟨_, _, rfl, crossW_running hr h.fifo.rqw_le_w (le_refl _), rfl, h.fifo.syncw_visible⟩,
    ⟨_, _, rfl, crossR_running hw h.fifo.wqr_le_r (le_refl _), rfl, h.fifo.syncr_visible⟩, ?_, ?_, fun t ht => ?_, fun t ht => ?_⟩
  · simp only [crossW_next_iff hr, exists_and_left, exists_eq, and_true]
  · simp only [crossR_next_iff hw, exists_and_left, exists_eq, and_true]
  · obtain ⟨-, rfl⟩ := (crossW_next_iff hr).1 ht
    exact ⟨rfl, rfl, rfl, rfl, rfl⟩
  · obtain ⟨-, rfl⟩ := (crossR_next_iff hw).1 ht
    exact ⟨rfl, rfl, rfl, rfl, rfl⟩

/-- In either configuration RQW# is W# after a SYNCW, and no other count moves (R91, R98). -/
theorem FifoInv.syncw_counts {c : Config} {f : Fifo} (h : FifoInv c f) :
    (if c.exact then f else f.crossW c).ghost = { f.ghost with rqw := f.ghost.w } :=
  congrArg Fifo.ghost h.syncw_visible

/-- Settles O51: after a SYNCW, RQW# is W#, and in the good state it leaves the level the read domain sees is RQW# - R#. -/
theorem syncwMakesAllVisible : Obligations.SyncwMakesAllVisible := by
  intro s h hu
  have hlevel := (h.fifo.unlessExact h.fifo.crossW).rlevel_eq h.legal
  rw [h.fifo.syncw_counts] at hlevel
  exact ⟨_, _, rfl, unitOnly_of_unit hu _, congrArg Result.count hlevel⟩

end Sys2Proof.Machine
end

section
/-! PROOFS. The exact configuration: full and empty are exact, the crossings are no-ops, and an edge of the one clock is its
transactions and its push (40_fifo.md R98). -/

namespace Sys2Proof.Machine

open Sys2Proof

/-- R98: a PUSH meets room exactly when fewer than N - 1 elements are buffered. -/
theorem FifoInv.exact_not_wfull {c : Config} {f : Fifo} (hl : c.legal = true) (h : FifoInv c f) (hx : c.exact = true) :
    (!wfull c f) = decide (f.ghost.w - f.ghost.r < c.n - 1) := by
  obtain ⟨-, hr⟩ := h.exact_counts hx
  have hroom := h.room
  have hle := (h.buffered_lt hl).1
  rw [Bool.eq_iff_iff, Bool.not_eq_true', ← Bool.not_eq_true, h.wfull_iff hl, decide_eq_true_iff]
  omega

/-- R98: a POP of a good buffer returns None exactly when no element is buffered. -/
theorem Inv.exact_pop {s : State} (h : Inv s) (hx : s.cfg.exact = true) (hu : s.cfg.top = .unit) :
    ∃ t, Machine.exec .pop s = .next t ∧ (t.obs.result = .item none ↔ s.fifo.ghost.w = s.fifo.ghost.r) := by
  obtain ⟨hw, -⟩ := h.fifo.exact_counts hx
  rcases h.fifo.pop h.legal with ⟨hr, hp⟩ | ⟨hr, v, -, hp, -⟩
  · exact ⟨_, exec_pop_ok hu hp, by simp [← hw, hr]⟩
  · exact ⟨_, exec_pop_ok hu hp, by simp [← hw, hr.ne']⟩

/-! The edge of the one clock. -/

/-- With no stages there is no chain to shift (R25). -/
theorem Fifo.shift_no_stages {c : Config} (h0 : c.syncStages = 0) (g : Nat) (f : Fifo) :
    f.shiftW c g = f ∧ f.shiftR c g = f := ⟨if_pos h0, if_pos h0⟩

/-- In the exact configuration an edge of both clocks that completes is what its units do, and then the push, judged full by the state
before the edge (R84, R98). -/
theorem clk_next_exact {w : WriteIn} {i : ReadIn} {s t : State} (hx : s.cfg.exact = true) (hw : s.wHeld = false)
    (hr : s.rHeld = false) (h : runHostStep (.clk w i) s = .next t) :
    ∃ a, unitsEdge i s = .ok a ∧
      t = ((a.withSinceTick (s.sinceTickAfter i)).report .unit).withFifo (pushEdge (wfull s.cfg s.fifo) w a) := by
  obtain ⟨m, hm, ht⟩ := clk_next h
  obtain ⟨-, b, hb, rfl⟩ := readEdge_running (by exact hr) hm
  rw [unitsEdge_counted] at hb
  cases ha : unitsEdge i s with
  | error e => rw [ha] at hb; exact nomatch hb
  | ok a =>
    rw [ha] at hb
    cases hb
    have hframe := (unitsEdge_ok ha).2
    have h0 : a.cfg.syncStages = 0 := by rw [hframe]; exact exact_stages hx
    have hheld : a.wHeld = false := by rw [hframe]; exact hw
    rw [writeEdge_running (by exact hheld)] at ht
    cases ht
    refine ⟨a, rfl, ?_⟩
    simp only [State.withFifo_cfg, State.report_cfg, State.withSinceTick_cfg, Fifo.shift_no_stages h0]
    rfl

/-- The units of an edge take no room: a push that met room before them meets it after them (R84, R86). -/
theorem Inv.unitsEdge_room {i : ReadIn} {s a : State} (h : Inv s) (hf : i.fits s.cfg.top = true)
    (ha : Machine.unitsEdge i s = .ok a) (hroom : wfull s.cfg s.fifo = false) : wfull a.cfg a.fifo = false := by
  have hinv := h.unitsEdge hf ha
  obtain ⟨⟨u, hu⟩, hframe⟩ := unitsEdge_ok ha
  have hcfg : a.cfg = s.cfg := by rw [hframe]
  obtain ⟨f, hf', -, hpushed, -, hwqr, -⟩ := popEdge_spec h.legal h.fifo u
  cases hu.symm.trans hf'
  have hlt := h.fifo.room_of_not_full h.legal hroom
  have hw : a.fifo.ghost.w = s.fifo.ghost.w := congrArg List.length hpushed
  rw [← Bool.not_eq_true, hinv.fifo.wfull_iff hinv.legal, hw, hcfg]
  omega

/-- The push of an edge, after its units have made `a` of `s`, is `push(item)` on `a` where push_ok is 1, and nothing otherwise: push_ok
is that of the state before the edge (R80, R84). -/
theorem pushEdge_after_units {w : WriteIn} {s a : State} (hw : s.wHeld = false) (hcfg : a.cfg = s.cfg)
    (hroom : wfull s.cfg s.fifo = false → wfull a.cfg a.fifo = false) :
    ∃ b, (if (writeOut w s).pushOk = true then pushItem (w.item s.cfg) a = .next b ∧ b.obs.result = .bool true else b = a) ∧
      b = { a with fifo := pushEdge (wfull s.cfg s.fifo) w a, obs := b.obs } := by
  have hok : (writeOut w s).pushOk = (w.pushReq && !wfull s.cfg s.fifo) := by
    simp only [writeOut, hw, Bool.not_false, Bool.true_and]
  rw [hok, pushEdge, ← hcfg]
  cases hreq : w.pushReq with
  | false => exact ⟨a, rfl, rfl⟩
  | true =>
    cases hfull : wfull a.cfg s.fifo with
    | true => exact ⟨a, rfl, rfl⟩
    | false => exact ⟨_, ⟨pushItem_room (hroom (by rw [← hcfg]; exact hfull)), rfl⟩, rfl⟩

/-- Settles O49: in the exact configuration the copies' counts are the pointers'; an edge of the one clock shifts no chain, so it is what
its units do and then the push, which meets the room it met before the edge. -/
theorem exactConfigurationIsExact : Obligations.ExactConfigurationIsExact := by
  intro v w i s h hx
  refine ⟨fun h8 => ⟨_, execPush_eq v h8, congrArg Result.bool (h.fifo.exact_not_wfull h.legal hx)⟩, h.exact_pop hx,
    exec_syncw.2 hx, exec_syncr.2 hx, fun hw hr hf ho => ?_⟩
  have hoffered : (HostStep.clk w i).offered s = true := by simp [HostStep.offered, ReadIn.offered, hf, ho]
  obtain ⟨t, ht⟩ := (h.edge_completes_iff (.inr (.inr ⟨w, i, rfl⟩))).2 hoffered
  have hinv := h.runHostStep _ t ht
  have hcfg := (runHostStep_hasProgram _ s t ht).cfg
  obtain ⟨a, ha, rfl⟩ := clk_next_exact hx hw hr ht
  obtain ⟨o, hdoes⟩ := h.unitsEdge_does hr hf ha
  obtain ⟨b, hpush, hb⟩ := pushEdge_after_units (w := w) (a := { a with obs := o }) hw hcfg (h.unitsEdge_room (a := a) hf ha)
  refine ⟨_, _, b, ht, hdoes, hpush, ?_, hinv.fifo.exact_copies (by rw [hcfg]; exact hx)⟩
  rw [hb]
  rfl

end Sys2Proof.Machine
end

section
/-! PROOFS. The parser's transactions: what PARSE makes of a status byte and of a data byte, what a run of bytes gives, and what
SETMASK changes (41_parser.md R99 to R109). -/

namespace Sys2Proof.Machine

open Sys2Proof

theorem isStatus_eq_true {b : Byte} (h : 128 ≤ b.toNat) : isStatus b = true := by
  rw [isStatus_iff, decide_eq_true h]

theorem isStatus_eq_false {b : Byte} (h : b.toNat < 128) : isStatus b = false := by
  rw [isStatus_iff, decide_eq_false (Nat.not_le.2 h)]

/-- R100: a status byte is accepted with length l. -/
theorem acceptedLen_eq_some_iff {c : Config} {m b : Byte} {l : BitVec 2} :
    acceptedLen c m b = some l ↔ m.getLsbD (b.toNat / 16 % 8) = true ∧ msgLen c b = some l := by
  rw [acceptedLen, accepts, category_toNat, Option.ite_none_right_eq_some]

/-- R101: a status byte is filtered. -/
theorem acceptedLen_eq_none_iff {c : Config} {m b : Byte} :
    acceptedLen c m b = none ↔ m.getLsbD (b.toNat / 16 % 8) = false ∨ msgLen c b = none := by
  rw [acceptedLen, accepts, category_toNat, ite_eq_right_iff, ← Bool.not_eq_true, imp_iff_not_or]

theorem acceptedLen_ne_none_iff {c : Config} {m b : Byte} :
    acceptedLen c m b ≠ none ↔ m.getLsbD (b.toNat / 16 % 8) = true ∧ msgLen c b ≠ none := by
  rw [ne_eq, acceptedLen_eq_none_iff, not_or, Bool.not_eq_false]

/-- With a cleared mask every status byte is filtered (R106). -/
theorem acceptedLen_mask_zero (c : Config) (b : Byte) : acceptedLen c 0 b = none :=
  acceptedLen_eq_none_iff.2 (.inl BitVec.getLsbD_zero)

/-! A status byte. -/

/-- No status byte completes a message (R100, R101). -/
@[simp] theorem Parser.status_message (c : Config) (b : Byte) (p : Parser) : (p.status c b).message = none := by
  unfold Parser.status
  split <;> rfl

/-- R105: what a status byte leaves does not depend on the message in flight. -/
theorem Parser.status_of_idle (c : Config) (b : Byte) (p : Parser) :
    (Parser.status c b { p with rem := 0 }).parser = (p.status c b).parser := by
  unfold Parser.status
  cases acceptedLen c p.mask b <;> rfl

/-- A status byte starts a message exactly if it is accepted (R100, R101). -/
theorem Parser.status_rem_ne_zero_iff (c : Config) (b : Byte) (p : Parser) :
    (p.status c b).parser.rem ≠ 0 ↔ acceptedLen c p.mask b ≠ none := by
  cases ha : acceptedLen c p.mask b with
  | none => simp [Parser.status_filter ha]
  | some l => rcases acceptedLen_cases ha with rfl | rfl <;> simp [Parser.status_accept ha]

theorem exec_parse_status {b : Byte} {s : State} (hu : s.cfg.top = .unit) (hb : 128 ≤ b.toNat) :
    exec (.parse b) s = .next ((s.withParser (s.parser.status s.cfg b).parser).report (.message none)
      (some (s.parser.status s.cfg b).outcome) (outcomeCause (s.parser.status s.cfg b).outcome)) := by
  rw [exec_parse_ok hu (Parser.parse_status (isStatus_eq_true hb)), Parser.status_message]

/-- Settles O22: the accepted byte's length is the table's, and only the label depends on a message in flight. -/
theorem parseAcceptsStatus : Obligations.ParseAcceptsStatus := by
  intro b l s hu hb hmask hlen
  rw [exec_parse_status hu hb, Parser.status_accept (acceptedLen_eq_some_iff.2 ⟨hmask, hlen⟩)]
  split <;> rfl

/-- Settles O23: either reason gives the byte no accepted length. -/
theorem parseFiltersStatus : Obligations.ParseFiltersStatus := by
  intro b s hu hb hfilter
  rw [exec_parse_status hu hb, Parser.status_filter (acceptedLen_eq_none_iff.2 hfilter)]
  split <;> rfl

/-- Settles O27: what a status byte leaves and returns does not depend on `rem`. -/
theorem statusByteRestartsParser : Obligations.StatusByteRestartsParser := by
  intro b s hu hb
  exact ⟨_, _, exec_parse_status hu hb, exec_parse_status (by exact hu) hb, (Parser.status_of_idle s.cfg b s.parser).symm, rfl, rfl⟩

/-! A data byte. -/

/-- The buffer with `b` at index `i` (R102). -/
def Parser.withBuf (i : BitVec 2) (b : Byte) (p : Parser) : Parser :=
  { p with
    buf0 := if i = 0 then b else p.buf0
    buf1 := if i = 1 then b else p.buf1
    buf2 := if i = 2 then b else p.buf2 }

/-- The parser with `b` stored at `buf[len - rem]` and counted (R102). -/
def Parser.collected (b : Byte) (p : Parser) : Parser := { p.withBuf (p.len - p.rem) b with rem := p.rem - 1 }

theorem Parser.store_eq {i : BitVec 2} (hi : i ≠ 3) (b : Byte) (p : Parser) : p.store i b = .ok (p.withBuf i b) := by
  have hcases : i = 0 ∨ i = 1 ∨ i = 2 := by
    revert i
    decide
  rcases hcases with rfl | rfl | rfl <;> rfl

/-- R102, R103: a data byte at an index that names a register. -/
theorem Parser.collect_eq {p : Parser} (hi : p.len - p.rem ≠ 3) (b : Byte) :
    p.collect b = .ok (if p.rem = 1 then ⟨p.collected b, some (p.collected b).completed, .message⟩
      else ⟨p.collected b, none, .partialData⟩) := by
  simp only [Parser.collect, Parser.store_eq hi, sub_eq_zero]
  split <;> rfl

theorem exec_parse_collect {b : Byte} {s : State} {r : Parsed} (hu : s.cfg.top = .unit) (hb : b.toNat < 128)
    (hr : s.parser.rem ≠ 0) (h : s.parser.collect b = .ok r) :
    exec (.parse b) s = .next ((s.withParser r.parser).report (.message r.message) (some r.outcome) (outcomeCause r.outcome)) :=
  exec_parse_ok hu ((Parser.parse_collect (isStatus_eq_false hb) hr).trans h)

/-- Settles O24: the byte is collected, and the last one completes the message. -/
theorem parseCollectsAndCompletes : Obligations.ParseCollectsAndCompletes := by
  rintro b s q hu hb hr hi rfl
  rw [exec_parse_collect hu hb hr (Parser.collect_eq hi b)]
  split <;> rfl

/-- Settles O25: the idle parser keeps its state. -/
theorem parseDiscardsIdleData : Obligations.ParseDiscardsIdleData := by
  intro b s hu hb hr
  exact exec_parse_ok hu (Parser.parse_idle (isStatus_eq_false hb) hr)

/-! Runs of bytes. -/

theorem execAll_cons {i : Instr} {is : List Instr} {s t : State} (h : exec i s = .next t) :
    execAll (i :: is) s = execAll is t := by
  rw [execAll, h]

theorem execAll_pair {i j : Instr} {s t u : State} (hi : exec i s = .next t) (hj : exec j t = .next u) :
    execAll [i, j] s = .next u := by
  rw [execAll_cons hi, execAll_cons hj, execAll]

/-- Settles O26: the status byte writes `buf[0]` and the length, and each data byte the next of the registers the message is read
from, whatever they held before. -/
theorem messageBytesAreTheParsedBytes : Obligations.MessageBytesAreTheParsedBytes := by
  intro b d1 d2 s hu hb hd1 hd2 hmask
  have hone : (1 : BitVec 2) ≠ 0 := by decide
  have htwo : (2 : BitVec 2) ≠ 0 := by decide
  refine ⟨fun hlen => ?_, fun hlen => ?_⟩
  · have hstatus := parseAcceptsStatus b 2 s hu hb hmask hlen
    exact ⟨_, execAll_pair hstatus (exec_parse_collect hu hd1 hone (Parser.collect_only rfl rfl)), rfl, rfl⟩
  · have hstatus := parseAcceptsStatus b 3 s hu hb hmask hlen
    exact ⟨_, _, execAll_pair hstatus (exec_parse_collect hu hd1 htwo (Parser.collect_first rfl rfl)), rfl,
      exec_parse_collect hu hd2 hone (Parser.collect_second rfl rfl), rfl, rfl⟩

theorem Parser.idle_eq {p : Parser} (h : p.rem = 0) : { p with rem := 0 } = p := by
  rw [← h]

/-- R106: an idle parser with a cleared mask discards any byte. -/
theorem exec_parse_cleared {s : State} (hu : s.cfg.top = .unit) (hm : s.parser.mask = 0) (hr : s.parser.rem = 0) (b : Byte) :
    ∃ o, exec (.parse b) s = .next { s with obs := o } ∧ o.result = .message none := by
  by_cases hb : 128 ≤ b.toNat
  · have hfilter : acceptedLen s.cfg s.parser.mask b = none := by rw [hm, acceptedLen_mask_zero]
    rw [exec_parse_status hu hb, Parser.status_filter hfilter, Parser.idle_eq hr]
    exact ⟨_, rfl, rfl⟩
  · exact ⟨_, parseDiscardsIdleData b s hu (Nat.not_le.1 hb) hr, rfl⟩

/-- Settles O30, by induction on the bytes: each leaves all but the observation as it was. -/
theorem clearedMaskDiscardsAll : Obligations.ClearedMaskDiscardsAll := by
  intro bs b s hu hm hr
  induction bs generalizing s with
  | nil =>
    obtain ⟨o, ho, hnone⟩ := exec_parse_cleared hu hm hr b
    exact ⟨_, execAll_cons ho, hnone, rfl⟩
  | cons a bs ih =>
    obtain ⟨o, ho, -⟩ := exec_parse_cleared hu hm hr a
    obtain ⟨t, ht, hnone, hframe⟩ := ih { s with obs := o } hu hm hr
    exact ⟨t, (execAll_cons ho).trans ht, hnone, hframe⟩

/-! SETMASK. -/

/-- The operation stands in the high nibble and the operand in the low byte (R61). -/
theorem mkWord_eq_or (op : BitVec 4) (imm : Byte) : mkWord op imm = op.setWidth 16 <<< 12 ||| imm.setWidth 16 := by
  apply BitVec.eq_of_toNat_eq
  have hop : op.toNat <<< 12 < 2 ^ 16 := Nat.shiftLeft_lt op.isLt
  rw [mkWord, BitVec.toNat_append, BitVec.toNat_append, BitVec.toNat_or, BitVec.toNat_shiftLeft,
    BitVec.toNat_setWidth_of_le (by decide), BitVec.toNat_setWidth_of_le (by decide), Nat.mod_eq_of_lt hop,
    show (0 : BitVec 4).toNat = 0 from rfl, Nat.or_zero, ← Nat.shiftLeft_add]

/-- Settles O28: the state is that of `execSetmask`, and the word's operand its low byte. -/
theorem setmaskLoadsMask : Obligations.SetmaskLoadsMask := fun m _ => ⟨rfl, mkWord_eq_or 0xA m⟩

/-- R109: what a data byte does is the same under every mask. -/
theorem Parser.parse_data_setMask {c : Config} {b : Byte} (hb : b.toNat < 128) (m : Byte) (p : Parser) :
    Parser.parse c b { p with mask := m } =
      (p.parse c b).map fun r => { r with parser := { r.parser with mask := m } } := by
  have hdata := isStatus_eq_false hb
  by_cases hr : p.rem = 0
  · rw [Parser.parse_idle hdata hr, Parser.parse_idle hdata (by exact hr)]
    rfl
  by_cases hi : p.len - p.rem = 3
  · rw [Parser.parse_noBufferRegister hb hr hi, Parser.parse_noBufferRegister hb (by exact hr) (by exact hi)]
    rfl
  · rw [Parser.parse_collect hdata hr, Parser.parse_collect hdata (by exact hr), Parser.collect_eq hi,
      Parser.collect_eq (by exact hi)]
    dsimp only
    split <;> rfl

/-- R132: PARSE has no port in the integrated top. -/
theorem exec_parse_refused {b : Byte} {s : State} (hi : s.cfg.top = .integrated) :
    exec (.parse b) s = .refused .notInConfig := by
  simp only [exec, execParse, unitOnly, hi]

/-- Settles O29: a data byte commutes with the mask's change, and a status byte starts a message exactly if the new mask accepts it. -/
theorem maskChangeMidMessage : Obligations.MaskChangeMidMessage := by
  intro b m s
  refine ⟨⟨_, rfl, rfl⟩, fun hb => ?_, fun hb hu => ⟨_, exec_parse_status (by exact hu) hb, ?_⟩⟩
  · have hparse := Parser.parse_data_setMask (c := s.cfg) hb m s.parser
    cases htop : s.cfg.top with
    | integrated => rw [exec_parse_refused htop, exec_parse_refused (by exact htop)]
    | unit =>
      cases hp : s.parser.parse s.cfg b with
      | error e => rw [exec_parse_error htop hp, exec_parse_error (by exact htop) (hparse.trans (by rw [hp]; rfl))]
      | ok r => rw [exec_parse_ok htop hp, exec_parse_ok (by exact htop) (hparse.trans (by rw [hp]; rfl))]; rfl
  · exact (Parser.status_rem_ne_zero_iff ..).trans acceptedLen_ne_none_iff

end Sys2Proof.Machine
end

section
/-! PROOFS. The debounce filter's transactions, its part of an edge, and its patterns in terms of the samples (42_debounce.md
R112 to R120). -/

namespace Sys2Proof.Machine

open Sys2Proof

/-! The transactions. -/

/-- R112 in arithmetic: the K-bit register doubled, plus the sample, under the forced bits. -/
theorem shiftSample_eq (c : Config) (r : Bool) (d : Nat) :
    shiftSample c r d = (2 * d + r.toNat) % 2 ^ c.k ||| c.dcValue := by
  rw [shiftSample, Config.keep, Nat.and_two_pow_sub_one_eq_mod, ← Nat.shiftLeft_add_eq_or_of_lt r.toNat_lt, Nat.shiftLeft_eq,
    Nat.pow_one, Nat.mul_comm]

/-- R113: a match is equality of the whole register. -/
theorem pressMatch_eq (c : Config) (d : Nat) : pressMatch c d = decide (d = c.pressPattern) := beq_eq_decide ..

theorem releaseMatch_eq (c : Config) (d : Nat) : releaseMatch c d = decide (d = c.releasePattern) := beq_eq_decide ..

theorem exec_sample {s : State} (hu : s.cfg.top = .unit) (r : Bool) :
    exec (.sample r) s = .next ((s.withDebounce (s.debounce.sample s.cfg r)).report .unit) := unitOnly_of_unit hu _

/-- Settles O31: the state is that of `execSample`, with the register in arithmetic. -/
theorem sampleShiftsAndMatches : Obligations.SampleShiftsAndMatches := by
  rintro r s d hu rfl
  rw [exec_sample hu, Debounce.sample, pressMatch_eq, releaseMatch_eq, shiftSample_eq]
  rfl

/-- Settles O32: the words by the encoder, the states by `execTakep` and `execTaker`. -/
theorem takeReturnsAndClears : Obligations.TakeReturnsAndClears :=
  ⟨by decide, by decide, fun _ hu => ⟨unitOnly_of_unit hu _, unitOnly_of_unit hu _⟩⟩

/-! The edge. -/

/-- R114, R115: the flags after the takes that are requested. -/
theorem Debounce.takes_eq (p r : Bool) (d : Debounce) :
    (if r then (if p then d.takePressed else d).takeReleased else if p then d.takePressed else d) =
      { d with pressed := d.pressed && !p, released := d.released && !r } := by
  cases p <;> cases r <;> simp [takePressed, takeReleased]

/-- R116: the takes come before the sample, so a match wins. -/
theorem debounceEdge_sample {u : UnitIn} (hs : u.dbSample = true) (s : State) :
    debounceEdge u s =
      { dreg := shiftSample s.cfg u.rawActive s.debounce.dreg
        pressed := pressMatch s.cfg (shiftSample s.cfg u.rawActive s.debounce.dreg) || (s.debounce.pressed && !u.takeP)
        released := releaseMatch s.cfg (shiftSample s.cfg u.rawActive s.debounce.dreg) || (s.debounce.released && !u.takeR) } := by
  simp only [debounceEdge, Debounce.takes_eq, if_pos hs, Debounce.sample, Bool.or_comm]

/-- Settles O57: the outputs show the flags before the edge, and the takes come before the sample. -/
theorem takeAndMatchSameCycle : Obligations.TakeAndMatchSameCycle := by
  rintro u s t d h hs rfl
  obtain ⟨f, p, -, -, rfl⟩ := unitEdge_ok h
  rw [State.withDebounce_debounce, debounceEdge_sample hs, pressMatch_eq, releaseMatch_eq]
  exact ⟨rfl, rfl, rfl, rfl, rfl⟩

/-! The forced bits. -/

/-- R120 (f): a register after a sample has DC_VALUE's bits from K up, so it is no pattern that has not. -/
theorem shiftSample_ne {c : Config} {q : Nat} (hq : q / 2 ^ c.k ≠ c.dcValue / 2 ^ c.k) (r : Bool) (d : Nat) :
    shiftSample c r d ≠ q := by
  rintro rfl
  exact hq (by simpa only [Nat.shiftRight_eq_div_pow] using shiftSample_forced c r d)

/-- Settles O34: such a pattern is not matched, and a sample without a match leaves the flag. -/
theorem unreachablePatternNeverMatches : Obligations.UnreachablePatternNeverMatches := by
  refine fun r s hu => ⟨_, exec_sample hu r, fun hq => ?_, fun hq => ?_⟩
  · simp [Debounce.sample, pressMatch_eq, shiftSample_ne hq]
  · simp [Debounce.sample, releaseMatch_eq, shiftSample_ne hq]

/-! The register as a window on the samples. -/

/-- The number whose bits are the samples, the newest in bit 0. -/
def samplesValue (newestFirst : List Bool) : Nat := Nat.ofDigits 2 (newestFirst.map Bool.toNat)

/-- The newest `k` samples; those before reset count as released (R39, R119). -/
def lastSamples (k : Nat) (newestFirst : List Bool) : List Bool := (newestFirst ++ List.replicate k false).take k

/-- The debounce register after these samples since reset: the newest K of them under DC_VALUE (R30, R112). -/
def windowReg (c : Config) (newestFirst : List Bool) : Nat := samplesValue newestFirst % 2 ^ c.k ||| c.dcValue

theorem samplesValue_cons (r : Bool) (h : List Bool) : samplesValue (r :: h) = 2 * samplesValue h + r.toNat := by
  rw [samplesValue, List.map_cons, Nat.ofDigits_cons, Nat.add_comm, samplesValue]

theorem length_lastSamples (k : Nat) (h : List Bool) : (lastSamples k h).length = k := by
  simp [lastSamples]

/-- The samples are binary digits. -/
theorem samples_lt_two (h : List Bool) : ∀ x ∈ h.map Bool.toNat, x < 2 := List.forall_mem_map.2 fun b _ => b.toNat_lt

/-- The low `k` bits are the newest `k` samples. -/
theorem samplesValue_mod (k : Nat) (h : List Bool) : samplesValue h % 2 ^ k = samplesValue (lastSamples k h) := by
  have hpad : samplesValue h = samplesValue (h ++ List.replicate k false) := by
    simp [samplesValue, Nat.ofDigits_append_replicate_zero]
  rw [hpad, samplesValue, Nat.ofDigits_mod_pow_eq_ofDigits_take k (by decide) _ (samples_lt_two _), ← List.map_take, lastSamples,
    samplesValue]

theorem samplesValue_inj {a b : List Bool} (hl : a.length = b.length) (h : samplesValue a = samplesValue b) : a = b := by
  have hdigits : a.map Bool.toNat = b.map Bool.toNat :=
    Nat.ofDigits_inj_of_len_eq (by decide) (by simpa using hl) (samples_lt_two a) (samples_lt_two b) h
  have htoNat : Function.Injective Bool.toNat := by decide
  exact List.map_injective_iff.2 htoNat hdigits

section Window

variable {c : Config} (hdc : c.dcValue % 2 ^ c.k = 0)
include hdc

/-- R12: DC_VALUE leaves the low K bits to the samples. -/
theorem windowReg_mod (h : List Bool) : windowReg c h % 2 ^ c.k = samplesValue h % 2 ^ c.k := by
  rw [windowReg, Nat.or_mod_two_pow, hdc, Nat.or_zero, Nat.mod_mod]

/-- R112: one more sample moves the window by one. -/
theorem shiftSample_windowReg (r : Bool) (h : List Bool) : shiftSample c r (windowReg c h) = windowReg c (r :: h) := by
  have hmod : 2 * windowReg c h + r.toNat ≡ 2 * samplesValue h + r.toNat [MOD 2 ^ c.k] :=
    (Nat.ModEq.mul_left 2 (windowReg_mod hdc h)).add_right _
  rw [shiftSample_eq, hmod, ← samplesValue_cons, windowReg]

/-- Two windows are the same exactly if they show the same K samples. -/
theorem windowReg_inj {a b : List Bool} : windowReg c a = windowReg c b ↔ lastSamples c.k a = lastSamples c.k b := by
  constructor
  · intro h
    have hmod : samplesValue a % 2 ^ c.k = samplesValue b % 2 ^ c.k := by
      rw [← windowReg_mod hdc, ← windowReg_mod hdc, h]
    rw [samplesValue_mod, samplesValue_mod] at hmod
    exact samplesValue_inj (by simp only [length_lastSamples]) hmod
  · intro h
    rw [windowReg, windowReg, samplesValue_mod, samplesValue_mod, h]

/-- A run of SAMPLEs leaves the window on its samples, by induction on the run. -/
theorem execAll_samples (hist : List Bool) {past : List Bool} {s : State} (hu : s.cfg.top = .unit) (hc : s.cfg = c)
    (hd : s.debounce.dreg = windowReg c past) :
    ∃ t, execAll (hist.map Instr.sample) s = .next t ∧ t.cfg = c ∧ t.debounce.dreg = windowReg c (hist.reverse ++ past) := by
  induction hist generalizing s past with
  | nil => exact ⟨s, rfl, hc, hd⟩
  | cons r hist ih =>
    have hnext : ((s.withDebounce (s.debounce.sample s.cfg r)).report .unit).debounce.dreg = windowReg c (r :: past) := by
      rw [← shiftSample_windowReg hdc, ← hd, ← hc]
      rfl
    obtain ⟨t, ht, hct, hdt⟩ := ih (by exact hu) (by exact hc) hnext
    exact ⟨t, (execAll_cons (exec_sample hu r)).trans ht, hct, by simpa using hdt⟩

end Window

/-! The default patterns. -/

/-- R119: the window that sets a flag, twelve samples `v` after an opposite one, the newest first. -/
def settledWindow (v : Bool) : List Bool := List.replicate 12 v ++ [!v]

theorem twelveAfterOpposite_iff (v : Bool) (h : List Bool) :
    twelveAfterOpposite v h = true ↔ lastSamples 13 h = settledWindow v := by
  have hlt : 12 < (h ++ List.replicate 13 false).length := by simp
  rw [lastSamples, List.take_succ_eq_append_getElem hlt, settledWindow, List.append_singleton_inj, List.eq_replicate_iff,
    twelveAfterOpposite]
  simp

/-- R76: with a window of 13 samples, the register that shows a settled window tells when the samples are settled. -/
theorem windowReg_eq_settled_iff {c : Config} (hdc : c.dcValue % 2 ^ c.k = 0) (hk : c.k = 13) (v : Bool) (h : List Bool) :
    windowReg c h = windowReg c (settledWindow v) ↔ twelveAfterOpposite v h = true := by
  have hfull : lastSamples 13 (settledWindow v) = settledWindow v := by cases v <;> rfl
  rw [windowReg_inj hdc, hk, hfull, twelveAfterOpposite_iff]

/-- The default parameters with the unit ports (R10, R11). -/
def standardUnit : Config := { Config.standard with top := .unit }

theorem standardUnit_dcValue_mod : standardUnit.dcValue % 2 ^ standardUnit.k = 0 := by decide

theorem pressMatch_windowReg (h : List Bool) : pressMatch standardUnit (windowReg standardUnit h) = twelveAfterOpposite true h := by
  have hpattern : standardUnit.pressPattern = windowReg standardUnit (settledWindow true) := by decide
  rw [pressMatch_eq, hpattern, Bool.eq_iff_iff, decide_eq_true_iff]
  exact windowReg_eq_settled_iff standardUnit_dcValue_mod rfl true h

theorem releaseMatch_windowReg (h : List Bool) :
    releaseMatch standardUnit (windowReg standardUnit h) = twelveAfterOpposite false h := by
  have hpattern : standardUnit.releasePattern = windowReg standardUnit (settledWindow false) := by decide
  rw [releaseMatch_eq, hpattern, Bool.eq_iff_iff, decide_eq_true_iff]
  exact windowReg_eq_settled_iff standardUnit_dcValue_mod rfl false h

/-- Settles O33: the register is the window on the samples, and the default patterns are the two settled windows. -/
theorem defaultPatternsSeeTwelveSamples : Obligations.DefaultPatternsSeeTwelveSamples := by
  intro hist r tr
  have hreset : (State.atReset standardUnit tr).debounce.dreg = windowReg standardUnit [] := rfl
  obtain ⟨t, ht, hc, hd⟩ := execAll_samples standardUnit_dcValue_mod hist rfl rfl hreset
  rw [List.append_nil] at hd
  have hwindow : shiftSample t.cfg r t.debounce.dreg = windowReg standardUnit (r :: hist.reverse) := by
    rw [hc, hd, shiftSample_windowReg standardUnit_dcValue_mod]
  refine ⟨t, _, ht, exec_sample (by rw [hc]; rfl) r, ?_, ?_⟩
  · rw [← pressMatch_windowReg, ← hwindow, ← hc]
    rfl
  · rw [← releaseMatch_windowReg, ← hwindow, ← hc]
    rfl

end Sys2Proof.Machine
end

section
/-! PROOFS. BSTEP phase by phase, and what a drain does (43_bridge.md R122 to R127, R132). -/

namespace Sys2Proof.Machine

open Sys2Proof

/-! The words with a port. -/

/-- R132: a word of the units' own ports has none in the integrated top. -/
theorem unitOnly_of_integrated {s : State} (ht : s.cfg.top = .integrated) (k : StepResult) : unitOnly s k = .refused .notInConfig := by
  simp only [unitOnly, ht]

/-- R132: a word of the sequencer's ports has none in the unit top. -/
theorem integratedOnly_of_unit {s : State} (hu : s.cfg.top = .unit) (k : StepResult) :
    integratedOnly s k = .refused .notInConfig := by
  simp only [integratedOnly, hu]

/-- A PUSH has a port in either top; at another width it is refused as illegal (R132, R64 (e)). -/
theorem execPush_has_port (v : Byte) (s : State) : execPush v s ≠ .refused .notInConfig := by
  unfold execPush
  split
  · exact nofun
  · exact nofun

/-- Settles O9: the words of one top's own ports ask for that top, and the shared ones for none. -/
theorem wordsWithoutPortRefused : Obligations.WordsWithoutPortRefused := by
  intro s
  refine ⟨fun ht => ?_, fun hu => ⟨fun _ => integratedOnly_of_unit hu _, integratedOnly_of_unit hu _⟩,
    fun v _ => ⟨execPush_has_port v s, nofun, nofun, nofun, nofun⟩⟩
  have refused := unitOnly_of_integrated ht
  exact ⟨refused _, refused _, refused _, refused _, fun _ => refused _, fun _ => refused _, refused _, refused _⟩

/-! The unit transactions inside a BSTEP. -/

section Units

variable {s t : State}

/-- R85: a POP that completes is the FIFO's pop. -/
theorem exec_pop_next (hu : s.cfg.top = .unit) (h : exec .pop s = .next t) :
    ∃ f o, s.fifo.pop s.cfg = .ok (f, o) ∧
      t = (s.withFifo f).report (.item o) none (if o.isNone then some .queueEmpty else none) := by
  cases hp : s.fifo.pop s.cfg with
  | error e => exact nomatch (exec_pop_error hu hp).symm.trans h
  | ok fo =>
    cases (exec_pop_ok hu hp).symm.trans h
    exact ⟨_, _, rfl, rfl⟩

/-- R99: a PARSE that completes is the parser's parse. -/
theorem exec_parse_next {b : Byte} (hu : s.cfg.top = .unit) (h : exec (.parse b) s = .next t) :
    ∃ x, s.parser.parse s.cfg b = .ok x ∧
      t = (s.withParser x.parser).report (.message x.message) (some x.outcome) (outcomeCause x.outcome) := by
  cases hx : s.parser.parse s.cfg b with
  | error e => exact nomatch (exec_parse_error hu hx).symm.trans h
  | ok x =>
    cases (exec_parse_ok hu hx).symm.trans h
    exact ⟨_, rfl, rfl⟩

theorem exec_takep (hu : s.cfg.top = .unit) :
    exec .takep s = .next ((s.withDebounce s.debounce.takePressed).report (.bool s.debounce.pressed)) := unitOnly_of_unit hu _

theorem exec_taker (hu : s.cfg.top = .unit) :
    exec .taker s = .next ((s.withDebounce s.debounce.takeReleased).report (.bool s.debounce.released)) := unitOnly_of_unit hu _

/-- R85: a pop of an empty buffer is none. -/
theorem Fifo.pop_empty {c : Config} {f : Fifo} (h : rempty f = true) : f.pop c = .ok (f, none) := if_pos h

end Units

/-! One BSTEP. -/

section Bstep

variable {s : State}

/-- R122: between handshakes and in WAIT a BSTEP waits. -/
theorem exec_bstep_wait (r : Bool) (ht : s.cfg.top = .integrated) (hi : s.seq.sub = .idle) (hp : s.seq.phase = .wait) :
    exec (.bstep r) s = bstepWait s := by
  rw [exec, execBstep, integratedOnly_of_integrated ht, hi, hp]

/-- R124: between handshakes and in SAMPLE a BSTEP samples. -/
theorem exec_bstep_sample (r : Bool) (ht : s.cfg.top = .integrated) (hi : s.seq.sub = .idle) (hp : s.seq.phase = .sample) :
    exec (.bstep r) s = bstepSample r s := by
  rw [exec, execBstep, integratedOnly_of_integrated ht, hi, hp]

/-- R123: a drain ends on an empty buffer. -/
theorem bstepDrain_empty (he : s.fifo.pop s.cfg = .ok (s.fifo, none)) :
    bstepDrain s = .next ((s.toPhase .sample).report .unit none (some .queueEmpty)) := by
  rw [bstepDrain, he]
  rfl

/-- R123: a drain feeds the popped item's byte to the parser. -/
theorem bstepDrain_item {f : Fifo} {v : Nat} {q : Parsed} (hf : s.fifo.pop s.cfg = .ok (f, some v))
    (hq : s.parser.parse s.cfg (itemByte s.cfg v) = .ok q) : bstepDrain s = bstepParsed (s.withFifo f) q := by
  rw [bstepDrain, hf]
  simp only [orFault, hq]

/-- R123: a byte that completes no message leaves the log alone. -/
theorem bstepParsed_none {q : Parsed} (hm : q.message = none) :
    bstepParsed s q = .next ((s.withParser q.parser).report .unit (some q.outcome) (outcomeCause q.outcome)) := by
  simp only [bstepParsed, hm]

/-- R123, R125: a completed message is sent and flushed. -/
theorem bstepParsed_some {q : Parsed} {m : Message} (hm : q.message = some m) :
    bstepParsed s q =
      .next (((s.withParser q.parser).report .unit (some q.outcome) (outcomeCause q.outcome)).emit m) := by
  simp only [bstepParsed, hm]

/-- R125: what a message sent and flushed, if there is one, leaves. -/
theorem State.emitIf_eq (b : Bool) (m : Message) :
    s.emitIf b m = { s with
      seq := { s.seq with out := if b then m.pack else s.seq.out }
      txLog := s.txLog ++ if b then [.send m, .flush] else [] } := by
  cases b with
  | false => exact State.eq_of_groups rfl rfl rfl rfl rfl rfl rfl rfl rfl (List.append_nil _).symm rfl
  | true => exact State.eq_of_groups rfl rfl rfl rfl rfl rfl rfl rfl rfl (List.append_assoc ..) rfl

/-- R124: the debounce filter after a BSTEP in SAMPLE, the events of the flags that were taken, and the last message handed over. -/
theorem bstepSample_eq (r : Bool) {d : Debounce} (hd : s.debounce.sample s.cfg r = d) :
    bstepSample r s = .next { s with
      debounce := ⟨d.dreg, false, false⟩
      seq := { s.seq with
        phase := .wait
        out := if d.released then (noteOffMsg s.cfg).pack else if d.pressed then (noteOnMsg s.cfg).pack else s.seq.out }
      txLog := s.txLog ++ (if d.pressed then [.send (noteOnMsg s.cfg), .flush] else []) ++
        (if d.released then [.send (noteOffMsg s.cfg), .flush] else [])
      obs := ⟨.unit, none, none⟩ } := by
  subst hd
  simp only [bstepSample, State.emitIf_eq]
  rfl

end Bstep

/-- Settles O36: `bstepWait`, with and without a pending tick, and the encodings. -/
theorem bstepWaitStartsOrHolds : Obligations.BstepWaitStartsOrHolds := by
  refine ⟨fun r s ht hi hp => ?_, rfl, rfl, rfl, rfl, rfl, rfl, rfl, rfl⟩
  rw [exec_bstep_wait r ht hi hp]
  exact ⟨fun htick => if_pos htick, fun htick => if_neg (by rw [htick]; decide)⟩

/-- Settles O37: the pop of an empty buffer is none, which ends the drain. -/
theorem bstepDrainEndsWhenEmpty : Obligations.BstepDrainEndsWhenEmpty := by
  intro r s ht hi hp he
  exact (exec_bstep_drain r ht hi hp).trans (bstepDrain_empty (Fifo.pop_empty (rempty_of_eq he)))

/-- Settles O38: the drain's pop and parse are those of the unit ports, and its log the completed message's. -/
theorem bstepDrainPopsAndParses : Obligations.BstepDrainPopsAndParses := by
  intro r v s p q ht hi hp hpop hitem hparse
  refine ⟨itemByte_toNat, ?_⟩
  obtain ⟨f, o, hf, rfl⟩ := exec_pop_next rfl hpop
  cases hitem
  obtain ⟨x, hx, rfl⟩ := exec_parse_next rfl hparse
  have hb := (exec_bstep_drain r ht hi hp).trans (bstepDrain_item hf hx)
  cases hm : x.message with
  | none => exact ⟨_, hb.trans (bstepParsed_none hm), rfl, rfl, fun _ => ⟨rfl, rfl⟩, nofun, rfl, rfl, rfl⟩
  | some m =>
    refine ⟨_, hb.trans (bstepParsed_some hm), rfl, rfl, nofun, fun m' h => ?_, rfl, rfl, rfl⟩
    cases h
    exact ⟨List.append_assoc .., rfl⟩

/-- Settles O39: one sample, both takes, and the events of the flags that were taken. -/
theorem bstepSampleTakesEvents : Obligations.BstepSampleTakesEvents := by
  intro r s ht hi hp
  exact ⟨_, _, _, _, _, _, exec_sample rfl r, exec_takep rfl, rfl, exec_taker rfl, rfl,
    (exec_bstep_sample r ht hi hp).trans (bstepSample_eq r rfl), rfl, rfl, rfl, rfl, hi, rfl, rfl⟩

end Sys2Proof.Machine
end

section
/-! PROOFS. A drain pops what the read domain sees and ends (43_bridge.md R123, 70_reset_and_hazards.md R158). -/

namespace Sys2Proof.Machine

open Sys2Proof

/-- A good state of the integrated top in which a BSTEP drains (R123). -/
structure Draining (s : State) : Prop where
  inv : Inv s
  top : s.cfg.top = .integrated
  sub : s.seq.sub = .idle
  phase : s.seq.phase = .drain

/-- R123: the parse of a drain leaves the FIFO, the debounce filter and the place of the sequencer alone. -/
theorem bstepParsed_frame (s : State) (q : Parsed) :
    ∃ t, bstepParsed s q = .next t ∧ t.cfg = s.cfg ∧ t.fifo = s.fifo ∧ t.seq.sub = s.seq.sub ∧ t.seq.phase = s.seq.phase ∧
      t.debounce = s.debounce := by
  cases hm : q.message with
  | none => exact ⟨_, bstepParsed_none hm, by simp⟩
  | some m => exact ⟨_, bstepParsed_some hm, by simp⟩

/-- R123: a BSTEP that finds an element pops it, and drains on. -/
theorem Draining.bstep {s : State} (h : Draining s) (r : Bool) (hlt : s.fifo.ghost.r < s.fifo.ghost.rqw) :
    ∃ t, exec (.bstep r) s = .next t ∧ Draining t ∧ t.fifo.ghost.r = s.fifo.ghost.r + 1 ∧
      t.fifo.ghost.rqw = s.fifo.ghost.rqw ∧ t.fifo.ghost.pushed = s.fifo.ghost.pushed ∧ t.debounce = s.debounce := by
  obtain ⟨hinv, ht, hi, hp⟩ := h
  rcases hinv.fifo.pop hinv.legal with ⟨he, -⟩ | ⟨-, v, -, hpop, -⟩
  · omega
  · obtain ⟨q, hq, -⟩ := hinv.parser.parse s.cfg (itemByte s.cfg v)
    obtain ⟨-, -, -, -, -, hpushed, hrqw⟩ := Fifo.take_writeSide s.cfg v s.fifo
    obtain ⟨-, -, hpopped⟩ := Fifo.take_copy s.cfg v s.fifo
    have hr : ((s.fifo.take s.cfg v).foldR s.cfg).ghost.r = s.fifo.ghost.r + 1 := by
      rw [Ghost.r, hpopped]
      exact List.length_append
    obtain ⟨t, hparsed, hcfg, hfifo, hsub, hphase, hdebounce⟩ :=
      bstepParsed_frame (s.withFifo ((s.fifo.take s.cfg v).foldR s.cfg)) q
    have hb := ((exec_bstep_drain r ht hi hp).trans (bstepDrain_item hpop hq)).trans hparsed
    refine ⟨t, hb, ⟨hinv.exec _ _ hb, ?_, hsub.trans hi, hphase.trans hp⟩, ?_⟩
    · rw [hcfg]
      exact ht
    · rw [hfifo]
      exact ⟨hr, hrqw, hpushed, hdebounce⟩

/-- R123: a BSTEP that finds none ends the drain; what was popped is then what the read domain saw (R50). -/
theorem Draining.bstep_ends {s : State} (h : Draining s) (r : Bool) (he : s.fifo.ghost.r = s.fifo.ghost.rqw) :
    ∃ t, exec (.bstep r) s = .next t ∧ t.seq.phase = .sample ∧
      t.fifo.ghost.popped = s.fifo.ghost.pushed.take s.fifo.ghost.rqw ∧ t.debounce = s.debounce := by
  obtain ⟨hinv, ht, hi, hp⟩ := h
  have hempty := (hinv.fifo.rempty_iff hinv.legal).2 he
  refine ⟨_, (exec_bstep_drain r ht hi hp).trans (bstepDrain_empty (Fifo.pop_empty hempty)), rfl, ?_, rfl⟩
  rw [← he]
  exact hinv.fifo.fifoOrder

/-- A drain of n elements takes n BSTEPs and one more. -/
theorem Draining.bsteps (r : Bool) {n : Nat} : ∀ {s : State}, Draining s → s.fifo.ghost.rqw = s.fifo.ghost.r + n →
    ∃ t, execAll (List.replicate (n + 1) (.bstep r)) s = .next t ∧ t.seq.phase = .sample ∧
      t.fifo.ghost.popped = s.fifo.ghost.pushed.take s.fifo.ghost.rqw ∧ t.debounce = s.debounce := by
  induction n with
  | zero =>
    intro s h hn
    obtain ⟨t, ht, hend⟩ := h.bstep_ends r hn.symm
    exact ⟨t, execAll_cons ht, hend⟩
  | succ n ih =>
    intro s h hn
    obtain ⟨u, hu, hdrain, hr, hrqw, hpushed, hdebounce⟩ := h.bstep r (by omega)
    obtain ⟨t, ht, hphase, hpopped, hkept⟩ := ih hdrain (by omega)
    rw [hpushed, hrqw] at hpopped
    exact ⟨t, (execAll_cons hu).trans ht, hphase, hpopped, hkept.trans hdebounce⟩

/-- Settles O60, by induction on the number of elements the read domain sees. -/
theorem drainEndsAfterLevelSteps : Obligations.DrainEndsAfterLevelSteps := by
  intro r s h ht hi hp
  rw [h.fifo.rlevel_eq h.legal]
  have hle := h.fifo.r_le_rqw
  exact Draining.bsteps r ⟨h, ht, hi, hp⟩ (by omega)

end Sys2Proof.Machine
end

section
/-! PROOFS. The tick: the word, and the edge that ends a period (43_bridge.md R121, 70_reset_and_hazards.md R153 (a)). -/

namespace Sys2Proof.Machine

open Sys2Proof

/-- R153 (a): the host gives the edge that ends a period a tick, and the count begins anew (log 30). -/
theorem tick_due {i : ReadIn} {s : State} (hh : s.rHeld = false) (hk : s.sinceTick = some s.cfg.tickPeriod)
    (hf : i.fits s.cfg.top = true) (ht : s.cfg.top = .integrated) (ho : s.tickOnTime i = true) :
    ∃ j, i = .integrated j ∧ j.tick = true ∧ s.sinceTickAfter i = some 1 := by
  cases i with
  | unit u => exact nomatch (ReadIn.fits_unit hf).symm.trans ht
  | integrated j =>
    have htick : j.tick = true := by simpa [State.tickOnTime, ht, hh, hk] using ho
    exact ⟨j, rfl, htick, by simp [State.sinceTickAfter, ht, hh, htick]⟩

/-- The write domain's edge moves the FIFO alone (R84). -/
theorem writeEdge_next {full : Bool} {sampled : Nat} {w : WriteIn} {s t : State} (h : writeEdge full sampled w s = .next t) :
    t = s.withFifo t.fifo := by
  unfold writeEdge at h
  split at h <;> cases h <;> rfl

/-- An edge of the read domain, of rclk alone or of both clocks, is on time, and beside the FIFO leaves what the read domain's part of
it does, with the tick counted. -/
theorem read_edge_part {i : ReadIn} {e : HostStep} {s t : State} (he : e.readsWith i) (h : runHostStep e s = .next t) :
    s.tickOnTime i = true ∧ ∃ g m, readEdge g i ((s.withSinceTick (s.sinceTickAfter i)).report .unit) = .next m ∧
      t = m.withFifo t.fifo := by
  rcases he with rfl | ⟨w, rfl⟩
  · refine ⟨?_, _, t, rclk_next h, rfl⟩
    simp only [runHostStep, asyncOnly] at h
    split at h
    · exact (onTime_next h).1
    · exact nomatch h
  · obtain ⟨m, hm, ht⟩ := clk_next h
    rw [runHostStep] at h
    exact ⟨(onTime_next h).1, _, m, hm, writeEdge_next ht⟩

/-- Settles O35: the word by `execTick`; an edge that ends a period is on time with a tick, which the sequencer's row keeps. -/
theorem tickSetsPending : Obligations.TickSetsPending := by
  refine ⟨rfl, fun s ht => ⟨integratedOnly_of_integrated ht _, ?_⟩⟩
  intro i e t hh hk he h
  obtain ⟨ho, g, m, hm, hframe⟩ := read_edge_part he h
  obtain ⟨hf, a, ha, rfl⟩ := readEdge_running (by exact hh) hm
  obtain ⟨j, rfl, htick, hcount⟩ := tick_due hh hk hf ht ho
  have hpending : a.seq.tickPending = true := by
    rw [(seqEdge_ports ha).1, tickNext, htick, Bool.true_or]
  have hsince : a.sinceTick = some 1 := by
    rw [(unitsEdge_ok ha).2, ← hcount]
    rfl
  rw [hframe]
  exact ⟨hpending, hsince⟩

end Sys2Proof.Machine
end

section
/-! PROOFS. The results of the transport change no state, and the causes of an edge (43_bridge.md R126, 60_exceptions.md R134 to
R137). -/

namespace Sys2Proof.Machine

open Sys2Proof

/-- A cycle's inputs with other results of the transport. -/
def TopIn.withErrors (i : TopIn) (msgErr flushErr : Bool) : TopIn := { i with msgErr := msgErr, flushErr := flushErr }

/-- R126: the sequencer's edge looks at neither result. -/
theorem seqEdge_withErrors (i : TopIn) (a b : Bool) (s : State) : seqEdge (i.withErrors a b) s = seqEdge i s := rfl

/-- Nor does the read domain's part of an edge. -/
theorem readEdge_withErrors (g : Nat) (i : TopIn) (a b : Bool) (s : State) :
    readEdge g (.integrated (i.withErrors a b)) s = readEdge g (.integrated i) s := by
  unfold readEdge
  cases s.cfg.top with
  | unit => rfl
  | integrated => simp only [seqEdge_withErrors]

/-- Nor does an edge of both domains. -/
theorem bothEdges_withErrors (w : WriteIn) (i : TopIn) (a b : Bool) (s : State) :
    bothEdges w (.integrated (i.withErrors a b)) s = bothEdges w (.integrated i) s := by
  rw [bothEdges, bothEdges, readEdge_withErrors]

/-- Nor does the host's duty to tick (R153 (a)). -/
theorem onTime_withErrors (i : TopIn) (a b : Bool) (s : State) (k : State → StepResult) :
    onTime (.integrated (i.withErrors a b)) s k = onTime (.integrated i) s k := by
  unfold onTime State.tickOnTime State.sinceTickAfter
  cases s.cfg.top <;> cases s.sinceTick <;> rfl

/-- R137: cause 4, once, on a handshake whose result is an error, and no cause without one. -/
theorem edgeCauses_eq (i : TopIn) (s : State) :
    edgeCauses i s =
      if s.rHeld = false ∧ (s.seq.sub = .send ∧ i.msgReady = true ∧ i.msgErr = true ∨
        s.seq.sub = .flush ∧ i.flushReady = true ∧ i.flushErr = true) then [.transportFailure] else [] := by
  cases hh : s.rHeld with
  | true => simp [edgeCauses, topOut, hh]
  | false => cases hs : s.seq.sub <;> simp [edgeCauses, topOut, hh, hs]

/-- Settles O59: no part of an edge looks at the results, and the causes are those of the two handshakes. -/
theorem transportErrorsIgnored : Obligations.TransportErrorsIgnored := by
  refine ⟨fun w i a b s => ⟨?_, ?_, edgeCauses_eq i s⟩, rfl, rfl, fun _ => rfl, rfl, rfl, rfl, rfl, rfl⟩
  · change runHostStep (.rclk (.integrated (i.withErrors a b))) s = _
    simp only [runHostStep, readEdge_withErrors, onTime_withErrors]
  · change runHostStep (.clk w (.integrated (i.withErrors a b))) s = _
    simp only [runHostStep, bothEdges_withErrors, onTime_withErrors]

end Sys2Proof.Machine
end

section
/-! PROOFS. The rows of the sequencer's FSM as equations of its edge: what the row does, and then what the free inputs do
(43_bridge.md R128, R129, 41_parser.md R111). -/

namespace Sys2Proof.Machine

open Sys2Proof

/-! The free inputs. -/

/-- What `tick` and the mask's port do over a run of cycles (R111, R128). -/
def State.afterInputs (s : State) (run : List TopIn) : State :=
  { s with
    seq := { s.seq with tickPending := s.seq.tickPending || run.any TopIn.tick }
    parser := { s.parser with mask := maskAfter run s.parser.mask } }

theorem State.afterInputs_append (s : State) (a b : List TopIn) :
    (s.afterInputs a).afterInputs b = s.afterInputs (a ++ b) := by
  simp [State.afterInputs, maskAfter, Bool.or_assoc]

/-- A parser's edge is the one without the mask write, and then the mask write (R111). -/
theorem parserEdge_mask_last {u : UnitIn} {s : State} {q : Parser} (h : parserEdge { u with cfgWe := false } s = .ok q) :
    parserEdge u s = .ok { q with mask := if u.cfgWe then u.cfgMask else q.mask } := by
  unfold parserEdge at h ⊢
  dsimp only at h ⊢
  split at h
  · next hp =>
    cases h
    rw [hp]
    cases u.cfgWe <;> rfl
  · exact nomatch h

section Rows

variable {s : State} {i : TopIn}

/-- R128: an edge of the sequencer is its row with the units on the ports it drives, and then what the free inputs do. -/
theorem seqEdge_row {n : SeqNext} {f : Fifo} {q : Parser} (hn : fsmNext i s = .ok n) (hf : popEdge (seqDrive i s) s = .ok f)
    (hq : parserEdge { seqDrive i s with cfgWe := false } s = .ok q) :
    seqEdge i s = .ok (State.afterInputs { s with
      fifo := f
      parser := q
      debounce := debounceEdge (seqDrive i s) s
      seq := { n.seq with tickPending := s.seq.tickPending && !seqStart s }
      txLog := s.txLog ++ n.events } [i]) := by
  obtain ⟨hwe, hmask⟩ := seqDrive_mask i s
  have hp := parserEdge_mask_last hq
  rw [hwe, hmask] at hp
  simp only [seqEdge, hn, unitEdge, hf, hp, tickNext, State.afterInputs, List.any_cons, List.any_nil, Bool.or_comm]
  rfl

/-- Outside the start of an iteration `tick_pending` is kept (R128). -/
theorem seqStart_of_not_wait (h : s.seq.phase ≠ .wait ∨ s.seq.sub ≠ .idle) : seqStart s = false := by
  rcases h with hp | hs
  · simp [seqStart, hp]
  · simp [seqStart, hs]

/-- An edge outside the start of an iteration on which the sequencer drives neither the FIFO nor the parser. -/
theorem seqEdge_quiet {n : SeqNext} {d : Debounce} (hn : fsmNext i s = .ok n)
    (hdrive : (seqDrive i s).popReq = false ∧ (seqDrive i s).pbValid = false) (hd : debounceEdge (seqDrive i s) s = d)
    (hstart : seqStart s = false) (htick : n.seq.tickPending = s.seq.tickPending) :
    seqEdge i s = .ok (State.afterInputs { s with debounce := d, seq := n.seq, txLog := s.txLog ++ n.events } [i]) := by
  obtain ⟨hpop, hpb⟩ := hdrive
  have hrow := seqEdge_row (f := s.fifo) (q := s.parser) hn (by rw [popEdge, hpop]; rfl) (by rw [parserEdge, hpb]; rfl)
  rw [hstart, ← htick, Bool.not_false, Bool.and_true, hd] at hrow
  exact hrow

/-! WAIT (R122). -/

/-- In WAIT the sequencer drives nothing. -/
theorem seqDrive_wait (hp : s.seq.phase = .wait) :
    seqDrive i s = { cfgWe := i.cfgWe, cfgMask := i.cfgMask, rawActive := i.rawActive } := by
  unfold seqDrive
  rw [hp]

/-- WAIT/IDLE with a tick pending starts an iteration. -/
theorem seqEdge_wait_start (hs : s.seq.sub = .idle) (hp : s.seq.phase = .wait) (ht : s.seq.tickPending = true) :
    seqEdge i s = .ok ((s.withSeq { s.seq with phase := .drain, tickPending := false }).afterInputs [i]) := by
  have hn : fsmNext i s = .ok ⟨{ s.seq with phase := .drain }, []⟩ := by simp only [fsmNext, hs, hp, ht, if_true]
  have hstart : seqStart s = true := by simp [seqStart, hs, hp, ht]
  have hrow := seqEdge_row (f := s.fifo) (q := s.parser) hn (by rw [seqDrive_wait hp]; rfl) (by rw [seqDrive_wait hp]; rfl)
  rw [debounceEdge_seqDrive, hp, hstart, List.append_nil, Bool.not_true, Bool.and_false] at hrow
  exact hrow

/-- WAIT/IDLE without one holds. -/
theorem seqEdge_wait_hold (hs : s.seq.sub = .idle) (hp : s.seq.phase = .wait) (ht : s.seq.tickPending = false) :
    seqEdge i s = .ok (s.afterInputs [i]) := by
  have hn : fsmNext i s = .ok ⟨s.seq, []⟩ := by simp [fsmNext, hs, hp, ht]
  have hstart : seqStart s = false := by simp [seqStart, ht]
  have hrow := seqEdge_quiet hn (by rw [seqDrive_wait hp]; exact ⟨rfl, rfl⟩) (debounceEdge_seqDrive i s) hstart rfl
  rw [hp, List.append_nil] at hrow
  exact hrow

/-! DRAIN (R123). -/

/-- DRAIN/IDLE on an empty buffer ends the drain. -/
theorem seqEdge_drain_empty (hs : s.seq.sub = .idle) (hp : s.seq.phase = .drain) (he : rempty s.fifo = true) :
    seqEdge i s = .ok ((s.toPhase .sample).afterInputs [i]) := by
  have hn : fsmNext i s = .ok ⟨{ s.seq with phase := .sample }, []⟩ := by simp [fsmNext, hs, hp, fsmDrain, he]
  have hdrive : (seqDrive i s).popReq = false ∧ (seqDrive i s).pbValid = false := by simp [seqDrive, hs, hp, he]
  have hrow := seqEdge_quiet hn hdrive (debounceEdge_seqDrive i s) (seqStart_of_not_wait (.inl (by rw [hp]; decide))) rfl
  rw [hp, hs, List.append_nil] at hrow
  exact hrow

/-- A message is offered, with a release waiting behind it or none. -/
def State.offering (s : State) (m : Message) (rel : Bool) : State :=
  s.withSeq { s.seq with sub := .send, out := m.pack, relPend := rel }

/-- What a drain's pop and parse leave, with the message offered that the parse completes (R128). -/
def State.drained (s : State) (f : Fifo) (x : Parsed) : State :=
  match x.message with
  | none => (s.withFifo f).withParser x.parser
  | some m => ((s.withFifo f).withParser x.parser).offering m s.seq.relPend

theorem State.drained_none {f : Fifo} {x : Parsed} (hm : x.message = none) :
    s.drained f x = (s.withFifo f).withParser x.parser := by
  rw [State.drained, hm]

theorem State.drained_some {f : Fifo} {x : Parsed} {m : Message} (hm : x.message = some m) :
    s.drained f x = ((s.withFifo f).withParser x.parser).offering m s.seq.relPend := by
  rw [State.drained, hm]

/-- DRAIN/IDLE pops an element, parses its byte, and offers the message that completes. -/
theorem seqEdge_drain_item {f : Fifo} {v : Nat} {x : Parsed} (hs : s.seq.sub = .idle) (hp : s.seq.phase = .drain)
    (hpop : s.fifo.pop s.cfg = .ok (f, some v)) (hx : s.parser.parse s.cfg (itemByte s.cfg v) = .ok x) :
    seqEdge i s = .ok ((s.drained f x).afterInputs [i]) := by
  have hread : rempty s.fifo = false ∧ Memory.read s.fifo.mem (slotIdx s.cfg s.fifo.rptr) = some v := by
    rcases Fifo.pop_cases s.cfg s.fifo with ⟨-, h⟩ | ⟨he, u, hu, h⟩ | ⟨-, -, h⟩ <;> cases h.symm.trans hpop
    exact ⟨he, hu⟩
  obtain ⟨he, hv⟩ := hread
  have hdrive : seqDrive i s =
      { popReq := true, pbValid := true, pbData := itemByte s.cfg v, cfgWe := i.cfgWe, cfgMask := i.cfgMask
        rawActive := i.rawActive } := by
    simp [seqDrive, hs, hp, he, hv]
  have hmessage : cycleMessage (seqDrive i s) s = x.message := by simp [cycleMessage, hdrive, hx]
  have hstart := seqStart_of_not_wait (s := s) (.inl (by rw [hp]; decide))
  have hfsm : fsmNext i s = .ok (fsmDrain i s) := by simp only [fsmNext, hs, hp]
  have hrow : ∀ n, fsmNext i s = .ok ⟨n, []⟩ → n.tickPending = s.seq.tickPending →
      seqEdge i s = .ok ((((s.withFifo f).withParser x.parser).withSeq n).afterInputs [i]) := by
    intro n hn htick
    have h := seqEdge_row hn (f := f) (q := x.parser) (by simp [popEdge, hdrive, hpop]) (by simp [parserEdge, hdrive, hx])
    rw [hstart, debounceEdge_seqDrive, hp, hs, ← htick, Bool.not_false, Bool.and_true, List.append_nil] at h
    exact h
  cases hm : x.message with
  | none =>
    rw [hm] at hmessage
    rw [State.drained_none hm]
    exact hrow s.seq (by rw [hfsm, fsmDrain, he, hmessage]; rfl) rfl
  | some m =>
    rw [hm] at hmessage
    rw [State.drained_some hm]
    exact hrow _ (by rw [hfsm, fsmDrain, he, hmessage]; rfl) rfl

/-! SAMPLE (R124). -/

/-- SAMPLE/IDLE samples and goes on to the take. -/
theorem seqEdge_sample (hs : s.seq.sub = .idle) (hp : s.seq.phase = .sample) :
    seqEdge i s = .ok (((s.withDebounce (s.debounce.sample s.cfg i.rawActive)).withSeq
      { s.seq with sub := .take }).afterInputs [i]) := by
  have hn : fsmNext i s = .ok ⟨{ s.seq with sub := .take }, []⟩ := by simp only [fsmNext, hs, hp]
  have hdrive : (seqDrive i s).popReq = false ∧ (seqDrive i s).pbValid = false := by simp [seqDrive, hs, hp]
  have hrow := seqEdge_quiet hn hdrive (debounceEdge_seqDrive i s) (seqStart_of_not_wait (.inl (by rw [hp]; decide))) rfl
  rw [hp, hs, List.append_nil] at hrow
  exact hrow

/-- SAMPLE/TAKE takes both flags and offers the message of one that was set, the press's first. -/
theorem seqEdge_take (hs : s.seq.sub = .take) (hp : s.seq.phase = .sample) :
    seqEdge i s = .ok (((s.withDebounce s.debounce.takePressed.takeReleased).withSeq (fsmTake s).seq).afterInputs [i]) := by
  have hn : fsmNext i s = .ok ⟨(fsmTake s).seq, []⟩ := by
    simp only [fsmNext, hs, hp, fsmTake]
    cases s.debounce.pressed <;> cases s.debounce.released <;> rfl
  have hdrive : (seqDrive i s).popReq = false ∧ (seqDrive i s).pbValid = false := by simp [seqDrive, hs, hp]
  have htick : (fsmTake s).seq.tickPending = s.seq.tickPending := by
    unfold fsmTake
    cases s.debounce.pressed <;> cases s.debounce.released <;> rfl
  have hrow := seqEdge_quiet hn hdrive (debounceEdge_seqDrive i s) (seqStart_of_not_wait (.inl (by rw [hp]; decide))) htick
  rw [hp, hs, List.append_nil] at hrow
  exact hrow

/-- R124 (ii): a press offers its message first; a release taken with it waits. -/
theorem fsmTake_press (h : s.debounce.pressed = true) :
    fsmTake s = ⟨{ s.seq with sub := .send, out := (noteOnMsg s.cfg).pack, relPend := s.debounce.released }, []⟩ := if_pos h

/-- A release alone offers its own. -/
theorem fsmTake_release (h : s.debounce.pressed = false) (hr : s.debounce.released = true) :
    fsmTake s = ⟨{ s.seq with sub := .send, out := (noteOffMsg s.cfg).pack }, []⟩ := by
  rw [fsmTake, h, hr]
  rfl

/-- Without an event the iteration ends. -/
theorem fsmTake_none (h : s.debounce.pressed = false) (hr : s.debounce.released = false) :
    fsmTake s = ⟨{ s.seq with phase := .wait, sub := .idle }, []⟩ := by
  rw [fsmTake, h, hr]
  rfl

/-! The offers (R129). -/

/-- While a message or a flush is offered the sequencer drives no unit. -/
theorem seqDrive_offer (hb : s.seq.sub = .send ∨ s.seq.sub = .flush) :
    seqDrive i s = { cfgWe := i.cfgWe, cfgMask := i.cfgMask, rawActive := i.rawActive } := by
  unfold seqDrive
  cases hp : s.seq.phase <;> rcases hb with hs | hs <;> rw [hs]

/-- An edge on which a message or a flush is offered. -/
theorem seqEdge_offer {n : SeqNext} (hb : s.seq.sub = .send ∨ s.seq.sub = .flush) (hn : fsmNext i s = .ok n)
    (htick : n.seq.tickPending = s.seq.tickPending) :
    seqEdge i s = .ok (State.afterInputs { s with seq := n.seq, txLog := s.txLog ++ n.events } [i]) := by
  have hidle : s.seq.sub ≠ .idle := by rcases hb with hs | hs <;> rw [hs] <;> decide
  exact seqEdge_quiet hn (by rw [seqDrive_offer hb]; exact ⟨rfl, rfl⟩) (by rw [seqDrive_offer hb]; rfl)
    (seqStart_of_not_wait (.inr hidle)) htick

/-- The offered message is sent, and its flush is offered. -/
def State.sent (s : State) : State := (s.withSeq { s.seq with sub := .flush }).logTx (.send (Message.unpack s.seq.out))

/-- The offered flush is done: a release waiting behind a press is offered next, a sample's iteration ends, a drain goes on. -/
def State.flushed (s : State) : State :=
  (s.withSeq (if s.seq.phase = .sample then (fsmSampleFlushed s).seq else { s.seq with sub := .idle })).logTx .flush

/-- Outside SAMPLE a flush done leaves the sequencer idle. -/
theorem State.flushed_of_not_sample (hp : s.seq.phase ≠ .sample) : s.flushed = (s.withSeq { s.seq with sub := .idle }).logTx .flush := by
  rw [State.flushed, if_neg hp]

/-- R124 (iii): in SAMPLE the last flush ends the iteration. -/
theorem State.flushed_sample (hp : s.seq.phase = .sample) (hr : s.seq.relPend = false) :
    s.flushed = (s.withSeq { s.seq with phase := .wait, sub := .idle }).logTx .flush := by
  rw [State.flushed, if_pos hp, fsmSampleFlushed, hr]
  rfl

/-- A release waiting behind the press is offered next. -/
theorem State.flushed_release (hp : s.seq.phase = .sample) (hr : s.seq.relPend = true) :
    s.flushed = (s.offering (noteOffMsg s.cfg) false).logTx .flush := by
  rw [State.flushed, if_pos hp, fsmSampleFlushed, hr]
  rfl

/-- The three outcomes of a flush done. -/
theorem State.flushed_cases (s : State) :
    s.seq.phase ≠ .sample ∨ (s.seq.phase = .sample ∧ s.seq.relPend = false) ∨ (s.seq.phase = .sample ∧ s.seq.relPend = true) := by
  cases s.seq.phase <;> cases s.seq.relPend <;> decide

theorem State.flushed_tickPending (s : State) : s.flushed.seq.tickPending = s.seq.tickPending := by
  rcases s.flushed_cases with hp | ⟨hp, hr⟩ | ⟨hp, hr⟩
  · rw [State.flushed_of_not_sample hp]
    rfl
  · rw [State.flushed_sample hp hr]
    rfl
  · rw [State.flushed_release hp hr]
    rfl

/-- any/SEND: the message is sent where the transport is ready, and held where it is not. -/
theorem seqEdge_send (hs : s.seq.sub = .send) (hp : s.seq.phase ≠ .unused3) :
    seqEdge i s = .ok ((if i.msgReady then s.sent else s).afterInputs [i]) := by
  have hn : fsmNext i s = .ok (fsmSend i s) := by
    cases hq : s.seq.phase with
    | unused3 => exact absurd hq hp
    | wait => simp only [fsmNext, hs, hq]
    | drain => simp only [fsmNext, hs, hq]
    | sample => simp only [fsmNext, hs, hq]
  have htick : (fsmSend i s).seq.tickPending = s.seq.tickPending := by
    unfold fsmSend
    split <;> rfl
  rw [seqEdge_offer (.inl hs) hn htick, fsmSend]
  split
  · rfl
  · simp only [List.append_nil]

/-- DRAIN/FLUSH and SAMPLE/FLUSH: the flush is done where the transport is ready, and held where it is not. -/
theorem seqEdge_flush (hs : s.seq.sub = .flush) (hp : s.seq.phase = .drain ∨ s.seq.phase = .sample) :
    seqEdge i s = .ok ((if i.flushReady then s.flushed else s).afterInputs [i]) := by
  have hn : fsmNext i s = .ok (if i.flushReady then ⟨s.flushed.seq, [.flush]⟩ else ⟨s.seq, []⟩) := by
    rcases hp with hp | hp
    · simp [fsmNext, hs, hp, State.flushed]
    · simp only [fsmNext, hs, hp, State.flushed, fsmSampleFlushed]
      cases s.seq.relPend <;> rfl
  rw [seqEdge_offer (.inr hs) hn (by split <;> [exact s.flushed_tickPending; rfl])]
  split
  · rfl
  · simp only [List.append_nil]

end Rows

end Sys2Proof.Machine
end

section
/-! PROOFS. An offer is held until the transport is ready, and is then completed once (43_bridge.md R129, 70_reset_and_hazards.md
R153 (b)). -/

namespace Sys2Proof.Machine

open Sys2Proof

/-! One edge. -/

/-- The shift of the read domain's chain moves the chain, the copy and the copy's count alone (R93). -/
theorem Fifo.shiftW_frame (c : Config) (g : Nat) (f : Fifo) :
    f.shiftW c g = { f with
      rqWptr := (f.shiftW c g).rqWptr, w2r := (f.shiftW c g).w2r, ghost := { f.ghost with rqw := (f.shiftW c g).ghost.rqw } } := by
  unfold Fifo.shiftW
  split <;> rfl

/-- In a good state a flush done leaves no offer, for no release waits behind a press (R41 (f)). -/
theorem State.flushed_sub {s : State} (hr : s.seq.relPend = false) : s.flushed.seq.sub = .idle := by
  by_cases hp : s.seq.phase = .sample
  · rw [State.flushed_sample hp hr]
    rfl
  · rw [State.flushed_of_not_sample hp]
    rfl

/-- What an offer leaves alone, held or completed: everything but the sequencer's place and the log (R129). -/
structure SameUnits (s x : State) : Prop where
  cfg : x.cfg = s.cfg
  fifo : x.fifo = s.fifo
  parser : x.parser = s.parser
  debounce : x.debounce = s.debounce
  tickPending : x.seq.tickPending = s.seq.tickPending

theorem SameUnits.sent (s : State) : SameUnits s s.sent := ⟨rfl, rfl, rfl, rfl, rfl⟩

theorem SameUnits.flushed (s : State) : SameUnits s s.flushed := ⟨rfl, rfl, rfl, rfl, State.flushed_tickPending s⟩

theorem SameUnits.of_ready {s x : State} (h : SameUnits s x) (b : Bool) : SameUnits s (if b then x else s) := by
  split
  · exact h
  · exact ⟨rfl, rfl, rfl, rfl, rfl⟩

/-- What the read domain's part of an edge leaves when the sequencer's row leaves `x`: the free inputs and the chain's shift follow. -/
def State.afterEdge (x : State) (i : TopIn) (g : Nat) : State := (x.afterInputs [i]).withFifo (x.fifo.shiftW x.cfg g)

/-- A running integrated read domain's edge is the sequencer's and a shift of its chain (R93, R128). -/
theorem readEdge_of_seqEdge {g : Nat} {i : TopIn} {s x : State} (ht : s.cfg.top = .integrated) (hh : s.rHeld = false)
    (hx : seqEdge i s = .ok (x.afterInputs [i])) :
    readEdge g (.integrated i) s = .next (x.afterEdge i g) := by
  simp only [readEdge, hh, ht, hx]
  rfl

/-- R129: on an edge on which an offer is made only the free inputs and the chain move the units. -/
theorem SameUnits.afterEdge {s x : State} (h : SameUnits s x) (i : TopIn) (g : Nat) :
    (x.afterEdge i g).debounce = s.debounce ∧
      (x.afterEdge i g).parser = { s.parser with mask := if i.cfgWe then i.cfgMask else s.parser.mask } ∧
      (x.afterEdge i g).seq.tickPending = (i.tick || s.seq.tickPending) ∧
      (x.afterEdge i g).fifo = { s.fifo with
        rqWptr := (x.afterEdge i g).fifo.rqWptr
        w2r := (x.afterEdge i g).fifo.w2r
        ghost := { s.fifo.ghost with rqw := (x.afterEdge i g).fifo.ghost.rqw } } := by
  obtain ⟨hcfg, hfifo, hparser, hdebounce, htick⟩ := h
  simp only [State.afterEdge, State.afterInputs, State.withFifo, hcfg, hfifo, hparser, hdebounce, htick, List.any_cons,
    List.any_nil]
  exact ⟨trivial, rfl, by rw [Bool.or_false, Bool.or_comm], Fifo.shiftW_frame ..⟩

/-- R129: an edge that holds the offer leaves every output but `mask_q`. -/
theorem topOut_afterEdge_held (s : State) (i : TopIn) (g : Nat) :
    topOut (s.afterEdge i g) = { topOut s with maskQ := (topOut (s.afterEdge i g)).maskQ } := rfl

/-- Without an offered message `msg_valid` is 0 (R82). -/
theorem topOut_msgValid {s : State} (h : s.seq.sub ≠ .send) : (topOut s).msgValid = false := by simp [topOut, h]

/-- Without an offered flush `flush_valid` is 0 (R82). -/
theorem topOut_flushValid {s : State} (h : s.seq.sub ≠ .flush) : (topOut s).flushValid = false := by simp [topOut, h]

/-! A run of edges. -/

/-- An edge that logs nothing, before a run that completes the offer. -/
theorem completesIn_cons_held {i : TopIn} {run : List TopIn} {s b : State} {e : TxEvent} (hb : seqEdge i s = .ok b)
    (hlog : b.txLog = s.txLog) (h : completesIn run b e) : completesIn (i :: run) s e := by
  obtain ⟨n, x, y, hn, hx, hxlog, hy, hylog⟩ := h
  rw [hlog] at hxlog hylog
  refine ⟨n + 1, x, y, Nat.succ_lt_succ hn, ?_, hxlog, ?_, hylog⟩
  · rw [List.take_succ_cons, seqEdges, hb]
    exact hx
  · rw [List.take_succ_cons, seqEdges, hb]
    exact hy

/-- The edge that completes the offer, whatever follows. -/
theorem completesIn_cons_taken {i : TopIn} {run : List TopIn} {s b : State} {e : TxEvent} (hb : seqEdge i s = .ok b)
    (hlog : b.txLog = s.txLog ++ [e]) : completesIn (i :: run) s e := by
  refine ⟨0, s, b, Nat.succ_pos _, rfl, rfl, ?_, hlog⟩
  simp only [List.take_succ_cons, List.take_zero, seqEdges, hb]

/-- R129, R153 (b): an offer that every edge either takes or holds is completed on a run that takes it in the end. -/
theorem completesIn_of_held {u : Sub} {e : TxEvent} {Offers : State → Prop}
    (hedge : ∀ (s : State) (i : TopIn), Offers s → ∃ b, seqEdge i s = .ok b ∧
      if i.accepts u then b.txLog = s.txLog ++ [e] else b.txLog = s.txLog ∧ Offers b)
    (run : List TopIn) {s : State} (h : Offers s) (ha : transportAnswers u run = true) : completesIn run s e := by
  induction run generalizing s with
  | nil => exact nomatch ha
  | cons i run ih =>
    obtain ⟨b, hb, hlog⟩ := hedge s i h
    cases hi : i.accepts u with
    | true =>
      rw [hi] at hlog
      exact completesIn_cons_taken hb hlog
    | false =>
      rw [hi] at hlog
      rw [transportAnswers, List.any_cons, hi] at ha
      exact completesIn_cons_held hb hlog.1 (ih hlog.2 ha)

/-- The message `m` is offered. -/
structure OffersMessage (m : Message) (s : State) : Prop where
  sub : s.seq.sub = .send
  phase : s.seq.phase ≠ .unused3
  msg : Message.unpack s.seq.out = m

/-- A flush is offered. -/
structure OffersFlush (s : State) : Prop where
  sub : s.seq.sub = .flush
  phase : s.seq.phase = .drain ∨ s.seq.phase = .sample

theorem OffersMessage.completes {m : Message} {s : State} (h : OffersMessage m s) (run : List TopIn)
    (ha : transportAnswers .send run = true) : completesIn run s (.send m) := by
  refine completesIn_of_held (Offers := OffersMessage m) (fun s i hs => ⟨_, seqEdge_send hs.sub hs.phase, ?_⟩) run h ha
  cases hi : i.msgReady with
  | true =>
    rw [TopIn.accepts, hi, ← hs.msg]
    rfl
  | false =>
    rw [TopIn.accepts, hi]
    exact ⟨rfl, hs.sub, hs.phase, hs.msg⟩

theorem OffersFlush.completes {s : State} (h : OffersFlush s) (run : List TopIn) (ha : transportAnswers .flush run = true) :
    completesIn run s .flush := by
  refine completesIn_of_held (Offers := OffersFlush) (fun s i hs => ⟨_, seqEdge_flush hs.sub hs.phase, ?_⟩) run h ha
  cases hi : i.flushReady with
  | true =>
    rw [TopIn.accepts, hi]
    rfl
  | false =>
    rw [TopIn.accepts, hi]
    exact ⟨rfl, hs.sub, hs.phase⟩

/-- In a good state an offer is made while draining or sampling (R128). -/
theorem Inv.offer_phase {s : State} (h : Inv s) (hb : s.seq.sub = .send ∨ s.seq.sub = .flush) :
    s.seq.phase = .drain ∨ s.seq.phase = .sample := by
  cases hp : s.seq.phase with
  | wait => exact absurd hp (h.seq.busyNotWait hb)
  | drain => exact .inl rfl
  | sample => exact .inr rfl
  | unused3 => exact absurd hp h.seq.phaseUsed

/-- Settles O58: the edge is the row of the offer, SEND or FLUSH, with the transport ready and not, and a run is an induction on its
edges. -/
theorem offerHeldUntilReady : Obligations.OfferHeldUntilReady := by
  intro g i s h ht hh hb
  rcases hb with hs | hs
  · have hedge := readEdge_of_seqEdge (g := g) ht hh (seqEdge_send (i := i) hs h.seq.phaseUsed)
    obtain ⟨hdebounce, hparser, htick, hfifo⟩ := ((SameUnits.sent s).of_ready i.msgReady).afterEdge i g
    refine ⟨_, hedge, hdebounce, hparser, htick, hfifo, fun _ => ⟨Message.unpack s.seq.out, (topOutputs hh).msgValid.2 hs,
      (topOutputs hh).msg.trans (if_pos hs), fun hi => ?_, fun hi => ?_, OffersMessage.completes ⟨hs, h.seq.phaseUsed, rfl⟩⟩,
      fun hf => nomatch hs.symm.trans hf⟩
    · rw [hi]
      exact ⟨topOut_afterEdge_held s i g, rfl⟩
    · rw [hi]
      exact ⟨rfl, topOut_msgValid nofun, (topOutputs (s := s.sent.afterEdge i g) hh).flushValid.2 rfl⟩
  · have hphase := h.offer_phase (.inr hs)
    have hedge := readEdge_of_seqEdge (g := g) ht hh (seqEdge_flush (i := i) hs hphase)
    obtain ⟨hdebounce, hparser, htick, hfifo⟩ := ((SameUnits.flushed s).of_ready i.flushReady).afterEdge i g
    refine ⟨_, hedge, hdebounce, hparser, htick, hfifo, fun hf => (nomatch hs.symm.trans hf),
      fun _ => ⟨(topOutputs hh).flushValid.2 hs, fun hi => ?_, fun hi => ?_, OffersFlush.completes ⟨hs, hphase⟩⟩⟩
    · rw [hi]
      exact ⟨topOut_afterEdge_held s i g, rfl⟩
    · have hidle : (s.flushed.afterEdge i g).seq.sub = .idle := State.flushed_sub h.seq.noRelPend
      rw [hi]
      exact ⟨rfl, topOut_msgValid fun hsend => (nomatch hidle.symm.trans hsend),
        topOut_flushValid fun hflush => nomatch hidle.symm.trans hflush⟩

end Sys2Proof.Machine
end

section
/-! PROOFS. A run of the sequencer's FSM with a ready transport is one BSTEP (00_scope.md R5, 43_bridge.md R122 to R125, R128). -/

namespace Sys2Proof.Machine

open Sys2Proof

/-! Runs of accepted cycles. -/

/-- Every run of `k` cycles at level `r` in which the transport accepts every offer leads from `s` to `t`, whatever the free inputs
are, which have their effect beside (R128). -/
def RunsTo (r : Bool) (k : Nat) (s t : State) : Prop :=
  ∀ run : List TopIn, run.length = k → run.all (TopIn.acceptsAll r) = true → seqEdges run s = .ok (t.afterInputs run)

theorem seqEdges_append {a b : List TopIn} {s t : State} (h : seqEdges a s = .ok t) : seqEdges (a ++ b) s = seqEdges b t := by
  induction a generalizing s with
  | nil => cases h; rfl
  | cons i a ih =>
    simp only [seqEdges, List.cons_append] at h ⊢
    cases he : seqEdge i s with
    | ok u => rw [he] at h; exact ih h
    | error e => rw [he] at h; exact nomatch h

section Runs

variable {r : Bool} {s t u : State}

/-- One edge. -/
theorem RunsTo.edge (h : ∀ i : TopIn, i.rawActive = r → i.msgReady = true → i.flushReady = true →
    seqEdge i s = .ok (t.afterInputs [i])) : RunsTo r 1 s t := by
  intro run hlen hall
  obtain ⟨i, rfl⟩ := List.length_eq_one_iff.1 hlen
  have hi : (i.rawActive = r ∧ i.msgReady = true) ∧ i.flushReady = true := by simpa [TopIn.acceptsAll] using hall
  obtain ⟨⟨hraw, hmsg⟩, hflush⟩ := hi
  simp only [seqEdges, h i hraw hmsg hflush]

/-- One run after another, which is one from the state the first leaves with any effect of the free inputs. -/
theorem RunsTo.trans {j k : Nat} (h : RunsTo r j s u) (hu : ∀ pre, RunsTo r k (u.afterInputs pre) (t.afterInputs pre)) :
    RunsTo r (j + k) s t := by
  intro run hlen hall
  obtain ⟨a, b, rfl, ha, hb⟩ : ∃ a b, run = a ++ b ∧ a.length = j ∧ b.length = k :=
    ⟨run.take j, run.drop j, (List.take_append_drop ..).symm, by simp [hlen], by simp [hlen]⟩
  rw [List.all_append, Bool.and_eq_true] at hall
  rw [seqEdges_append (h a ha hall.1), hu a b hb hall.2, State.afterInputs_append]

end Runs

/-! The handshakes. -/

section Handshakes

variable {r : Bool} {s : State} {m : Message}

/-- A flush done does not look at what the free inputs write. -/
theorem State.flushed_afterInputs (s : State) (run : List TopIn) : (s.afterInputs run).flushed = s.flushed.afterInputs run := by
  rcases s.flushed_cases with hp | ⟨hp, hr⟩ | ⟨hp, hr⟩
  · rw [State.flushed_of_not_sample hp, State.flushed_of_not_sample (by exact hp)]
    rfl
  · rw [State.flushed_sample hp hr, State.flushed_sample (by exact hp) (by exact hr)]
    rfl
  · rw [State.flushed_release hp hr, State.flushed_release (by exact hp) (by exact hr)]
    rfl

/-- R129: an offered message is sent, and an edge later its flush is done. -/
theorem runsTo_handshake (hs : s.seq.sub = .send) (hp : s.seq.phase = .drain ∨ s.seq.phase = .sample) :
    RunsTo r 2 s s.sent.flushed := by
  have hused : s.seq.phase ≠ .unused3 := by rcases hp with hp | hp <;> rw [hp] <;> decide
  have hsend : RunsTo r 1 s s.sent := .edge fun i _ hm _ => by rw [seqEdge_send hs hused, hm]; rfl
  refine hsend.trans fun pre => .edge fun i _ _ hf => ?_
  rw [seqEdge_flush (by exact rfl) (by exact hp), hf, ← State.flushed_afterInputs]
  rfl

/-- The same from a state with any effect of the free inputs. -/
theorem runsTo_handshake_after (hs : s.seq.sub = .send) (hp : s.seq.phase = .drain ∨ s.seq.phase = .sample) (pre : List TopIn) :
    RunsTo r 2 (s.afterInputs pre) (s.sent.flushed.afterInputs pre) := by
  rw [← State.flushed_afterInputs]
  exact runsTo_handshake (s := s.afterInputs pre) hs hp

/-- R73: what is offered of a message of group 0 is the message. -/
theorem Message.unpack_pack_group {m : Message} (hm : m.group = 0) : Message.unpack m.pack = m := by
  rw [Message.unpack_pack, ← hm]

/-- R125: a handshake in DRAIN emits the message. -/
theorem State.handshake_drain (hi : s.seq.sub = .idle) (hp : s.seq.phase = .drain) {rel : Bool}
    (hr : s.seq.relPend = rel) (hm : m.group = 0) : (s.offering m rel).sent.flushed = s.emit m := by
  subst hr
  have hne : (s.offering m s.seq.relPend).sent.seq.phase ≠ .sample := fun h => nomatch hp.symm.trans h
  rw [State.flushed_of_not_sample hne, State.emit, ← hi, State.sent]
  simp only [State.offering, State.withSeq, State.logTx, Message.unpack_pack_group hm]

/-- A handshake in SAMPLE emits the message and ends the iteration, with no release waiting. -/
theorem State.handshake_sample (hp : s.seq.phase = .sample) (hi : s.seq.sub = .idle) (hr : s.seq.relPend = false)
    (hm : m.group = 0) : (s.offering m false).sent.flushed = (s.emit m).toPhase .wait := by
  rw [State.flushed_sample (by exact hp) rfl, State.toPhase, State.emit, ← hi, ← hr, State.sent]
  simp only [State.offering, State.withSeq, State.logTx, Message.unpack_pack_group hm]

/-- One that a release waits behind emits the message and offers the release's. -/
theorem State.handshake_release (hp : s.seq.phase = .sample) (hm : m.group = 0) :
    (s.offering m true).sent.flushed = (s.emit m).offering (noteOffMsg s.cfg) false := by
  rw [State.flushed_release (by exact hp) rfl, State.emit, State.sent]
  simp only [State.offering, State.withSeq, State.logTx, Message.unpack_pack_group hm]

end Handshakes

/-- One to six accepted cycles lead from `s` to `t` but for the observation, and no unit has written the mask. -/
def ReachedByEdges (r : Bool) (s t : State) : Prop :=
  t.parser.mask = s.parser.mask ∧ ∃ k, 1 ≤ k ∧ k ≤ 6 ∧ RunsTo r k s { t with obs := s.obs }

/-- A BSTEP's report is its observation (log 4). -/
theorem ReachedByEdges.report {r : Bool} {k : Nat} {s u : State} (h : RunsTo r k s u) (hk : 1 ≤ k ∧ k ≤ 6)
    (hmask : u.parser.mask = s.parser.mask) (hobs : u.obs = s.obs) (x : Result) (o : Option ParseOutcome) (c : Option Cause) :
    ReachedByEdges r s (u.report x o c) := by
  obtain ⟨hlow, hhigh⟩ := hk
  refine ⟨hmask, k, hlow, hhigh, ?_⟩
  rw [← hobs]
  exact h

/-! WAIT. -/

/-- R122, R128: in WAIT both levels take one step. -/
theorem reached_wait {r : Bool} {s t : State} (hi : s.seq.sub = .idle) (hp : s.seq.phase = .wait) (h : bstepWait s = .next t) :
    ReachedByEdges r s t := by
  cases ht : s.seq.tickPending with
  | true =>
    rw [bstepWait, if_pos ht] at h
    cases h
    exact .report (.edge fun i _ _ _ => seqEdge_wait_start hi hp ht) (by decide) rfl rfl ..
  | false =>
    rw [bstepWait, ht] at h
    cases h
    exact .report (.edge fun i _ _ _ => seqEdge_wait_hold hi hp ht) (by decide) rfl rfl ..

/-! DRAIN. -/

/-- R123: what a drain that completes has done. -/
theorem bstepDrain_next {s t : State} (h : bstepDrain s = .next t) :
    (rempty s.fifo = true ∧ t = (s.toPhase .sample).report .unit none (some .queueEmpty)) ∨
      ∃ f v x, s.fifo.pop s.cfg = .ok (f, some v) ∧ s.parser.parse s.cfg (itemByte s.cfg v) = .ok x ∧
        bstepParsed (s.withFifo f) x = .next t := by
  rcases Fifo.pop_cases s.cfg s.fifo with ⟨he, hpop⟩ | ⟨-, v, -, hpop⟩ | ⟨-, -, hpop⟩
  · cases (bstepDrain_empty hpop).symm.trans h
    exact .inl ⟨he, rfl⟩
  · cases hx : s.parser.parse s.cfg (itemByte s.cfg v) with
    | error e => exact nomatch (bstepDrain_parse_error hpop hx).symm.trans h
    | ok x => exact .inr ⟨_, v, x, hpop, hx, (bstepDrain_item hpop hx).symm.trans h⟩
  · exact nomatch (bstepDrain_pop_error hpop).symm.trans h

/-- R123, R128: a drain without a completed message is one edge, and with one it is three. -/
theorem reached_drain {r : Bool} {s t : State} (hi : s.seq.sub = .idle) (hp : s.seq.phase = .drain) (h : bstepDrain s = .next t) :
    ReachedByEdges r s t := by
  rcases bstepDrain_next h with ⟨he, rfl⟩ | ⟨f, v, x, hpop, hx, ht⟩
  · exact .report (.edge fun i _ _ _ => seqEdge_drain_empty hi hp he) (by decide) rfl rfl ..
  · have hrow : RunsTo r 1 s (s.drained f x) := .edge fun i _ _ _ => seqEdge_drain_item hi hp hpop hx
    cases hm : x.message with
    | none =>
      rw [State.drained_none hm] at hrow
      cases (bstepParsed_none hm).symm.trans ht
      exact .report hrow (by decide) (Parser.parse_mask hx) rfl ..
    | some m =>
      rw [State.drained_some hm] at hrow
      cases (bstepParsed_some hm).symm.trans ht
      have hrun := hrow.trans fun pre => runsTo_handshake_after (by exact rfl) (.inl (by exact hp)) pre
      rw [State.handshake_drain (s := (s.withFifo f).withParser x.parser) hi hp (rel := s.seq.relPend) rfl
        (Parser.parse_group hx hm)] at hrun
      exact .report hrun (by decide) (Parser.parse_mask hx) rfl ..

/-! SAMPLE. -/

/-- The sequencer of `s` between its sample, which leaves `d`, and the take. -/
def State.sampled (s : State) (d : Debounce) : State := (s.withDebounce d).withSeq { s.seq with sub := .take }

section Sample

variable {r : Bool} {s : State} {d : Debounce}

/-- R124 (ii): the take of a press offers its message, with the release it took waiting behind. -/
theorem runsTo_take_press (hp : s.seq.phase = .sample) (h : d.pressed = true) (pre : List TopIn) :
    RunsTo r 1 ((s.sampled d).afterInputs pre)
      (((s.withDebounce d.takePressed.takeReleased).offering (noteOnMsg s.cfg) d.released).afterInputs pre) :=
  .edge fun i _ _ _ => by
    rw [seqEdge_take (by exact rfl) (by exact hp), fsmTake_press (by exact h)]
    rfl

/-- The take of a release alone offers its message. -/
theorem runsTo_take_release (hp : s.seq.phase = .sample) (h : d.pressed = false) (hd : d.released = true) (pre : List TopIn) :
    RunsTo r 1 ((s.sampled d).afterInputs pre)
      (((s.withDebounce d.takePressed.takeReleased).offering (noteOffMsg s.cfg) s.seq.relPend).afterInputs pre) :=
  .edge fun i _ _ _ => by
    rw [seqEdge_take (by exact rfl) (by exact hp), fsmTake_release (by exact h) (by exact hd)]
    rfl

/-- One of neither ends the iteration. -/
theorem runsTo_take_none (hi : s.seq.sub = .idle) (hp : s.seq.phase = .sample) (h : d.pressed = false) (hd : d.released = false)
    (pre : List TopIn) :
    RunsTo r 1 ((s.sampled d).afterInputs pre) (((s.withDebounce d.takePressed.takeReleased).toPhase .wait).afterInputs pre) :=
  .edge fun i _ _ _ => by
    rw [seqEdge_take (by exact rfl) (by exact hp), fsmTake_none (by exact h) (by exact hd), ← hi]
    rfl

end Sample

/-- R124: what a BSTEP in SAMPLE emits by the flags its sample leaves. -/
theorem bstepSample_next {r : Bool} {s t : State} {d : Debounce} (hd : s.debounce.sample s.cfg r = d)
    (h : bstepSample r s = .next t) :
    t = ((((s.withDebounce d.takePressed.takeReleased).emitIf d.pressed (noteOnMsg s.cfg)).emitIf d.released
      (noteOffMsg s.cfg)).toPhase .wait).report .unit := by
  subst hd
  cases h
  rfl

/-- R124, R128: a sample without an event is two edges, with one it is four, and with both it is six. -/
theorem reached_sample {r : Bool} {s t : State} (hi : s.seq.sub = .idle) (hp : s.seq.phase = .sample) (hr : s.seq.relPend = false)
    (h : bstepSample r s = .next t) : ReachedByEdges r s t := by
  obtain ⟨d, hd⟩ : ∃ d, s.debounce.sample s.cfg r = d := ⟨_, rfl⟩
  have hrow : RunsTo r 1 s (s.sampled d) := .edge fun i hraw _ _ => by rw [seqEdge_sample hi hp, hraw, hd]; rfl
  have hshake := fun (m : Message) (hm : m.group = 0) =>
    State.handshake_sample (s := s.withDebounce d.takePressed.takeReleased) hp hi hr hm
  rw [bstepSample_next hd h]
  cases hpress : d.pressed with
  | false =>
    cases hrelease : d.released with
    | false =>
      exact .report (hrow.trans (runsTo_take_none hi hp hpress hrelease)) (by decide) (by simp) (by simp) ..
    | true =>
      have hrun := (hrow.trans (runsTo_take_release hp hpress hrelease)).trans
        (runsTo_handshake_after (by exact rfl) (.inr (by exact hp)))
      rw [hr, hshake _ rfl] at hrun
      exact .report hrun (by decide) (by simp) (by simp) ..
  | true =>
    have hrun := (hrow.trans (runsTo_take_press hp hpress)).trans (runsTo_handshake_after (by exact rfl) (.inr (by exact hp)))
    cases hrelease : d.released with
    | false =>
      rw [hrelease, hshake _ rfl] at hrun
      exact .report hrun (by decide) (by simp) (by simp) ..
    | true =>
      rw [hrelease, State.handshake_release (by exact hp) rfl] at hrun
      have hboth := hrun.trans (runsTo_handshake_after (by exact rfl) (.inr (by exact hp)))
      rw [State.handshake_sample (by exact hp) (by exact hi) (by exact hr) rfl, State.withDebounce_cfg] at hboth
      exact .report hboth (by decide) (by simp) (by simp) ..

/-- Settles O56: phase by phase, the FSM's rows with every offer accepted lead where the BSTEP does. -/
theorem sequencerRunIsBstep : Obligations.SequencerRunIsBstep := by
  intro r s t ht hi hr h
  have hreached : ReachedByEdges r s t := by
    cases hp : s.seq.phase with
    | wait => exact reached_wait hi hp ((exec_bstep_wait r ht hi hp).symm.trans h)
    | drain => exact reached_drain hi hp ((exec_bstep_drain r ht hi hp).symm.trans h)
    | sample => exact reached_sample hi hp hr ((exec_bstep_sample r ht hi hp).symm.trans h)
    | unused3 => exact nomatch (exec_bstep_unused r ht hi hp).symm.trans h
  obtain ⟨hmask, k, hlow, hhigh, hrun⟩ := hreached
  refine ⟨k, hlow, hhigh, fun run hlen hall => ?_⟩
  rw [hrun run hlen hall, ← hmask]
  rfl

end Sys2Proof.Machine
end

section
/-! PROOFS. A transaction that is not well formed is refused, in a running domain and in a held one, so that no run gets past a bad
host step of its trace (43_bridge.md R132, 30_encoding.md R64, 60_exceptions.md R138, 70_reset_and_hazards.md R149). -/

namespace Sys2Proof.Machine

open Sys2Proof

/-! The transactions. -/

section Words

variable {s : State} {i : Instr}

/-- In a legal configuration a transaction that is not well formed lacks the port or the width. -/
theorem not_wellFormed_iff (hl : s.cfg.legal = true) :
    i.wellFormed s.cfg = false ↔ i.admitted s.cfg.top = false ∨ i.widthOk s.cfg = false := by
  rw [Instr.wellFormed, hl, Bool.true_and, Bool.and_eq_false_iff]

/-- R132: the guard of the units' own words refuses them where TOP_CONFIG is not UNIT. -/
theorem unitOnly_without_port {k : StepResult} (h : (s.cfg.top == .unit) = false) : unitOnly s k = .refused .notInConfig := by
  cases ht : s.cfg.top with
  | unit => rw [ht] at h; exact nomatch h
  | integrated => exact unitOnly_of_integrated ht k

/-- R132: the guard of the sequencer's words refuses them where TOP_CONFIG is not INTEGRATED. -/
theorem integratedOnly_without_port {k : StepResult} (h : (s.cfg.top == .integrated) = false) :
    integratedOnly s k = .refused .notInConfig := by
  cases ht : s.cfg.top with
  | unit => exact integratedOnly_of_unit ht k
  | integrated => rw [ht] at h; exact nomatch h

/-- R132: a transaction the top has no port for is refused so. -/
theorem exec_without_port (ha : i.admitted s.cfg.top = false) : exec i s = .refused .notInConfig := by
  cases i with
  | push _ | wlevel | syncw | syncr | setmask _ => exact nomatch ha
  | pop | size | empty | capacity | parse _ | sample _ | takep | taker => exact unitOnly_without_port ha
  | bstep _ | tick => exact integratedOnly_without_port ha

/-- R64 (e): of the transactions only a PUSH asks for a width, and at another one it is refused. -/
theorem exec_other_width (hw : i.widthOk s.cfg = false) : exec i s = .refused .illegalWord := by
  cases i with
  | push _ => exact if_neg (beq_eq_false_iff_ne.1 hw)
  | _ => exact nomatch hw

/-- A transaction that is not well formed is refused in a running domain (R132, R64 (e)). -/
theorem exec_not_wellFormed (hl : s.cfg.legal = true) (hw : i.wellFormed s.cfg = false) : ∃ r, exec i s = .refused r := by
  rcases (not_wellFormed_iff hl).1 hw with ha | hw
  · exact ⟨_, exec_without_port ha⟩
  · exact ⟨_, exec_other_width hw⟩

/-- A transaction that is not well formed is refused in a held domain as well (R150). -/
theorem ignoreInstr_not_wellFormed (hl : s.cfg.legal = true) (hw : i.wellFormed s.cfg = false) :
    ∃ r, ignoreInstr i s = .refused r := by
  rw [not_wellFormed_iff hl] at hw
  unfold ignoreInstr
  split
  · next ha =>
    have hwidth : i.widthOk s.cfg = false := hw.resolve_left (by rw [ha]; decide)
    exact ⟨_, if_neg (by rw [hwidth]; decide)⟩
  · exact ⟨_, rfl⟩

theorem runInstr_not_wellFormed (hl : s.cfg.legal = true) (hw : i.wellFormed s.cfg = false) : ∃ r, runInstr i s = .refused r := by
  unfold runInstr
  split
  · exact ignoreInstr_not_wellFormed hl hw
  · exact exec_not_wellFormed hl hw

theorem runHostStep_of_decode {w : Word} (hd : decodeWord w = .ok i) : runHostStep (.word w) s = runInstr i s := by
  rw [runHostStep, runWord, hd]

/-- R64: a word the decoder refuses is refused. -/
theorem runHostStep_illegal {w : Word} {r : IllegalReason} (hd : decodeWord w = .error r) :
    runHostStep (.word w) s = .refused .illegalWord := by
  rw [runHostStep, runWord, hd]

end Words

/-! The runs. -/

/-- R138: a host step no run under the configuration gets past: a word the decoder refuses, a word that is not well formed, or a
reset of one domain alone. -/
def HostStep.EndsRun (c : Config) (e : HostStep) : Prop :=
  (∃ w r, e = .word w ∧ decodeWord w = .error r) ∨
    (∃ w i, e = .word w ∧ decodeWord w = .ok i ∧ i.wellFormed c = false) ∨ ∃ d, e = .resetOne d

/-- Such a host step is refused (R64, R132, R149). -/
theorem HostStep.EndsRun.refused {s : State} {e : HostStep} (h : e.EndsRun s.cfg) (hl : s.cfg.legal = true) :
    ∃ r, runHostStep e s = .refused r := by
  rcases h with ⟨w, r, rfl, hd⟩ | ⟨w, i, rfl, hd, hw⟩ | ⟨d, rfl⟩
  · exact ⟨_, runHostStep_illegal hd⟩
  · rw [runHostStep_of_decode hd]
    exact runInstr_not_wellFormed hl hw
  · exact ⟨_, rfl⟩

/-- A step that meets one is refused, under an illegal configuration before it is looked at (R12). -/
theorem HostStep.EndsRun.step_refused {s : State} {e : HostStep} {rest : List HostStep} (h : e.EndsRun s.cfg)
    (ht : s.trace = e :: rest) : ∃ r, step s = .refused r := by
  cases hl : s.cfg.legal with
  | false => exact ⟨_, (step_badConfig_iff s).2 hl⟩
  | true =>
    rw [step_of_legal hl ht]
    exact HostStep.EndsRun.refused (s := s.withTrace rest) h hl

/-- A run that meets a step with no next state ends there, whatever steps are left (R138). -/
theorem run_ends {s : State} (h : ∀ t, step s ≠ .next t) (k j : Nat) :
    (∀ t, Host.Core.run Sys2Proof.core (k + 1) s ≠ .next t) ∧
      Host.Core.run Sys2Proof.core (k + 1) s = Host.Core.run Sys2Proof.core (j + 1) s := by
  cases hs : step s with
  | next t => exact absurd hs (h t)
  | fault e =>
    rw [run_succ_fault hs k, run_succ_fault hs j]
    exact ⟨fun _ h => (nomatch h), rfl⟩
  | refused r =>
    rw [run_succ_refused hs k, run_succ_refused hs j]
    exact ⟨fun _ h => (nomatch h), rfl⟩

/-- Settles O10, by induction on the host steps before the bad one: a step that completes leaves a shorter trace under the same
parameters, and one that does not ends the run. -/
theorem refusalEndsRun : Obligations.RefusalEndsRun := by
  intro s before rest bad k (hends : bad.EndsRun s.cfg) htrace hk
  obtain ⟨k, rfl⟩ := Nat.exists_eq_add_one_of_ne_zero (Nat.ne_zero_of_lt hk)
  induction before generalizing s k with
  | nil =>
    obtain ⟨r, hr⟩ := hends.step_refused htrace
    exact run_ends (fun _ ht => nomatch hr.symm.trans ht) k 0
  | cons e before ih =>
    by_cases hs : ∃ u, step s = .next u
    · obtain ⟨u, hs⟩ := hs
      obtain ⟨hcfg, htail⟩ := stepKeepsParameters s u hs
      obtain ⟨k, rfl⟩ := Nat.exists_eq_add_one_of_ne_zero (Nat.ne_zero_of_lt (Nat.lt_of_succ_lt_succ hk))
      rw [List.length_cons, run_succ_next hs, run_succ_next hs]
      exact ih u (by rw [hcfg]; exact hends) (by rw [htail, htrace]; rfl) k (Nat.lt_of_succ_lt_succ hk)
    · exact run_ends (not_exists.1 hs) k _

end Sys2Proof.Machine
end

section
/-! PROOFS. In a good state a transaction with a port completes, a host step completes exactly where the host is given it, and no
step faults (00_scope.md R5, 43_bridge.md R132, 60_exceptions.md R133). -/

namespace Sys2Proof.Machine

open Sys2Proof

/-! The transactions. -/

/-- R122 to R124: in a good state between handshakes a BSTEP completes, in every phase that is used. -/
theorem Inv.bstep_completes {s : State} (h : Inv s) (ht : s.cfg.top = .integrated) (hi : s.seq.sub = .idle) (r : Bool) :
    ∃ t, Machine.exec (.bstep r) s = .next t := by
  cases hp : s.seq.phase with
  | wait =>
    obtain ⟨t, hs, -⟩ := h.bstepWait ht hi
    exact ⟨t, (exec_bstep_wait r ht hi hp).trans hs⟩
  | drain =>
    obtain ⟨t, hs, -⟩ := h.bstepDrain ht hi
    exact ⟨t, (exec_bstep_drain r ht hi hp).trans hs⟩
  | sample =>
    obtain ⟨t, hs, -⟩ := h.bstepSample ht hi r
    exact ⟨t, (exec_bstep_sample r ht hi hp).trans hs⟩
  | unused3 => exact absurd hp h.seq.phaseUsed

/-- R99: in a good state of the unit top a PARSE completes. -/
theorem Inv.parse_completes {s : State} (h : Inv s) (hu : s.cfg.top = .unit) (b : Byte) :
    ∃ t, Machine.exec (.parse b) s = .next t := by
  obtain ⟨r, hr, -⟩ := h.parser.parse s.cfg b
  exact ⟨_, exec_parse_ok hu hr⟩

/-- R83: with DATA_W = 8 a PUSH completes, into a full buffer too. -/
theorem exec_push_completes {s : State} (h8 : s.cfg.dataW = 8) (v : Byte) : ∃ t, exec (.push v) s = .next t := by
  rw [exec, execPush_eq v h8]
  exact ⟨_, rfl⟩

/-- R85: in a good state of the unit top a POP completes. -/
theorem Inv.pop_completes {s : State} (h : Inv s) (hu : s.cfg.top = .unit) : ∃ t, Machine.exec .pop s = .next t := by
  obtain ⟨t, ht, -⟩ := popsFollowPushOrder s h hu
  exact ⟨t, ht⟩

/-- R132: in a good state a well-formed transaction completes, a BSTEP being one between handshakes (log 7). -/
theorem Inv.exec_completes {s : State} (h : Inv s) {i : Instr} (hw : i.wellFormed s.cfg = true)
    (hi : ∀ r, i = .bstep r → s.seq.sub = .idle) : ∃ t, Machine.exec i s = .next t := by
  simp only [Instr.wellFormed, Bool.and_eq_true] at hw
  obtain ⟨⟨-, ha⟩, hwidth⟩ := hw
  cases i with
  | push v => exact exec_push_completes (eq_of_beq hwidth) v
  | pop => exact h.pop_completes (eq_of_beq ha)
  | parse b => exact h.parse_completes (eq_of_beq ha) b
  | bstep r => exact h.bstep_completes (eq_of_beq ha) (hi r rfl) r
  | wlevel | syncw | syncr | setmask _ => exact ⟨_, rfl⟩
  | size | empty | capacity | sample _ | takep | taker => exact ⟨_, unitOnly_of_unit (eq_of_beq ha) _⟩
  | tick => exact ⟨_, integratedOnly_of_integrated (eq_of_beq ha) _⟩

/-! The host steps. -/

/-- A step that completes where `given` says so, is refused elsewhere, and so never faults. -/
def CompletesWhere (given : Bool) (r : StepResult) : Prop :=
  (given = true ∧ ∃ t, r = .next t) ∨ (given = false ∧ ∃ e, r = .refused e)

theorem CompletesWhere.iff {given : Bool} {r : StepResult} (h : CompletesWhere given r) : (∃ t, r = .next t) ↔ given = true := by
  rcases h with ⟨hg, ht⟩ | ⟨hg, e, rfl⟩
  · exact iff_of_true ht hg
  · exact iff_of_false (not_exists.2 fun _ h => nomatch h) (by rw [hg]; decide)

theorem CompletesWhere.not_fault {given : Bool} {r : StepResult} (h : CompletesWhere given r) (f : Fault) : r ≠ .fault f := by
  rcases h with ⟨-, t, rfl⟩ | ⟨-, e, rfl⟩ <;> nofun

/-- A well-formed transaction in a running domain completes but for a BSTEP inside a handshake or a take (log 7). -/
theorem Inv.exec_completesWhere {s : State} (h : Inv s) {i : Instr} (hw : i.wellFormed s.cfg = true) :
    CompletesWhere (s.seq.sub == .idle || i != .bstep false && i != .bstep true) (Machine.exec i s) := by
  by_cases hi : s.seq.sub = .idle
  · exact .inl ⟨by simp [hi], h.exec_completes hw fun _ _ => hi⟩
  · by_cases hb : ∃ r, i = .bstep r
    · obtain ⟨r, rfl⟩ := hb
      have ha : (Instr.bstep r).admitted s.cfg.top = true := by
        simp only [Instr.wellFormed, Bool.and_eq_true] at hw
        exact hw.1.2
      exact .inr ⟨by cases r <;> simp [hi], _, exec_bstep_busy r (eq_of_beq ha) hi⟩
    · simp only [not_exists] at hb
      exact .inl ⟨by simp [hb], h.exec_completes hw fun r hr => absurd hr (hb r)⟩

theorem HostStep.offered_of_decode {s : State} {w : Word} {i : Instr} (hd : decodeWord w = .ok i) :
    (HostStep.word w).offered s =
      (i.wellFormed s.cfg && (s.held i.domain || s.seq.sub == .idle || i != .bstep false && i != .bstep true)) := by
  simp only [HostStep.offered, hd]

/-- In a good state a word completes exactly where the host is given it, in a running domain and in a held one. -/
theorem Inv.word_completesWhere {s : State} (h : Inv s) (w : Word) :
    CompletesWhere ((HostStep.word w).offered s) (Machine.runHostStep (.word w) s) := by
  cases hd : decodeWord w with
  | error r => exact .inr ⟨by simp only [HostStep.offered, hd], _, runHostStep_illegal hd⟩
  | ok i =>
    rw [HostStep.offered_of_decode hd, runHostStep_of_decode hd]
    cases hw : i.wellFormed s.cfg with
    | false => exact .inr ⟨rfl, runInstr_not_wellFormed h.legal hw⟩
    | true =>
      unfold runInstr
      cases hh : s.held i.domain with
      | true => exact .inl ⟨rfl, _, ignoreInstr_of_wellFormed hw⟩
      | false => exact h.exec_completesWhere hw

/-- R94: a crossing of the write pointer completes exactly to a count of its range, held domain or not. -/
theorem crossW_completesWhere (v : Nat) (s : State) :
    CompletesWhere ((HostStep.crossW v).offered s) (runHostStep (.crossW v) s) := by
  by_cases hv : s.fifo.ghost.rqw ≤ v ∧ v ≤ s.fifo.ghost.w
  · refine .inl ⟨decide_eq_true hv, ?_⟩
    rw [runHostStep, rangeW, if_pos hv]
    split <;> exact ⟨_, rfl⟩
  · exact .inr ⟨decide_eq_false hv, _, crossW_outOfRange (by omega)⟩

/-- R94: a crossing of the read pointer completes exactly to a count of its range, held domain or not. -/
theorem crossR_completesWhere (v : Nat) (s : State) :
    CompletesWhere ((HostStep.crossR v).offered s) (runHostStep (.crossR v) s) := by
  by_cases hv : s.fifo.ghost.wqr ≤ v ∧ v ≤ s.fifo.ghost.r
  · refine .inl ⟨decide_eq_true hv, ?_⟩
    rw [runHostStep, rangeR, if_pos hv]
    split <;> exact ⟨_, rfl⟩
  · exact .inr ⟨decide_eq_false hv, _, crossR_outOfRange (by omega)⟩

/-- In a good state a host step completes exactly where the host is given it, and is refused elsewhere. -/
theorem Inv.hostStep_completesWhere {s : State} (h : Inv s) (e : HostStep) :
    CompletesWhere (e.offered s) (Machine.runHostStep e s) := by
  cases e with
  | word w => exact h.word_completesWhere w
  | reset | resetAssert | resetRelease _ => exact .inl ⟨rfl, _, rfl⟩
  | resetOne d => exact .inr ⟨rfl, _, rfl⟩
  | crossW v => exact crossW_completesWhere v s
  | crossR v => exact crossR_completesWhere v s
  | wclk w => exact h.edge_cases (.inl ⟨w, rfl⟩)
  | rclk r => exact h.edge_cases (.inr (.inl ⟨r, rfl⟩))
  | clk w r => exact h.edge_cases (.inr (.inr ⟨w, r, rfl⟩))

/-- R133: no step from a good state faults. -/
theorem Inv.step_not_fault {s : State} (h : Inv s) (f : Fault) : Machine.step s ≠ .fault f := by
  cases ht : s.trace with
  | nil => simp [Machine.step, nextStep, h.legal, ht]
  | cons e rest =>
    rw [step_of_legal h.legal ht]
    exact ((h.withTrace rest).hostStep_completesWhere e).not_fault f

/-- Settles O41: the invariant gives every unit what it reads, so what stops a host step is a guard the host knows of. -/
theorem everyAdmittedWordCompletes : Obligations.EveryAdmittedWordCompletes :=
  ⟨fun _ _ h hw hi => h.exec_completes hw hi, fun e _ h => (h.hostStep_completesWhere e).iff, fun _ f h => h.step_not_fault f⟩

end Sys2Proof.Machine
end

section
/-! PROOFS. A PUSH into a full buffer, and a PUSH beside a POP of the other domain (60_exceptions.md R134, R140 (b)). -/

namespace Sys2Proof.Machine

open Sys2Proof

/-- R83, R134: a push that meets a full buffer drops the item. -/
theorem pushItem_full {v : Nat} {s : State} (h : wfull s.cfg s.fifo = true) :
    pushItem v s = .next (s.report (.bool false) none (some .queueFull)) := by
  simp only [pushItem, h, Fifo.pushIf, if_true, Bool.not_true]
  rfl

/-- Settles O15: the level says full, and then neither the word nor the port pushes. -/
theorem pushFullDropsItem : Obligations.PushFullDropsItem := by
  intro v i s hlevel
  have hfull : wfull s.cfg s.fifo = true := beq_iff_eq.2 hlevel
  exact ⟨fun h8 => (execPush_eq v h8).trans (pushItem_full hfull), by simp [writeOut, hfull]⟩

/-- Outside the exact configuration a PUSH performs no SYNCW and a POP no SYNCR (R98). -/
theorem Fifo.fold_of_not_exact {c : Config} (hx : c.exact = false) (f : Fifo) : f.foldW c = f ∧ f.foldR c = f := by
  rw [Fifo.foldW, Fifo.foldR, hx]
  exact ⟨rfl, rfl⟩

/-- R140 (b): outside the exact configuration a push and the read cursor's advance move different registers. -/
theorem Fifo.take_pushIf {c : Config} (hx : c.exact = false) (full : Bool) (v x : Nat) (f : Fifo) :
    (f.pushIf c full v).take c x = (f.take c x).pushIf c full v := by
  cases full with
  | true => rfl
  | false =>
    simp only [Fifo.pushIf, (Fifo.fold_of_not_exact hx _).1]
    rfl

/-- R85: outside the exact configuration a POP of a written slot is the read cursor's advance. -/
theorem exec_pop_written {s : State} {x : Nat} (hu : s.cfg.top = .unit) (hx : s.cfg.exact = false)
    (hne : s.fifo.rptr ≠ s.fifo.rqWptr) (hread : Memory.read s.fifo.mem (s.fifo.rptr % s.cfg.n) = some x) :
    exec .pop s = .next ((s.withFifo (s.fifo.take s.cfg x)).report (.item (some x))) := by
  have hpop := Fifo.pop_written hne hread
  rw [(Fifo.fold_of_not_exact hx _).2] at hpop
  exact exec_pop_ok hu hpop

/-- Settles O50: the push writes no slot that holds an unread element, so both pops read the same one; neither operation moves what
the other looks at beside the slots. -/
theorem pushPopCommute : Obligations.PushPopCommute := by
  intro v s h hu h8 hx hne
  have hside := Fifo.pushIf_sameReadDomain hx (wfull s.cfg s.fifo) v.toNat s.fifo
  obtain ⟨x, holdest, hread⟩ := h.fifo.oldest h.legal (rempty_of_ne hne)
  have hslot : s.fifo.rptr % s.cfg.n = s.fifo.ghost.r % s.cfg.n := by
    rw [h.fifo.rptr]
    exact slotIdx_count h.legal _
  have hne' : (s.fifo.pushIf s.cfg (wfull s.cfg s.fifo) v.toNat).rptr ≠
      (s.fifo.pushIf s.cfg (wfull s.cfg s.fifo) v.toNat).rqWptr := by
    rw [hside.rptr, hside.rqWptr]
    exact hne
  have hread' : Memory.read (s.fifo.pushIf s.cfg (wfull s.cfg s.fifo) v.toNat).mem
      ((s.fifo.pushIf s.cfg (wfull s.cfg s.fifo) v.toNat).rptr % s.cfg.n) = some x := by
    rw [hside.rptr, hslot, ← holdest]
    exact pushKeepsUnread v s _ h (execPush_eq v h8) _ (le_refl _) (List.getElem?_eq_some_iff.1 holdest).1
  refine ⟨_, _, _, _, execPush_eq v h8, exec_pop_written hu hx hne' hread', exec_pop_written hu hx hne hread,
    execPush_eq v h8, rfl, rfl, ?_⟩
  exact congrArg (fun f => (s.withFifo f).report _ _ _) (Fifo.take_pushIf hx _ _ _ _).symm

end Sys2Proof.Machine
end

section
/-! PROOFS. The reset events: what they set, a release of rst_n in one domain, the boot order, and the reset of one domain alone
(10_state.md R39, 70_reset_and_hazards.md R148 to R150, R152). -/

namespace Sys2Proof.Machine

open Sys2Proof

/-- R39: the reset state has the reset values, with rst_n asserted in whichever domains. -/
theorem resetValues_atReset_withHeld (c : Config) (tr : List HostStep) (w r : Bool) :
    ResetValues c ((State.atReset c tr).withHeld w r) where
  wptr := rfl
  rptr := rfl
  rqWptr := rfl
  wqRptr := rfl
  wgray := rfl
  rgray := rfl
  w2r := rfl
  r2w := rfl
  ghost := rfl
  slots _ := rfl
  parser := rfl
  debounce := rfl
  seq := rfl
  txLog := rfl
  obs := rfl
  sinceTick := rfl

/-- R152 (1): the boot order's reset event leaves its SETMASK to come. -/
theorem step_boot_reset {s : State} {rest : List HostStep} (hl : s.cfg.legal = true) (ht : s.trace = bootTrace s.cfg ++ rest) :
    step s = .next (State.atReset s.cfg (.word (encode (.setmask s.cfg.filterCfg)) :: rest)) :=
  step_of_legal hl ht

/-- A SETMASK in the reset state sets the mask of the reset parser (R108). -/
theorem step_atReset_setmask {c : Config} (hl : c.legal = true) (m : Byte) (rest : List HostStep) :
    step (State.atReset c (.word (encode (.setmask m)) :: rest)) =
      .next ((State.atReset c rest).withParser ⟨m, 0, 0, 0, 0, 0⟩) := by
  have hstep := stepRunsDecodedInstr (State.atReset c (.word (encode (.setmask m)) :: rest)) _ _ rest hl rfl (decodeOfEncode _)
  exact hstep.1 rfl

/-- Settles O11: both events leave the reset state, a release clears its flag, and the boot order is a reset and a SETMASK. -/
theorem resetEventValues : Obligations.ResetEventValues := by
  intro s rest hl
  refine ⟨?_, step_of_legal hl, step_of_legal hl, fun ht => ?_⟩
  · rintro e held (⟨rfl, rfl⟩ | ⟨rfl, rfl⟩) ht
    · exact ⟨_, step_of_legal hl ht, resetValues_atReset_withHeld s.cfg rest false false, rfl, rfl, rfl, rfl⟩
    · exact ⟨_, step_of_legal hl ht, resetValues_atReset_withHeld s.cfg rest true true, rfl, rfl, rfl, rfl⟩
  · exact (run_succ_next (step_boot_reset hl ht) 1).trans (run_succ_next (step_atReset_setmask hl _ rest) 0)

/-- Settles O12: the host step is refused whatever the state. -/
theorem resetOneDomainRefused : Obligations.ResetOneDomainRefused := fun _ _ _ hl ht => step_of_legal hl ht

end Sys2Proof.Machine
end

section
/-! PROOFS. A domain held in reset: its ports, its words and crossings, and the edges of its clock (70_reset_and_hazards.md R150). -/

namespace Sys2Proof.Machine

open Sys2Proof

/-! Which registers one domain's edge leaves alone in every configuration, the exact one of R98 included. -/

/-- A read-domain edge moves neither the slots nor the write cursor (R86). -/
theorem readEdge_writeCursor {sampled : Nat} {i : ReadIn} {s t : State} (h : readEdge sampled i s = .next t) :
    t.fifo.mem = s.fifo.mem ∧ t.fifo.wptr = s.fifo.wptr ∧ t.fifo.wgray = s.fifo.wgray ∧
      t.fifo.ghost.pushed = s.fifo.ghost.pushed ∧ t.wHeld = s.wHeld := by
  cases hh : s.rHeld with
  | true =>
    cases (if_pos hh).symm.trans h
    exact ⟨rfl, rfl, rfl, rfl, rfl⟩
  | false =>
    obtain ⟨-, a, ha, rfl⟩ := readEdge_running hh h
    obtain ⟨⟨u, hu⟩, hframe⟩ := unitsEdge_ok ha
    have hheld : a.wHeld = s.wHeld := by rw [hframe]
    have hshift := Fifo.shiftW_sameWriteDomain a.cfg sampled a.fifo
    have hpop : a.fifo.mem = s.fifo.mem ∧ a.fifo.wptr = s.fifo.wptr ∧ a.fifo.wgray = s.fifo.wgray ∧
        a.fifo.ghost.pushed = s.fifo.ghost.pushed := by
      rcases popEdge_ok hu with hf | ⟨v, hf⟩ <;> rw [hf]
      · exact ⟨rfl, rfl, rfl, rfl⟩
      · obtain ⟨hmem, hwptr, -, hgray, -, hpushed, -⟩ := Fifo.take_writeSide s.cfg v s.fifo
        exact ⟨hmem, hwptr, hgray, hpushed⟩
    obtain ⟨hmem, hwptr, hgray, hpushed⟩ := hpop
    exact ⟨hshift.mem.trans hmem, hshift.wptr.trans hwptr, hshift.wgray.trans hgray, hshift.pushed.trans hpushed, hheld⟩

/-- A write-domain edge does not move the read cursor (R84). -/
theorem writeEdge_readCursor {full : Bool} {sampled : Nat} {i : WriteIn} {s t : State}
    (h : writeEdge full sampled i s = .next t) :
    t.fifo.rptr = s.fifo.rptr ∧ t.fifo.rgray = s.fifo.rgray ∧ t.fifo.ghost.popped = s.fifo.ghost.popped := by
  cases hh : s.wHeld with
  | true =>
    cases (if_pos hh).symm.trans h
    exact ⟨rfl, rfl, rfl⟩
  | false =>
    cases (writeEdge_running hh).symm.trans h
    have hshift := Fifo.shiftR_sameReadDomain s.cfg sampled (pushEdge full i s)
    have hpush : (pushEdge full i s).rptr = s.fifo.rptr ∧ (pushEdge full i s).rgray = s.fifo.rgray ∧
        (pushEdge full i s).ghost.popped = s.fifo.ghost.popped := by
      unfold pushEdge
      split
      · obtain ⟨hrptr, -, hgray, -, hpopped, -⟩ := Fifo.pushIf_readSide s.cfg full (i.item s.cfg) s.fifo
        exact ⟨hrptr, hgray, hpopped⟩
      · exact ⟨rfl, rfl, rfl⟩
    obtain ⟨hrptr, hgray, hpopped⟩ := hpush
    exact ⟨hshift.rptr.trans hrptr, hshift.rgray.trans hgray, hshift.popped.trans hpopped⟩

/-! The write domain held. -/

section WriteHeld

variable {s : State} (hw : s.wHeld = true)
include hw

theorem writeOut_held (w : WriteIn) : (writeOut w s).pushOk = false := by
  simp only [writeOut, hw, Bool.not_true, Bool.false_and]

theorem writeEdge_held (full : Bool) (sampled : Nat) (w : WriteIn) : writeEdge full sampled w s = .next s := if_pos hw

theorem wclk_held (w : WriteIn) : runHostStep (.wclk w) s = asyncOnly s (.next (s.report .unit)) :=
  congrArg (asyncOnly s) (writeEdge_held (s := s.report .unit) hw _ _ w)

/-- An edge of both clocks is then the read domain's alone. -/
theorem bothEdges_writeHeld (w : WriteIn) (r : ReadIn) : bothEdges w r s = readEdge s.fifo.wgray r s := by
  unfold bothEdges
  cases h : readEdge s.fifo.wgray r s with
  | next t =>
    obtain ⟨-, -, -, -, hheld⟩ := readEdge_writeCursor h
    exact writeEdge_held (hheld.trans hw) _ _ w
  | fault e => rfl
  | refused e => rfl

theorem clk_writeHeld (w : WriteIn) (r : ReadIn) :
    runHostStep (.clk w r) s = onTime r s fun u => readEdge u.fifo.wgray r (u.report .unit) := by
  rw [runHostStep]
  cases ho : s.tickOnTime r with
  | true =>
    rw [onTime_of ho, onTime_of ho]
    exact bothEdges_writeHeld (s := (s.withSinceTick (s.sinceTickAfter r)).report .unit) hw w r
  | false => rw [onTime_refused ho, onTime_refused ho]

/-- An edge of both clocks leaves the registers of the held write domain as they were; its copy of the read pointer follows in
the exact configuration only (log 25). -/
theorem clk_writeHeld_frame {w : WriteIn} {r : ReadIn} {t : State} (h : runHostStep (.clk w r) s = .next t) :
    t.fifo.mem = s.fifo.mem ∧ t.fifo.wptr = s.fifo.wptr ∧ t.fifo.wgray = s.fifo.wgray ∧
      t.fifo.ghost.pushed = s.fifo.ghost.pushed ∧
      (s.cfg.exact = false → t.fifo.wqRptr = s.fifo.wqRptr ∧ t.fifo.r2w = s.fifo.r2w) := by
  rw [clk_writeHeld hw] at h
  have hread := (onTime_next h).2
  obtain ⟨hmem, hwptr, hgray, hpushed, -⟩ := readEdge_writeCursor hread
  refine ⟨hmem, hwptr, hgray, hpushed, fun hx => ?_⟩
  obtain ⟨hdomain, -⟩ := readEdge_frame (by exact hx) hread
  exact ⟨hdomain.wqRptr, hdomain.chain⟩

theorem crossR_held {v : Nat} (h1 : s.fifo.ghost.wqr ≤ v) (h2 : v ≤ s.fifo.ghost.r) :
    runHostStep (.crossR v) s = .next (s.report .unit) := (if_pos ⟨h1, h2⟩).trans (if_pos hw)

end WriteHeld

/-! The read domain held. -/

section ReadHeld

variable {s : State} (hr : s.rHeld = true)
include hr

theorem unitOut_held (u : UnitIn) :
    (unitOut u s).popValid = false ∧ (unitOut u s).popData = none ∧ (unitOut u s).pmValid = false ∧ (unitOut u s).pm = none := by
  simp [unitOut, hr]

theorem topOut_held : (topOut s).msgValid = false ∧ (topOut s).flushValid = false ∧ (topOut s).hkSlot = false := by
  simp [topOut, hr]

theorem readEdge_held (sampled : Nat) (r : ReadIn) : readEdge sampled r s = .next s := if_pos hr

/-- An edge in a held read domain is on time and not counted (R150, R153 (a)). -/
theorem onTime_held (r : ReadIn) (k : State → StepResult) : onTime r s k = k s := by
  obtain ⟨ho, hcount⟩ := State.held_onTime hr r
  rw [onTime_of ho, hcount]
  rfl

theorem rclk_held (r : ReadIn) : runHostStep (.rclk r) s = asyncOnly s (.next (s.report .unit)) := by
  rw [runHostStep, onTime_held hr, readEdge_held (s := s.report .unit) hr]

/-- An edge of both clocks is then the write domain's alone. -/
theorem clk_readHeld (w : WriteIn) (r : ReadIn) :
    runHostStep (.clk w r) s = writeEdge (wfull s.cfg s.fifo) s.fifo.rgray w (s.report .unit) := by
  rw [runHostStep, onTime_held hr, bothEdges, readEdge_held (s := s.report .unit) hr]
  rfl

/-- An edge of both clocks completes and leaves the registers of the held read domain as they were; its copy of the write pointer
follows in the exact configuration only (log 25). -/
theorem clk_readHeld_frame (w : WriteIn) (r : ReadIn) :
    ∃ t, runHostStep (.clk w r) s = .next t ∧ t.parser = s.parser ∧ t.debounce = s.debounce ∧ t.seq = s.seq ∧
      t.txLog = s.txLog ∧ t.fifo.rptr = s.fifo.rptr ∧ t.fifo.rgray = s.fifo.rgray ∧
      t.fifo.ghost.popped = s.fifo.ghost.popped ∧
      (s.cfg.exact = false → t.fifo.rqWptr = s.fifo.rqWptr ∧ t.fifo.w2r = s.fifo.w2r) := by
  obtain ⟨t, ht⟩ := writeEdge_completes (wfull s.cfg s.fifo) s.fifo.rgray w (s.report .unit)
  have hframe := writeEdge_next ht
  obtain ⟨hrptr, hgray, hpopped⟩ := writeEdge_readCursor ht
  refine ⟨t, (clk_readHeld hr w r).trans ht, by rw [hframe]; rfl, by rw [hframe]; rfl, by rw [hframe]; rfl, by rw [hframe]; rfl,
    hrptr, hgray, hpopped, fun hx => ?_⟩
  obtain ⟨hdomain, -⟩ := writeEdge_frame (by exact hx) ht
  exact ⟨hdomain.rqWptr, hdomain.chain⟩

theorem crossW_held {v : Nat} (h1 : s.fifo.ghost.rqw ≤ v) (h2 : v ≤ s.fifo.ghost.w) :
    runHostStep (.crossW v) s = .next (s.report .unit) := (if_pos ⟨h1, h2⟩).trans (if_pos hr)

end ReadHeld

/-- R79: with asynchronous clocks the edges of one clock alone exist. -/
theorem asyncOnly_of_async {s : State} (h : s.cfg.async = true) (k : StepResult) : asyncOnly s k = k := if_pos h

/-- Settles O13: a word reports `ignoredResult`, which the held ports show, and an edge of a held domain is that of the other domain,
or none. -/
theorem heldDomainIgnoresEdges : Obligations.HeldDomainIgnoresEdges := by
  intro s w w' r r' u v
  refine ⟨fun x i hx hwf hh => ⟨ignoredResult i s, (runWord_held hx hh).trans (ignoreInstr_of_wellFormed hwf), ?_⟩,
    fun hr => crossW_held hr, fun hw => crossR_held hw,
    fun hw => ⟨writeOut_held hw w, ?_, ?_, ?_, fun t => clk_writeHeld_frame hw⟩, fun hr => ?_, ?_⟩
  · cases i with
    | push _ => exact congrArg Result.bool (writeOut_held hh w).symm
    | pop =>
      obtain ⟨-, hdata, -⟩ := unitOut_held hh u
      exact congrArg Result.item hdata.symm
    | parse _ =>
      obtain ⟨-, -, -, hpm⟩ := unitOut_held hh u
      exact congrArg Result.message hpm.symm
    | _ => rfl
  · rw [wclk_held hw, wclk_held hw]
  · rw [clk_writeHeld hw, clk_writeHeld hw]
  · intro ha
    rw [wclk_held hw, asyncOnly_of_async ha]
  · obtain ⟨hpop, -, hpm, -⟩ := unitOut_held hr u
    obtain ⟨hmsg, hflush, hslot⟩ := topOut_held hr
    refine ⟨hpop, hpm, hmsg, hflush, hslot, ?_, ?_, fun ha => ?_, clk_readHeld_frame hr w r⟩
    · rw [rclk_held hr, rclk_held hr]
    · rw [clk_readHeld hr, clk_readHeld hr]
    · rw [rclk_held hr, asyncOnly_of_async ha]
  · intro hw hr
    rw [clk_readHeld hr]
    exact writeEdge_held (s := s.report .unit) hw _ _ w

end Sys2Proof.Machine
end
